-- ==== Sys2Proof/Word.lean ====
section
/-!
DEFINITION. The value widths of the block (00_scope.md R8, 92_eei_decisions.md D7), the two closed
enumerations it is indexed by (30_encoding.md R116), and the two-entry tables over them.
-/

namespace Sys2Proof

/-- 32 bits, unsigned: baud, clock frequency, length, callback, context, pin identifier (R8). -/
abbrev Word := BitVec 32

/-- 8 bits: one byte of the data register (20_memory.md R70). -/
abbrev Byte := BitVec 8

/-- LogicalPort (00_scope.md R3): exactly two. -/
inductive Port
  | usart
  | lpuart
  deriving DecidableEq, Repr

/-- Direction (30_encoding.md R116). -/
inductive Dir
  | tx
  | rx
  deriving DecidableEq, Repr

/-- The direction that is not this one (44_direction.md R243). -/
def Dir.other : Dir → Dir
  | .tx => .rx
  | .rx => .tx

/-- The port that is not this one. -/
def Port.other : Port → Port
  | .usart => .lpuart
  | .lpuart => .usart

/-- A table with one entry per port: the "registry indexed by LogicalPort" of 43_receive.md R219. -/
structure PerPort (α : Type) where
  usart : α
  lpuart : α
  deriving DecidableEq, Repr, Inhabited

/-- A table with one entry per direction. -/
structure PerDir (α : Type) where
  tx : α
  rx : α
  deriving DecidableEq, Repr, Inhabited

/-- The entry of one port. -/
def PerPort.get {α : Type} (t : PerPort α) : Port → α
  | .usart => t.usart
  | .lpuart => t.lpuart

/-- The table with the entry of one port replaced; the other port's entry is kept (R3). -/
def PerPort.set {α : Type} (t : PerPort α) (p : Port) (a : α) : PerPort α :=
  match p with
  | .usart => ⟨a, t.lpuart⟩
  | .lpuart => ⟨t.usart, a⟩

/-- The entry of one direction. -/
def PerDir.get {α : Type} (t : PerDir α) : Dir → α
  | .tx => t.tx
  | .rx => t.rx

/-- The table with the entry of one direction replaced. -/
def PerDir.set {α : Type} (t : PerDir α) (d : Dir) (a : α) : PerDir α :=
  match d with
  | .tx => ⟨a, t.rx⟩
  | .rx => ⟨t.tx, a⟩

end Sys2Proof
end

