-- ==== Sys2Proof/Config.lean ====
section
/-!
DEFINITION. What a build fixes: the named constants of 00_scope.md R7 and R8, the frame parameters of
40_lifecycle.md R142, the OPEN descriptor table of 10_state.md R35 and R36, and the free values the spec
leaves open, each an opaque constant without a body (log 3, log 4).
-/

namespace Sys2Proof.Config

/-- `N_PORTS` (R7): number of logical ports; the port field of a valid handle is below it. -/
def nPorts : Nat := 2
/-- `N_DIRS` (R7): number of directions; a valid direction field is below it. -/
def nDirs : Nat := 2
/-- `BAUD_MIN` (R7): lowest supported baud, inclusive. -/
def baudMin : Nat := 9600
/-- `BAUD_MAX` (R7): highest supported baud, inclusive. -/
def baudMax : Nat := 4000000
/-- `RATIO_MAX` (R7): largest `f div baud` of the Lpuart that keeps the ×1 prescaler. -/
def ratioMax : Nat := 4095
/-- `PRESC_LOW` (R7). -/
def prescLow : BitVec 6 := 1
/-- `PRESC_HIGH` (R7). -/
def prescHigh : BitVec 6 := 32
/-- `OVERSAMPLING` (R7). -/
def oversampling : Nat := 16
/-- `DATA_BITS` (R7). -/
def dataBits : Nat := 8
/-- `STOP_BITS` (R7). -/
def stopBits : Nat := 1

/-- `DIV_MIN[p]` (R8, 41_baud.md R177). PRESUMED by the spec itself (G2, log 15). -/
def divMin : Port → Nat
  | .usart => 16
  | .lpuart => 768
/-- `DIV_MAX[p]` (R8, 41_baud.md R177). PRESUMED by the spec itself (G2, log 15). -/
def divMax : Port → Nat
  | .usart => 65535
  | .lpuart => 1048575

/-- The parity setting of a frame; the block programs no other (40_lifecycle.md R142). -/
inductive Parity
  | none
  deriving DecidableEq, Repr
/-- The transfer directions of a frame (R142): "bidirectional". -/
inductive Transfer
  | both
  deriving DecidableEq, Repr
/-- The hardware flow control of a frame (R142). -/
inductive FlowControl
  | none
  deriving DecidableEq, Repr

/-- The record `FRAME[p]` of 40_lifecycle.md R142. `oversampling` is absent for the Lpuart. -/
structure Frame where
  dataBits : Nat
  stopBits : Nat
  parity : Parity
  transfer : Transfer
  flow : FlowControl
  oversampling : Option Nat
  deriving DecidableEq, Repr

/-- `FRAME[p]` (R142): "LPUART omits oversampling selection". -/
def frame : Port → Frame
  | .usart => ⟨dataBits, stopBits, .none, .both, .none, some Config.oversampling⟩
  | .lpuart => ⟨dataBits, stopBits, .none, .both, .none, none⟩

/-- One row of the descriptor table (10_state.md R35). `DESC[p].en[d]` and `DESC[p].dis[d]` are the
primitives `DirEnable(p, d)` and `DirDisable(p, d)`. The widths other than that of `pin` are a DESIGN
CHOICE (log 16). The defaults only show that the type has a value; no value of the table is known. -/
structure PortDesc where
  regs : Word := 0
  af : Word := 0
  pin : PerDir Word := ⟨0, 1⟩
  bus : Word := 0
  clksrc : Word := 0
  vec : Word := 0
  deriving DecidableEq, Repr, Inhabited

/-- The descriptor table with the constraint of 10_state.md R36: the four pin identifiers, the two bus
identifiers, the two vector identifiers and the two register-block references are pairwise distinct. -/
structure DescTable where
  usart : PortDesc := ⟨0, 0, ⟨0, 1⟩, 0, 0, 0⟩
  lpuart : PortDesc := ⟨1, 0, ⟨2, 3⟩, 1, 0, 1⟩
  pinsDistinct :
    [usart.pin.tx, usart.pin.rx, lpuart.pin.tx, lpuart.pin.rx].Pairwise (· ≠ ·) := by decide
  busDistinct : usart.bus ≠ lpuart.bus := by decide
  vecDistinct : usart.vec ≠ lpuart.vec := by decide
  regsDistinct : usart.regs ≠ lpuart.regs := by decide
  deriving DecidableEq, Repr, Inhabited

/-- `DESC` (R35, R37): OPEN, a constant that is looked up and never written (log 16). -/
opaque desc : DescTable

/-- `DESC[p]`. -/
def descOf : Port → PortDesc
  | .usart => desc.usart
  | .lpuart => desc.lpuart

/-- The four status flags that are draws at each poll (20_memory.md R92). -/
inductive PollFlag
  | teack
  | reack
  | tc
  | txe
  deriving DecidableEq, Repr

/-- What a free bit stands for. -/
inductive FreeBit
  /-- One poll of a status flag (R92, log 3). -/
  | poll (f : PollFlag) (p : Port)
  /-- A query of a port whose bus clock is gated, safe setting of U6 (log 19). -/
  | gatedQuery (p : Port)
  /-- Whether a write to a port whose bus clock is gated has its effect, safe setting of U6 (log 19). -/
  | gatedWrite (p : Port)
  /-- `frame[p]` after a configuration write to an enabled port, cautious setting of U9 (log 20). -/
  | reinitFrame (p : Port)
  /-- `fifo_en[p]` in the same case. -/
  | reinitFifo (p : Port)
  /-- `async_mode` in the same case. -/
  | reinitAsync
  /-- `err_ie[p]` at reset (R47, U11, log 4). -/
  | resetErrIe (p : Port)
  /-- The local `e` at reset (log 4). -/
  | resetLocE
  /-- The local `g` at reset (log 4). -/
  | resetLocG
  deriving DecidableEq, Repr

/-- What a free word stands for. -/
inductive FreeWord
  /-- The answer of `ClkFreq(p)` (R82, U1, log 3). -/
  | clkFreq (p : Port)
  /-- The divisor programmed when the computed one is out of range (R176, U3, log 14). -/
  | divisor (p : Port)
  /-- An operand word the format does not carry (R21, log 10). -/
  | unusedArg0
  | unusedArg1
  /-- Reset values that R47 leaves unspecified (log 4). -/
  | resetX0
  | resetX1
  | resetX2
  | resetOp
  | resetStep
  | resetIdx
  | resetResp
  | resetReason
  | resetDiv (p : Port)
  | resetLocF
  | resetLocPresc
  | resetLocDiv
  deriving DecidableEq, Repr

/-- What a free byte stands for. -/
inductive FreeByte
  /-- `rdr[p]` at reset (R47, U11, log 4). -/
  | resetRdr (p : Port)
  /-- `ReadData(p)` on a port whose bus clock is gated, safe setting of U6 (log 19). -/
  | gatedData (p : Port)
  deriving DecidableEq, Repr

/-- The free bits: nothing constrains them. The number is the draw counter of State. -/
opaque freeBit : FreeBit → Nat → Bool
/-- The free words: nothing constrains them. -/
opaque freeWord : FreeWord → Nat → Word
/-- The free bytes: nothing constrains them. -/
opaque freeByte : FreeByte → Nat → Byte

end Sys2Proof.Config
end

