-- ==== Sys2Proof/Syntax.lean ====
section
/-!
DEFINITION. The command set (00_scope.md R2, 30_encoding.md R110): one constructor per row of
spec/opcode_table.json, with the operands the row carries.
-/

namespace Sys2Proof

/-- The operand fields of the header word, as the caller wrote them (30_encoding.md R112). `hv` and
`port` are the handle; `dir` is an operand in format D only and is ignored elsewhere, but it is a bit
field of every header, so every command keeps it. -/
structure Hdr where
  hv : Bool
  port : BitVec 2
  dir : BitVec 2
  deriving DecidableEq, Repr

/-- A command with its operands (R110). -/
inductive Instr
  /-- op 0, format A: handle, baud (R141). -/
  | init (h : Hdr) (baud : Word)
  /-- op 1, format A: handle, baud (R170). -/
  | isBaudRateSupported (h : Hdr) (baud : Word)
  /-- op 2, format A: handle, baud (R171). -/
  | setBaudRate (h : Hdr) (baud : Word)
  /-- op 3, format H: handle (R143). -/
  | deinit (h : Hdr)
  /-- op 4, format H: handle (R144). -/
  | suspend (h : Hdr)
  /-- op 5, format H: handle (R145). -/
  | resume (h : Hdr)
  /-- op 6, format S: handle, byte sequence; the operand `n` is the length of `bytes` (R200, R115). -/
  | tx (h : Hdr) (bytes : List Byte)
  /-- op 7, format H: handle (R201). -/
  | txWaitComplete (h : Hdr)
  /-- op 8, format C: handle, callback (0 is null), context (R217). -/
  | setRxCallback (h : Hdr) (callback context : Word)
  /-- op 9, format D: handle, direction (R240). -/
  | enableDirection (h : Hdr)
  /-- op 10, format D: handle, direction (R241). -/
  | disableDirection (h : Hdr)
  /-- op 11, format D: handle, direction (R242). -/
  | getGpioPin (h : Hdr)
  deriving DecidableEq, Repr

/-- The header operand fields of a command. -/
def Instr.hdr : Instr → Hdr
  | .init h _ => h
  | .isBaudRateSupported h _ => h
  | .setBaudRate h _ => h
  | .deinit h => h
  | .suspend h => h
  | .resume h => h
  | .tx h _ => h
  | .txWaitComplete h => h
  | .setRxCallback h _ _ => h
  | .enableDirection h => h
  | .disableDirection h => h
  | .getGpioPin h => h

/-- The pseudo-operation `unregister h` (30_encoding.md R123): a null registration. -/
def Instr.unregister (h : Hdr) : Instr := .setRxCallback h 0 0

end Sys2Proof
end

