-- ==== Sys2Proof/WellFormed.lean ====
section
/-!
DEFINITION. What makes a command expressible as a packet. The bit widths of the header fields and the
operand words stand in their types; the one remaining condition is that the length of a `tx` sequence
fits the 32-bit operand `n` (30_encoding.md R114, R115; 92_eei_decisions.md D32).
-/

namespace Sys2Proof

/-- The command has an encoding. -/
def Instr.wf : Instr → Bool
  | .tx _ bytes => decide (bytes.length < 2 ^ 32)
  | .init _ _ => true
  | .isBaudRateSupported _ _ => true
  | .setBaudRate _ _ => true
  | .deinit _ => true
  | .suspend _ => true
  | .resume _ => true
  | .txWaitComplete _ => true
  | .setRxCallback _ _ _ => true
  | .enableDirection _ => true
  | .disableDirection _ => true
  | .getGpioPin _ => true

end Sys2Proof
end

