-- ==== Sys2Proof/Decode.lean ====
section
/-!
DEFINITION. The command packet (30_encoding.md R110 to R117): formats, header fields, the opcode map, the
decoder (total, rejecting by name), and after it the encoder, the reader of an opcode-table word and the
textual form of R122.
-/

namespace Sys2Proof

/-- A packet as the caller presents it on the command port (R110): one header word, then operand words,
then byte beats. The block has no byte order (20_memory.md R100), so a packet is words and beats, not
bytes in a memory (log 7). -/
structure Packet where
  header : Word
  args : List Word
  beats : List Byte
  deriving DecidableEq, Repr

/-- The twelve operations (00_scope.md R2). -/
inductive Op
  | init
  | isBaudRateSupported
  | setBaudRate
  | deinit
  | suspend
  | resume
  | tx
  | txWaitComplete
  | setRxCallback
  | enableDirection
  | disableDirection
  | getGpioPin
  deriving DecidableEq, Repr

/-- The five packet formats (R111). -/
inductive Format
  | H
  | D
  | A
  | C
  | S
  deriving DecidableEq, Repr

/-- Why a packet is no command. -/
inductive Reject
  /-- `op` in 12 to 15 or `rsv` not 0 (R117). -/
  | illegalCommand
  /-- The number of operand words or beats is not the format's (R110, R111; log 8). -/
  | badLength
  deriving DecidableEq, Repr

/-- One row of the opcode map (R113): a header selects the row when `header & mask = pattern`. -/
structure OpRow where
  op : Op
  format : Format
  pattern : Word
  mask : Word
  deriving DecidableEq, Repr

/-- The opcode map, row for row as R113 prints it. -/
def opcodeTable : List OpRow :=
  [ ⟨.init,                .A, 0x00000000, 0xFFFFFE0F⟩,
    ⟨.isBaudRateSupported, .A, 0x00000001, 0xFFFFFE0F⟩,
    ⟨.setBaudRate,         .A, 0x00000002, 0xFFFFFE0F⟩,
    ⟨.deinit,              .H, 0x00000003, 0xFFFFFE0F⟩,
    ⟨.suspend,             .H, 0x00000004, 0xFFFFFE0F⟩,
    ⟨.resume,              .H, 0x00000005, 0xFFFFFE0F⟩,
    ⟨.tx,                  .S, 0x00000006, 0xFFFFFE0F⟩,
    ⟨.txWaitComplete,      .H, 0x00000007, 0xFFFFFE0F⟩,
    ⟨.setRxCallback,       .C, 0x00000008, 0xFFFFFE0F⟩,
    ⟨.enableDirection,     .D, 0x00000009, 0xFFFFFE0F⟩,
    ⟨.disableDirection,    .D, 0x0000000A, 0xFFFFFE0F⟩,
    ⟨.getGpioPin,          .D, 0x0000000B, 0xFFFFFE0F⟩ ]

/-- The row a header selects, if any (R113, R117). -/
def selectRow (header : Word) : Option OpRow :=
  opcodeTable.find? fun r => header &&& r.mask == r.pattern

/-- Header field `op`, bits 3:0 (R112). -/
def opField (header : Word) : BitVec 4 := header.extractLsb' 0 4
/-- Header field `rsv`, bits 31:9 (R112). -/
def rsvField (header : Word) : BitVec 23 := header.extractLsb' 9 23
/-- Header fields `hv` (bit 4), `port` (bits 6:5) and `dir` (bits 8:7) (R112). -/
def hdrOf (header : Word) : Hdr :=
  ⟨header.getLsbD 4, header.extractLsb' 5 2, header.extractLsb' 7 2⟩

/-- A packet with no operand word and no beat: formats H and D. -/
def readNone (pk : Packet) (i : Instr) : Except Reject Instr :=
  match pk.args, pk.beats with
  | [], [] => .ok i
  | _, _ => .error .badLength

/-- A packet with one operand word: format A. -/
def readOne (pk : Packet) (mk : Word → Instr) : Except Reject Instr :=
  match pk.args, pk.beats with
  | [a], [] => .ok (mk a)
  | _, _ => .error .badLength

/-- A packet with two operand words: format C. -/
def readTwo (pk : Packet) (mk : Word → Word → Instr) : Except Reject Instr :=
  match pk.args, pk.beats with
  | [a, b], [] => .ok (mk a b)
  | _, _ => .error .badLength

/-- A packet whose one operand word is the number of beats: format S (R115). -/
def readBeats (pk : Packet) (mk : List Byte → Instr) : Except Reject Instr :=
  match pk.args with
  | [n] => if n.toNat = pk.beats.length then .ok (mk pk.beats) else .error .badLength
  | _ => .error .badLength

/-- The command an operation name and a packet make. -/
def decodeAs (op : Op) (pk : Packet) : Except Reject Instr :=
  match op with
  | .init => readOne pk (.init (hdrOf pk.header))
  | .isBaudRateSupported => readOne pk (.isBaudRateSupported (hdrOf pk.header))
  | .setBaudRate => readOne pk (.setBaudRate (hdrOf pk.header))
  | .deinit => readNone pk (.deinit (hdrOf pk.header))
  | .suspend => readNone pk (.suspend (hdrOf pk.header))
  | .resume => readNone pk (.resume (hdrOf pk.header))
  | .tx => readBeats pk (.tx (hdrOf pk.header))
  | .txWaitComplete => readNone pk (.txWaitComplete (hdrOf pk.header))
  | .setRxCallback => readTwo pk (.setRxCallback (hdrOf pk.header))
  | .enableDirection => readNone pk (.enableDirection (hdrOf pk.header))
  | .disableDirection => readNone pk (.disableDirection (hdrOf pk.header))
  | .getGpioPin => readNone pk (.getGpioPin (hdrOf pk.header))

/-- The decoder (R119: `op` and `rsv` first, then the length). Handle and direction are operands and are
not judged here: an invalid one is a precondition violation of the operation, raised by its check step. -/
def decode (pk : Packet) : Except Reject Instr :=
  match selectRow pk.header with
  | none => .error .illegalCommand
  | some r => decodeAs r.op pk

/-! ### The encoder, from the same tables -/

/-- The operation of a command. -/
def Instr.op : Instr → Op
  | .init _ _ => .init
  | .isBaudRateSupported _ _ => .isBaudRateSupported
  | .setBaudRate _ _ => .setBaudRate
  | .deinit _ => .deinit
  | .suspend _ => .suspend
  | .resume _ => .resume
  | .tx _ _ => .tx
  | .txWaitComplete _ => .txWaitComplete
  | .setRxCallback _ _ _ => .setRxCallback
  | .enableDirection _ => .enableDirection
  | .disableDirection _ => .disableDirection
  | .getGpioPin _ => .getGpioPin

/-- The opcode value (R113): the operations in the table's order, from 0. -/
def Op.code : Op → BitVec 4
  | .init => 0
  | .isBaudRateSupported => 1
  | .setBaudRate => 2
  | .deinit => 3
  | .suspend => 4
  | .resume => 5
  | .tx => 6
  | .txWaitComplete => 7
  | .setRxCallback => 8
  | .enableDirection => 9
  | .disableDirection => 10
  | .getGpioPin => 11

/-- One of the four lifecycle operations (40_lifecycle.md R161). -/
def Op.isLife : Op → Bool
  | .init => true
  | .deinit => true
  | .suspend => true
  | .resume => true
  | .isBaudRateSupported => false
  | .setBaudRate => false
  | .tx => false
  | .txWaitComplete => false
  | .setRxCallback => false
  | .enableDirection => false
  | .disableDirection => false
  | .getGpioPin => false

/-- The format of an operation (R111). -/
def Op.format : Op → Format
  | .init | .isBaudRateSupported | .setBaudRate => .A
  | .deinit | .suspend | .resume | .txWaitComplete => .H
  | .tx => .S
  | .setRxCallback => .C
  | .enableDirection | .disableDirection | .getGpioPin => .D

/-- The header word (R112): `rsv ++ dir ++ port ++ hv ++ op`, most significant first, `rsv` 0. -/
def encodeHeader (op : Op) (h : Hdr) : Word :=
  (0#23 ++ h.dir ++ h.port ++ BitVec.ofBool h.hv ++ op.code : BitVec (23 + 2 + 2 + 1 + 4))

/-- The operand words of a command (R111, R114). -/
def Instr.args : Instr → List Word
  | .init _ baud => [baud]
  | .isBaudRateSupported _ baud => [baud]
  | .setBaudRate _ baud => [baud]
  | .deinit _ => []
  | .suspend _ => []
  | .resume _ => []
  | .tx _ bytes => [BitVec.ofNat 32 bytes.length]
  | .txWaitComplete _ => []
  | .setRxCallback _ callback context => [callback, context]
  | .enableDirection _ => []
  | .disableDirection _ => []
  | .getGpioPin _ => []

/-- The byte beats of a command (R115). -/
def Instr.beats : Instr → List Byte
  | .tx _ bytes => bytes
  | .init _ _ => []
  | .isBaudRateSupported _ _ => []
  | .setBaudRate _ _ => []
  | .deinit _ => []
  | .suspend _ => []
  | .resume _ => []
  | .txWaitComplete _ => []
  | .setRxCallback _ _ _ => []
  | .enableDirection _ => []
  | .disableDirection _ => []
  | .getGpioPin _ => []

/-- The packet of a command. -/
def encode (i : Instr) : Packet := ⟨encodeHeader i.op i.hdr, i.args, i.beats⟩

/-! ### Reading an opcode-table word -/

/-- The packet whose bits, laid one after the other from bit 0 (header, operand words, beats), are those of
`w`: as many operand words and beats as the header's format asks for. -/
def packetOfBits (w : Nat) : Packet :=
  let header := BitVec.ofNat 32 w
  let word := fun k => BitVec.ofNat 32 (w >>> (32 * k))
  match (selectRow header).map OpRow.format with
  | none => ⟨header, [], []⟩
  | some .H => ⟨header, [], []⟩
  | some .D => ⟨header, [], []⟩
  | some .A => ⟨header, [word 1], []⟩
  | some .C => ⟨header, [word 1, word 2], []⟩
  | some .S => ⟨header, [word 1],
      (List.range (word 1).toNat).map fun i => BitVec.ofNat 8 (w >>> (64 + 8 * i))⟩

/-- The packet of an opcode-table word of `nbits` bits; every bit above `nbits` is 0. -/
def tablePacket (nbits w : Nat) : Packet := packetOfBits (w % 2 ^ nbits)

/-- What the decoder reads from an opcode-table word. -/
def decodeTableWord (nbits w : Nat) : Option Instr :=
  match decode (tablePacket nbits w) with
  | .ok i => some i
  | .error _ => none

/-! ### Textual form -/

/-- The text of a handle (R122); a null handle with a port field other than 0 has none. -/
def Hdr.handleText (h : Hdr) : Option String :=
  match h.hv, h.port.toNat with
  | true, 0 => some "usart"
  | true, 1 => some "lpuart"
  | true, k => some ("port#" ++ toString k)
  | false, 0 => some "null"
  | false, _ => none

/-- The text of a direction (R122). -/
def Hdr.dirText (h : Hdr) : String :=
  match h.dir.toNat with
  | 0 => "tx"
  | 1 => "rx"
  | k => "dir#" ++ toString k

/-- The mnemonic (R113). -/
def Op.mnemonic : Op → String
  | .init => "init"
  | .isBaudRateSupported => "is_baud_rate_supported"
  | .setBaudRate => "set_baud_rate"
  | .deinit => "deinit"
  | .suspend => "suspend"
  | .resume => "resume"
  | .tx => "tx"
  | .txWaitComplete => "tx_wait_complete"
  | .setRxCallback => "set_rx_callback"
  | .enableDirection => "enable_direction"
  | .disableDirection => "disable_direction"
  | .getGpioPin => "get_gpio_pin"

/-- A number, decimal (R9); a null callback is written 0. -/
def wordText (w : Word) : String := toString w.toNat

/-- The operands after the handle, as R122 writes them. -/
def Instr.operandText : Instr → List String
  | .init _ baud => [wordText baud]
  | .isBaudRateSupported _ baud => [wordText baud]
  | .setBaudRate _ baud => [wordText baud]
  | .deinit _ => []
  | .suspend _ => []
  | .resume _ => []
  | .tx _ bytes =>
      ["[" ++ ", ".intercalate (bytes.map fun b => toString b.toNat) ++ "]"]
  | .txWaitComplete _ => []
  | .setRxCallback _ callback context => [wordText callback, wordText context]
  | .enableDirection h => [h.dirText]
  | .disableDirection h => [h.dirText]
  | .getGpioPin h => [h.dirText]

/-- The textual form `mnemonic handle[, operand]...` (R122). A command has one unless its handle is a null
handle with a port field other than 0, or its ignored `dir` field is not 0: the text cannot say either. -/
def Instr.text (i : Instr) : Option String :=
  if i.op.format ≠ .D ∧ i.hdr.dir ≠ 0 then none
  else i.hdr.handleText.map fun h =>
    i.op.mnemonic ++ " " ++ ", ".intercalate (h :: i.operandText)

end Sys2Proof
end

