-- ==== Sys2Proof/Machine/State.lean ====
section
/-!
DEFINITION. The state of the machine as plain data (10_state.md), the reasons a step can stop, and reset.
The four classes of R20 are kept apart: block state, sequencer state, the descriptor table (a constant,
in Config) and interface state; beside them stand the traces of R48 and the model's own fields.
-/

namespace Sys2Proof.Machine

/-! ### Block state (R20 a) -/

/-- DriverState of one port (R27 to R29) and its ghost bit (R33). -/
structure Driver where
  wasEnabled : Bool
  cb : Word
  ctx : Word
  deinited : Bool
  deriving DecidableEq, Repr

/-- The state the block owns and that survives between commands. -/
structure Block where
  /-- The fatal latch (R25). -/
  fatal : Bool
  /-- `fatal_reason`, 3 bits (R25, codes in 60_exceptions.md R262). -/
  fatalReason : BitVec 3
  drv : PerPort Driver
  deriving DecidableEq, Repr

/-- The reasons of a precondition violation (60_exceptions.md R262). -/
inductive FatalReason
  | nullHandle
  | portRange
  | dirRange
  | illegalCommand
  deriving DecidableEq, Repr

/-- The reason codes (R262). -/
def FatalReason.code : FatalReason → BitVec 3
  | .nullHandle => 1
  | .portRange => 2
  | .dirRange => 3
  | .illegalCommand => 4

/-! ### Sequencer state (R20 b) -/

/-- The micro-program counter (R24): operation, number of the next micro-step, index of the next byte. -/
structure Upc where
  op : BitVec 4
  step : Nat
  idx : Nat
  deriving DecidableEq, Repr

/-- The values a micro-program carries from one micro-step to a later one: `e` and `g` of `deinit`
(40_lifecycle.md R143), `f`, `P`, `v` of `set_baud_rate` (41_baud.md R171). DEDUCED (log 24). -/
structure Locals where
  e : Bool
  g : Bool
  f : Word
  presc : BitVec 6
  div : Word
  deriving DecidableEq, Repr

/-- The sequencer (R21 to R24, R26). -/
structure Seq where
  x0 : Word
  x1 : Word
  x2 : Word
  txbuf : List Byte
  busy : Bool
  upc : Upc
  resp : Word
  respValid : Bool
  loc : Locals
  deriving DecidableEq, Repr

/-! ### Interface state (R20 d): the reference environment -/

/-- Whether the handler of a port is registered at its vector (R39). -/
inductive Vec
  | detached
  | attached
  deriving DecidableEq, Repr

/-- The configuration of a pin (R39, 20_memory.md R83). -/
inductive PinCfg
  | resetState
  | altFn (af : Word)
  | analog
  deriving DecidableEq, Repr

/-- The control fields and the receive side of one port (R38, R39). The configuration of the pin
`DESC[p].pin[d]` is kept at `(p, d)`: the four pins are pairwise distinct (R36; log 17). -/
structure PortEnv where
  busclk : Bool
  clksel : Bool
  pe : Bool
  dirEn : PerDir Bool
  frame : Bool
  fifoEn : Bool
  rxneIe : Bool
  errIe : Bool
  presc : BitVec 6
  div : Word
  vec : Vec
  pins : PerDir PinCfg
  rxne : Bool
  ore : Bool
  rdr : Byte
  deriving DecidableEq, Repr

/-- The interface state; `asyncMode` exists for the Usart only (R39). -/
structure Iface where
  env : PerPort PortEnv
  asyncMode : Bool
  deriving DecidableEq, Repr

/-! ### Traces (R48) -/

/-- Who issued a primitive (R48). -/
inductive Issuer
  | sequencer
  | handler (p : Port)
  deriving DecidableEq, Repr

/-- The primitives of the interface (20_memory.md R61), each with its arguments and its result. -/
inductive Prim
  | busEnable (p : Port)
  | busDisable (p : Port)
  | busIsEnabled (p : Port) (r : Bool)
  | clkSrcSelect (p : Port)
  | clkFreq (p : Port) (f : Word)
  | pinCfgAF (pin af : Word)
  | pinCfgAnalog (pin : Word)
  | vecAttach (p : Port)
  | vecDetach (p : Port)
  | periphConfig (p : Port)
  | fifoEnable (p : Port)
  | asyncMode (p : Port)
  | periphEnable (p : Port)
  | periphDisable (p : Port)
  | periphIsEnabled (p : Port) (r : Bool)
  | dirEnable (p : Port) (d : Dir)
  | dirDisable (p : Port) (d : Dir)
  | flagTEACK (p : Port) (r : Bool)
  | flagREACK (p : Port) (r : Bool)
  | flagTC (p : Port) (r : Bool)
  | flagTXE (p : Port) (r : Bool)
  | flagRXNE (p : Port) (r : Bool)
  | flagORE (p : Port) (r : Bool)
  | clearORE (p : Port)
  | readData (p : Port) (b : Byte)
  | writeData (p : Port) (b : Byte)
  | setPrescaler (p : Port) (v : BitVec 6)
  | setDivisor (p : Port) (v : Word)
  | rxneIrqEnable (p : Port)
  | rxneIrqDisable (p : Port)
  | errIrqDisable (p : Port)
  | cbInvoke (c : Word) (b : Byte) (x : Word)
  deriving DecidableEq, Repr

/-- One entry of `primlog`. -/
structure LogEntry where
  issuer : Issuer
  prim : Prim
  deriving DecidableEq, Repr

/-- One entry of `cblog`: `(p, c, b, x)` (43_receive.md R221). -/
structure CbEntry where
  port : Port
  cb : Word
  byte : Byte
  ctx : Word
  deriving DecidableEq, Repr

/-- The three observation traces, oldest entry first; no rule reads them (R48). -/
structure Traces where
  primlog : List LogEntry
  txlog : PerPort (List Byte)
  cblog : List CbEntry
  deriving DecidableEq, Repr

/-! ### The model's own fields -/

/-- What happens at a preemption point (60_exceptions.md R270; log 1). -/
inductive Turn
  /-- No other agent moves: the sequencer takes its next micro-step. -/
  | quiet
  /-- `Arrive(p, b)` (20_memory.md R93). -/
  | arrive (p : Port) (b : Byte)
  /-- The interrupt controller enters `Handler(p)`, if it may (60_exceptions.md R269). -/
  | enter (p : Port)
  /-- The reset event (70_reset_and_hazards.md R300). -/
  | reset
  deriving DecidableEq, Repr

/-- What the agents outside the block are yet to do, as data the step reads (log 2). -/
structure World where
  /-- Packets the caller has yet to hand over, in the order presented (30_encoding.md R120). -/
  cmds : List Packet
  /-- The coming preemption points; none listed means that only the sequencer moves. -/
  turns : List Turn
  /-- The answers to the coming 1-bit draws; none listed means that the answer is a free value. -/
  polls : List Bool
  /-- The answers to the coming `ClkFreq` reads; none listed means that the answer is a free value. -/
  freqs : List Word
  deriving DecidableEq, Repr

/-- The order of the two stores of a registration (43_receive.md R215). -/
inductive StoreOrder
  | cbThenCtx
  | ctxThenCb
  deriving DecidableEq, Repr

/-- The parameters of a build that the spec leaves OPEN and gives a default (00_scope.md R8,
93_implementation_defined.md U6 and U9; log 18). No step writes them. -/
structure Build where
  cbStoreOrder : StoreOrder
  spuriousIrq : Bool
  /-- `F_CLK[p]`, or none where every read is a draw (R82). -/
  fClk : PerPort (Option Word)
  /-- U6: false is the reference setting, true the safe one (log 19). -/
  gatedSafe : Bool
  /-- U9: false is the reference setting, true the cautious one (log 20). -/
  reinitCautious : Bool
  deriving DecidableEq, Repr

/-- The machine. -/
structure State where
  blk : Block
  seq : Seq
  ifc : Iface
  trc : Traces
  world : World
  /-- The draw counter: the free values of Config are applied to it (log 3). -/
  draws : Nat
  build : Build
  deriving DecidableEq, Repr

/-- Why a step stops with a fault. None of these is an event of the hardware; the block's own fault,
`Fatal`, is a next state (60_exceptions.md R261). -/
inductive Fault
  /-- `Unspecified(BaudZero)` (41_baud.md R178, 60_exceptions.md R266): raised by the calculation step of
  `set_baud_rate` and `init` when the baud is 0. Safe. -/
  | baudZero
  /-- `Unspecified(NullCallback)` (43_receive.md R218 step 3, R266): raised by a handler that finds a byte
  and no callback. Safe. -/
  | nullCallback
  /-- The micro-program counter names no micro-step of the operation, or its operation is not the latched
  header's (10_state.md R24 says neither occurs; log 11): raised by a meaning and by the sequencer. Safe. -/
  | noSuchMicroStep
  deriving DecidableEq, Repr

/-- Why a step is refused. -/
inductive Refusal
  /-- The instruction has no meaning yet: raised by exec's arm. Safe. -/
  | notModelled (mnemonic : String)
  /-- A packet whose operand words or beats are not as many as its format has (30_encoding.md R110, R111
  give it no meaning; log 8): raised by the sequencer. Safe. -/
  | malformedPacket
  deriving DecidableEq, Repr

/-! ### Reset (70_reset_and_hazards.md R300 to R302; the values are 10_state.md R47) -/

/-- DriverState of a port after reset. -/
def Driver.reset : Driver := ⟨false, 0, 0, false⟩

/-- The interface state of a port after reset; `n` is the draw counter for the fields R47 leaves
unspecified (`err_ie`, `div`, `rdr`; log 4). -/
def PortEnv.reset (p : Port) (n : Nat) : PortEnv where
  busclk := false
  clksel := false
  pe := false
  dirEn := ⟨false, false⟩
  frame := false
  fifoEn := false
  rxneIe := false
  errIe := Config.freeBit (.resetErrIe p) n
  presc := 1
  div := Config.freeWord (.resetDiv p) n
  vec := .detached
  pins := ⟨.resetState, .resetState⟩
  rxne := false
  ore := false
  rdr := Config.freeByte (.resetRdr p) n

/-- The sequencer after reset: idle; what R47 leaves unspecified is a free value (log 4). -/
def Seq.reset (n : Nat) : Seq where
  x0 := Config.freeWord .resetX0 n
  x1 := Config.freeWord .resetX1 n
  x2 := Config.freeWord .resetX2 n
  txbuf := []
  busy := false
  upc :=
    { op := (Config.freeWord .resetOp n).setWidth 4
      step := (Config.freeWord .resetStep n).toNat % 32
      idx := (Config.freeWord .resetIdx n).toNat }
  resp := Config.freeWord .resetResp n
  respValid := false
  loc :=
    { e := Config.freeBit .resetLocE n
      g := Config.freeBit .resetLocG n
      f := Config.freeWord .resetLocF n
      presc := (Config.freeWord .resetLocPresc n).setWidth 6
      div := Config.freeWord .resetLocDiv n }

/-- The block state after reset. -/
def Block.reset (n : Nat) : Block where
  fatal := false
  fatalReason := (Config.freeWord .resetReason n).setWidth 3
  drv := ⟨.reset, .reset⟩

/-- The interface state after reset. -/
def Iface.reset (n : Nat) : Iface where
  env := ⟨.reset .usart n, .reset .lpuart n⟩
  asyncMode := false

/-- The traces after reset: empty (R47). -/
def Traces.reset : Traces := ⟨[], ⟨[], []⟩, []⟩

/-- The build parameters at the spec's defaults (00_scope.md R8; U6, U9). -/
def Build.default : Build := ⟨.cbThenCtx, true, ⟨none, none⟩, false, false⟩

/-- The machine right after reset, with nothing presented from outside. -/
def State.reset : State where
  blk := .reset 0
  seq := .reset 0
  ifc := .reset 0
  trc := .reset
  world := ⟨[], [], [], []⟩
  draws := 0
  build := .default

end Sys2Proof.Machine
end

