-- ==== Sys2Proof/Machine/Ops.lean ====
section
/-!
DEFINITION. The named operations over the state: accessors, free draws, the primitives of 20_memory.md
R61 with their effect in the reference environment (R81 to R95), the sequencer's own moves
(30_encoding.md R121, R124), taking the one exception of the block (60_exceptions.md R261), and leaving
it by reset (70_reset_and_hazards.md R300).
-/

namespace Sys2Proof.Machine

/-! ### Accessors -/

/-- The interface state of a port. -/
def State.port (s : State) (p : Port) : PortEnv := s.ifc.env.get p

/-- DriverState of a port. -/
def State.drv (s : State) (p : Port) : Driver := s.blk.drv.get p

/-- The interface state with one port's fields replaced. -/
def Iface.modPort (i : Iface) (p : Port) (f : PortEnv → PortEnv) : Iface :=
  { i with env := i.env.set p (f (i.env.get p)) }

/-- The state with one port's interface fields replaced. -/
def State.modPort (s : State) (p : Port) (f : PortEnv → PortEnv) : State :=
  { s with ifc := s.ifc.modPort p f }

/-- The state with one port's DriverState replaced. -/
def State.modDrv (s : State) (p : Port) (f : Driver → Driver) : State :=
  { s with blk := { s.blk with drv := s.blk.drv.set p (f (s.blk.drv.get p)) } }

/-- The state with the sequencer replaced. -/
def State.modSeq (s : State) (f : Seq → Seq) : State := { s with seq := f s.seq }

/-- The state with the micro-program's carried values replaced. -/
def State.modLoc (s : State) (f : Locals → Locals) : State :=
  s.modSeq fun q => { q with loc := f q.loc }

/-- The draw counter advances: the next free value is a fresh one (log 3). -/
def State.tick (s : State) : State := { s with draws := s.draws + 1 }

/-- A primitive is recorded in `primlog` (10_state.md R48). -/
def State.log (s : State) (w : Issuer) (x : Prim) : State :=
  { s with trc := { s.trc with primlog := s.trc.primlog ++ [⟨w, x⟩] } }

/-! ### Draws (20_memory.md R82, R92) -/

/-- A 1-bit answer: the bit, whether it was listed by the environment (`fed`) or is a free value, and the
state after it. -/
structure Drawn where
  bit : Bool
  fed : Bool
  state : State
  deriving DecidableEq, Repr

/-- One draw of a bit: the next listed answer, else a free value (log 2, log 3). -/
def State.drawBit (s : State) (k : Config.FreeBit) : Drawn :=
  match s.world.polls with
  | b :: r => ⟨b, true, { s with world := { s.world with polls := r } }⟩
  | [] => ⟨Config.freeBit k s.draws, false, s.tick⟩

/-- A clock-frequency answer and the state after it. -/
structure DrawnFreq where
  freq : Word
  state : State
  deriving DecidableEq, Repr

/-- The value `ClkFreq(p)` returns: the constant `F_CLK[p]` where the build has one, else a draw (R82). -/
def State.drawFreq (s : State) (p : Port) : DrawnFreq :=
  match s.build.fClk.get p, s.world.freqs with
  | some f, _ => ⟨f, s⟩
  | none, f :: r => ⟨f, { s with world := { s.world with freqs := r } }⟩
  | none, [] => ⟨Config.freeWord (.clkFreq p) s.draws, s.tick⟩

/-! ### Register accesses and the bus clock (20_memory.md R90; 93_implementation_defined.md U6) -/

/-- Whether a register access of the port meets a gated bus clock in a build with the safe setting of U6.
In the reference setting the clock gates nothing (R90). -/
def State.gated (s : State) (p : Port) : Bool := s.build.gatedSafe && !(s.port p).busclk

/-- A write to the port's registers: its effect, or under the safe setting of U6 its effect or none. -/
def State.regWrite (s : State) (p : Port) (f : Iface → Iface) : State :=
  if s.gated p then
    let d := s.drawBit (.gatedWrite p)
    if d.bit then { d.state with ifc := f d.state.ifc } else d.state
  else { s with ifc := f s.ifc }

/-- A 1-bit query of the port's registers that the registers answer with `v`: under the safe setting of U6
any value. -/
def State.regQuery (s : State) (p : Port) (v : Bool) : Drawn :=
  if s.gated p then s.drawBit (.gatedQuery p) else ⟨v, true, s⟩

/-- A query is recorded with its result. -/
def Drawn.log (d : Drawn) (w : Issuer) (x : Bool → Prim) : Drawn :=
  { d with state := d.state.log w (x d.bit) }

/-! ### Primitives the sequencer issues (20_memory.md R61) -/

/-- `BusEnable(p)` (R81). -/
def State.busEnable (s : State) (p : Port) : State :=
  (s.modPort p fun e => { e with busclk := true }).log .sequencer (.busEnable p)

/-- `BusDisable(p)` (R81). -/
def State.busDisable (s : State) (p : Port) : State :=
  (s.modPort p fun e => { e with busclk := false }).log .sequencer (.busDisable p)

/-- `BusIsEnabled(p)` (R81): a query of the gating unit, which no bus clock gates. -/
def State.busIsEnabled (s : State) (p : Port) : Drawn :=
  Drawn.log ⟨(s.port p).busclk, true, s⟩ .sequencer (.busIsEnabled p)

/-- `ClkSrcSelect(p)` (R82). -/
def State.clkSrcSelect (s : State) (p : Port) : State :=
  (s.modPort p fun e => { e with clksel := true }).log .sequencer (.clkSrcSelect p)

/-- `ClkFreq(p)` (R82). -/
def State.clkFreq (s : State) (p : Port) : DrawnFreq :=
  let d := s.drawFreq p
  { d with state := d.state.log .sequencer (.clkFreq p d.freq) }

/-- `PinCfgAF(DESC[p].pin[d], DESC[p].af)` (R83). -/
def State.pinCfgAF (s : State) (p : Port) (d : Dir) : State :=
  (s.modPort p fun e => { e with pins := e.pins.set d (.altFn (Config.descOf p).af) }).log .sequencer
    (.pinCfgAF ((Config.descOf p).pin.get d) (Config.descOf p).af)

/-- `PinCfgAnalog(DESC[p].pin[d])` (R83). -/
def State.pinCfgAnalog (s : State) (p : Port) (d : Dir) : State :=
  (s.modPort p fun e => { e with pins := e.pins.set d .analog }).log .sequencer
    (.pinCfgAnalog ((Config.descOf p).pin.get d))

/-- `VecAttach(p)` (R84): a registration at the interrupt controller. -/
def State.vecAttach (s : State) (p : Port) : State :=
  (s.modPort p fun e => { e with vec := .attached }).log .sequencer (.vecAttach p)

/-- `VecDetach(p)` (R84). -/
def State.vecDetach (s : State) (p : Port) : State :=
  (s.modPort p fun e => { e with vec := .detached }).log .sequencer (.vecDetach p)

/-- What a configuration bit reads after a write of 1: 1, or under the cautious setting of U9 any value
where the peripheral was enabled (R85, log 20). -/
def State.configured (s : State) (p : Port) (k : Config.FreeBit) : Bool :=
  if s.build.reinitCautious && (s.port p).pe then Config.freeBit k s.draws else true

/-- `PeriphConfig(p)` (R85): the frame parameters, and both directions enabled. -/
def State.periphConfig (s : State) (p : Port) : State :=
  (s.regWrite p fun i => i.modPort p fun e =>
    { e with frame := s.configured p (.reinitFrame p), dirEn := ⟨true, true⟩ }).tick.log
    .sequencer (.periphConfig p)

/-- `FifoEnable(p)` (R85). -/
def State.fifoEnable (s : State) (p : Port) : State :=
  (s.regWrite p fun i => i.modPort p fun e =>
    { e with fifoEn := s.configured p (.reinitFifo p) }).tick.log .sequencer (.fifoEnable p)

/-- `AsyncMode(Usart)` (R85); the Lpuart has no such bit (10_state.md R39). -/
def State.asyncModeUsart (s : State) : State :=
  (s.regWrite .usart fun i =>
    { i with asyncMode := s.configured .usart .reinitAsync }).tick.log .sequencer (.asyncMode .usart)

/-- `PeriphEnable(p)` (R86). -/
def State.periphEnable (s : State) (p : Port) : State :=
  (s.regWrite p fun i => i.modPort p fun e => { e with pe := true }).log .sequencer (.periphEnable p)

/-- `PeriphDisable(p)` (R86). -/
def State.periphDisable (s : State) (p : Port) : State :=
  (s.regWrite p fun i => i.modPort p fun e => { e with pe := false }).log .sequencer (.periphDisable p)

/-- `PeriphIsEnabled(p)` (R86): asked of the hardware, not of DriverState (R62). -/
def State.periphIsEnabled (s : State) (p : Port) : Drawn :=
  (s.regQuery p (s.port p).pe).log .sequencer (.periphIsEnabled p)

/-- `DirEnable(p, d)` (R87; the enable operation `DESC[p].en[d]`). -/
def State.dirEnable (s : State) (p : Port) (d : Dir) : State :=
  (s.regWrite p fun i => i.modPort p fun e => { e with dirEn := e.dirEn.set d true }).log .sequencer
    (.dirEnable p d)

/-- `DirDisable(p, d)` (R87; the disable operation `DESC[p].dis[d]`). -/
def State.dirDisable (s : State) (p : Port) (d : Dir) : State :=
  (s.regWrite p fun i => i.modPort p fun e => { e with dirEn := e.dirEn.set d false }).log .sequencer
    (.dirDisable p d)

/-- `WriteData(p, b)` (R76, R95): the byte goes to the transmitter, and `txlog[p]` records it. -/
def State.writeData (s : State) (p : Port) (b : Byte) : State :=
  { s with trc :=
    { s.trc with
      primlog := s.trc.primlog ++ [⟨.sequencer, .writeData p b⟩]
      txlog := s.trc.txlog.set p (s.trc.txlog.get p ++ [b]) } }

/-- `SetPrescaler(p, v)` (R88). -/
def State.setPrescaler (s : State) (p : Port) (v : BitVec 6) : State :=
  (s.regWrite p fun i => i.modPort p fun e => { e with presc := v }).log .sequencer (.setPrescaler p v)

/-- `SetDivisor(p, v)` (R88). -/
def State.setDivisor (s : State) (p : Port) (v : Word) : State :=
  (s.regWrite p fun i => i.modPort p fun e => { e with div := v }).log .sequencer (.setDivisor p v)

/-- `RxneIrqEnable(p)` (R89). -/
def State.rxneIrqEnable (s : State) (p : Port) : State :=
  (s.regWrite p fun i => i.modPort p fun e => { e with rxneIe := true }).log .sequencer (.rxneIrqEnable p)

/-- `RxneIrqDisable(p)` (R89). -/
def State.rxneIrqDisable (s : State) (p : Port) : State :=
  (s.regWrite p fun i => i.modPort p fun e => { e with rxneIe := false }).log .sequencer
    (.rxneIrqDisable p)

/-- `ErrIrqDisable(p)` (R89). -/
def State.errIrqDisable (s : State) (p : Port) : State :=
  (s.regWrite p fun i => i.modPort p fun e => { e with errIe := false }).log .sequencer (.errIrqDisable p)

/-! ### Primitives a handler issues -/

/-- `FlagRXNE(p)` (R93). -/
def State.flagRxne (s : State) (p : Port) : Drawn :=
  (s.regQuery p (s.port p).rxne).log (.handler p) (.flagRXNE p)

/-- `FlagORE(p)` (R93). -/
def State.flagOre (s : State) (p : Port) : Drawn :=
  (s.regQuery p (s.port p).ore).log (.handler p) (.flagORE p)

/-- What `ReadData(p)` returns (R94); under the safe setting of U6 any byte. -/
def State.dataByte (s : State) (p : Port) : Byte :=
  if s.gated p then Config.freeByte (.gatedData p) s.draws else (s.port p).rdr

/-- `ReadData(p)` (R75, R94): after it RXNE is clear; ORE and the data register are unchanged. -/
def State.readData (s : State) (p : Port) : State :=
  (s.regWrite p fun i => i.modPort p fun e => { e with rxne := false }).tick.log (.handler p)
    (.readData p (s.dataByte p))

/-- `ClearORE(p)` (R77, R94). -/
def State.clearOre (s : State) (p : Port) : State :=
  (s.regWrite p fun i => i.modPort p fun e => { e with ore := false }).log (.handler p) (.clearORE p)

/-- `CbInvoke(c, b, x)` (R98, 43_receive.md R221): the callback port shows `(c, b, x)`, and `cblog` records
it with the port. -/
def State.cbInvoke (s : State) (p : Port) (c : Word) (b : Byte) (x : Word) : State :=
  { s with trc :=
    { s.trc with
      primlog := s.trc.primlog ++ [⟨.handler p, .cbInvoke c b x⟩]
      cblog := s.trc.cblog ++ [⟨p, c, b, x⟩] } }

/-! ### DriverState writes (10_state.md R27 to R29, R33) -/

/-- `was_enabled[p] <- v`. -/
def State.setWasEnabled (s : State) (p : Port) (v : Bool) : State :=
  s.modDrv p fun d => { d with wasEnabled := v }

/-- `cb[p] <- v`. -/
def State.setCb (s : State) (p : Port) (v : Word) : State := s.modDrv p fun d => { d with cb := v }

/-- `ctx[p] <- v`. -/
def State.setCtx (s : State) (p : Port) (v : Word) : State := s.modDrv p fun d => { d with ctx := v }

/-- `deinited[p] <- 1`. -/
def State.setDeinited (s : State) (p : Port) : State := s.modDrv p fun d => { d with deinited := true }

/-! ### Moves of the sequencer (30_encoding.md R121, R124) -/

/-- The outcome of one micro-step: a state, and whether the sequencer goes on in the same step of the
machine; or a stop of the model. -/
inductive Micro
  | run (s : State) (more : Bool)
  | stop (f : Fault)
  deriving DecidableEq, Repr

/-- Fall-through: `step <- step + 1` (R124 a). -/
def State.advance (s : State) : State :=
  s.modSeq fun q => { q with upc := { q.upc with step := q.upc.step + 1 } }

/-- `pc <- (op, k, idx)` of the same operation (R124). -/
def State.jump (s : State) (k : Nat) : State :=
  s.modSeq fun q => { q with upc := { q.upc with step := k } }

/-- `idx <- idx + 1` (42_transmit.md R200). -/
def State.nextIdx (s : State) : State :=
  s.modSeq fun q => { q with upc := { q.upc with idx := q.upc.idx + 1 } }

/-- `done` (R121): `busy <- 0`. -/
def State.done (s : State) : State := s.modSeq fun q => { q with busy := false }

/-- `done(v)` (R121): also the response. -/
def State.doneWith (s : State) (v : Word) : State :=
  s.modSeq fun q => { q with busy := false, resp := v, respValid := true }

/-- A micro-step that falls through to the next. -/
def Micro.next (s : State) : Micro := .run s.advance true

/-- A micro-step that ends the command. -/
def Micro.done (s : State) : Micro := .run s.done false

/-! ### The exception: taking it and leaving it -/

/-- `raise Fatal(reason)` (60_exceptions.md R261): the latch is set with its reason, and nothing else
changes: no primitive, no DriverState, `busy` stays 1, the header stays in `x[0]`. -/
def State.raiseFatal (s : State) (r : FatalReason) : State :=
  { s with blk := { s.blk with fatal := true, fatalReason := r.code } }

/-- The reset event (70_reset_and_hazards.md R300), the only way out of the faulted state: every element
takes its value of 10_state.md R47. The caller's waiting packets, the environment's listed answers, the
draw counter and the build are not the block's and stay (log 6). -/
def State.resetEvent (s : State) : State where
  blk := .reset (s.draws + 1)
  seq := .reset (s.draws + 1)
  ifc := .reset (s.draws + 1)
  trc := .reset
  world := s.world
  draws := s.draws + 1
  build := s.build

/-! ### What stands behind the abstract names -/

/-- The identifier a primitive passes to its collaborator (R61): the bus, the clock source or the vector
of the descriptor table. -/
def Prim.boundId : Prim → Option Word
  | .busEnable p | .busDisable p | .busIsEnabled p _ => some (Config.descOf p).bus
  | .clkSrcSelect p => some (Config.descOf p).clksrc
  | .vecAttach p | .vecDetach p => some (Config.descOf p).vec
  | _ => none

/-- The electrical settings a pin configuration stands for (R83). -/
inductive PinMode
  | alternatePushPull
  | analog
  deriving DecidableEq, Repr
inductive PinPull
  | up
  | none
  deriving DecidableEq, Repr
inductive PinSpeed
  | low
  | veryHigh
  deriving DecidableEq, Repr

/-- Mode, pull and speed of a configured pin (R61, R83); `ResetState` is neither (R302). -/
def PinCfg.electrical : PinCfg → Option (PinMode × PinPull × PinSpeed)
  | .altFn _ => some (.alternatePushPull, .up, .veryHigh)
  | .analog => some (.analog, .none, .low)
  | .resetState => none

/-- The frame parameters a port is programmed with (40_lifecycle.md R142), if it is. -/
def State.frameOf (s : State) (p : Port) : Option Config.Frame :=
  if (s.port p).frame then some (Config.frame p) else none

end Sys2Proof.Machine
end

