-- ==== Sys2Proof/Machine/Flags.lean ====
section
/-!
DEFINITION. The status flags (10_state.md R38): polls and wait micro-steps (20_memory.md R78, R92), the
branches on a query, the interrupt request and the entry condition (60_exceptions.md R269), and the
environment's arrival step (20_memory.md R93). The block has no condition codes.
-/

namespace Sys2Proof.Machine

/-- The primitive that polls a flag, with its result. -/
def pollPrim : Config.PollFlag → Port → Bool → Prim
  | .teack => .flagTEACK
  | .reack => .flagREACK
  | .tc => .flagTC
  | .txe => .flagTXE

/-- `wait F(p)` (R78): one poll. If it reads 1 it is recorded and the micro-step completes as `onSet` says;
if it reads 0 nothing changes but the draw, and the micro-step is taken again at a later step of the
machine. An answer that is a free value ends the machine's step either way (log 1). -/
def waitFlag (f : Config.PollFlag) (p : Port) (onSet : State → State) (more : Bool) (s : State) : Micro :=
  let d := s.drawBit (.poll f p)
  .run (if d.bit then onSet (d.state.log .sequencer (pollPrim f p true)) else d.state)
    (d.fed && d.bit && more)

/-- `wait FlagTEACK(p) and FlagREACK(p)` (R78): both flags in one poll, recorded as two entries
(10_state.md R48). -/
def waitAck (p : Port) (s : State) : Micro :=
  let t := s.drawBit (.poll .teack p)
  let r := t.state.drawBit (.poll .reack p)
  .run
    (if t.bit && r.bit then
      ((r.state.log .sequencer (.flagTEACK p true)).log .sequencer (.flagREACK p true)).advance
    else r.state)
    (t.fed && r.fed && (t.bit && r.bit))

/-- `if v = 0 then done`, else fall through, on the result of a query. -/
def doneUnless (d : Drawn) : Micro :=
  .run (if d.bit then d.state.advance else d.state.done) (d.fed && d.bit)

/-- The request of port `p` (R269): not a register but a function of the interface state (10_state.md R45). -/
def State.irqReq (s : State) (p : Port) : Bool :=
  (s.port p).rxneIe && ((s.port p).rxne || (s.port p).ore)

/-- Whether `Handler(p)` may be entered at a preemption point (R269). -/
def State.mayEnter (s : State) (p : Port) : Bool :=
  !s.blk.fatal && decide ((s.port p).vec = .attached) && (s.irqReq p || s.build.spuriousIrq)

/-- `Arrive(p, b)` (R93): the byte is stored if the receive register is free, else it is dropped and the
overrun flag is set. -/
def State.arrive (s : State) (p : Port) (b : Byte) : State :=
  s.modPort p fun e => if e.rxne then { e with ore := true } else { e with rxne := true, rdr := b }

end Sys2Proof.Machine
end

