-- ==== Sys2Proof/Machine/Operands.lean ====
section
/-!
DEFINITION. Operand forms: the checks of a handle and a direction (60_exceptions.md R263), the port and
direction they bind (00_scope.md R11), acceptance of a packet into the latches (30_encoding.md R118), and
the packet the latches hold.
-/

namespace Sys2Proof.Machine

/-! ### Handle and direction -/

/-- The tests of `Check(handle)` after the opcode tests, in their order (R263). -/
def handleFault (h : Hdr) : Option FatalReason :=
  if h.hv = false then some .nullHandle
  else if Config.nPorts ≤ h.port.toNat then some .portRange
  else none

/-- The tests of `Check(handle, dir)` after the opcode tests, in their order (R263). -/
def handleDirFault (h : Hdr) : Option FatalReason :=
  match handleFault h with
  | some r => some r
  | none => if Config.nDirs ≤ h.dir.toNat then some .dirRange else none

/-- The port a valid handle identifies (R11, R116). -/
def boundPort (h : Hdr) : Port := if h.port = 0 then .usart else .lpuart

/-- The direction a valid direction field names (R11, R116). -/
def boundDir (h : Hdr) : Dir := if h.dir = 0 then .tx else .rx

/-- The micro-program of an operation: step 1 is the check step, which raises or falls through (R263); the
later steps are `body`'s. A handle that fails the check binds no port, so it has no later step. -/
def checked (fault : Option FatalReason) (body : State → Micro) (s : State) : Micro :=
  match fault with
  | some r => if s.seq.upc.step = 1 then .run (s.raiseFatal r) false else .stop .noSuchMicroStep
  | none => if s.seq.upc.step = 1 then .next s else body s

/-- An operation of formats H, A, C, S: `Check(handle)`, `dir` ignored. -/
def withPort (h : Hdr) (body : Port → State → Micro) (s : State) : Micro :=
  checked (handleFault h) (body (boundPort h)) s

/-- An operation of format D: `Check(handle, dir)`. -/
def withPortDir (h : Hdr) (body : Port → Dir → State → Micro) (s : State) : Micro :=
  checked (handleDirFault h) (body (boundPort h) (boundDir h)) s

/-- The check step of a command after the opcode tests: format D also checks its direction (R263). -/
def instrFault (i : Instr) : Option FatalReason :=
  match i.op.format with
  | .D => handleDirFault i.hdr
  | .H => handleFault i.hdr
  | .A => handleFault i.hdr
  | .C => handleFault i.hdr
  | .S => handleFault i.hdr

/-- The number of the last micro-step of an operation (the step lists of the operation rules). -/
def lastStep : Op → Nat
  | .init => 19
  | .isBaudRateSupported => 2
  | .setBaudRate => 9
  | .deinit => 11
  | .suspend => 4
  | .resume => 4
  | .tx => 4
  | .txWaitComplete => 3
  | .setRxCallback => 5
  | .enableDirection => 3
  | .disableDirection => 3
  | .getGpioPin => 2

/-! ### Acceptance (R118) -/

/-- The first operand word of a packet, or a free value where the format carries none (10_state.md R21). -/
def Packet.arg0 (pk : Packet) (n : Nat) : Word :=
  match pk.args with
  | a :: _ => a
  | [] => Config.freeWord .unusedArg0 n

/-- The second operand word of a packet, or a free value where the format carries none (R21). -/
def Packet.arg1 (pk : Packet) (n : Nat) : Word :=
  match pk.args with
  | _ :: b :: _ => b
  | _ => Config.freeWord .unusedArg1 n

/-- The byte stream after acceptance: only a format S packet writes it (R118). -/
def acceptedBeats (pk : Packet) (old : List Byte) : List Byte :=
  match (selectRow pk.header).map OpRow.format with
  | some .S => pk.beats
  | _ => old

/-- Acceptance of a packet, in one step (R118): the latches, `busy`, `resp_valid` and `upc`; no primitive,
no DriverState. -/
def State.accept (s : State) (pk : Packet) : State :=
  (s.modSeq fun q =>
    { q with
      x0 := pk.header
      x1 := Packet.arg0 pk s.draws
      x2 := Packet.arg1 pk s.draws
      txbuf := acceptedBeats pk q.txbuf
      busy := true
      respValid := false
      upc := ⟨opField pk.header, 1, 0⟩ }).tick

/-- The packet the latches hold: as many operand words and beats as the latched header's format has. -/
def latched (q : Seq) : Packet :=
  match (selectRow q.x0).map OpRow.format with
  | none => ⟨q.x0, [], []⟩
  | some .H => ⟨q.x0, [], []⟩
  | some .D => ⟨q.x0, [], []⟩
  | some .A => ⟨q.x0, [q.x1], []⟩
  | some .C => ⟨q.x0, [q.x1, q.x2], []⟩
  | some .S => ⟨q.x0, [q.x1], q.txbuf⟩

end Sys2Proof.Machine
end

