-- ==== Sys2Proof/Machine/Burst.lean ====
section
/-!
DEFINITION. How the micro-steps of a command follow one another (30_encoding.md R124) inside one step of
the machine, and where the other agents come in between (60_exceptions.md R270). A burst is a run of whole
micro-steps of one command; it ends when the command ends, when a wait's flag reads 0, when an answer was
a free value, when the next preemption point belongs to another agent, or before a micro-step the model
stops on. Every preemption point of R270 is one: `turns` says what happens there (log 1).
-/

namespace Sys2Proof.Machine

/-- What a burst answers when its rest answers `o`: a stop is left to the next step of the machine, which
takes it from `s`, so that everything done before it is seen (log 12). -/
def orYield (s : State) (o : Host.Outcome State Fault Refusal) : Host.Outcome State Fault Refusal :=
  match o with
  | .next t => .next t
  | .fault _ => .next s
  | .refused _ => .next s

/-- At most `fuel` micro-steps of the micro-program `m`, the first at once, each later one at a preemption
point that is quiet. Running out of fuel leaves the command in flight, as a preemption does. -/
def burst (m : State → Micro) : Nat → State → Host.Outcome State Fault Refusal
  | 0, s => .next s
  | k + 1, s =>
    match m s with
    | .stop f => .fault f
    | .run t false => .next t
    | .run t true =>
      match t.world.turns with
      | [] => orYield t (burst m k t)
      | .quiet :: r => orYield t (burst m k { t with world := { t.world with turns := r } })
      | .arrive _ _ :: _ => .next t
      | .enter _ :: _ => .next t
      | .reset :: _ => .next t

/-- Fuel for an operation without a loop: the longest has 19 micro-steps (10_state.md R24). -/
def straightFuel : Nat := 20

/-- Fuel for the byte loop of `tx`: two micro-steps a byte (42_transmit.md R200). -/
def loopFuel (n : Nat) : Nat := 20 + 2 * n

/-- The micro-program of a packet that is no command: its check step raises `Fatal(IllegalCommand)`
(30_encoding.md R117, 60_exceptions.md R263) and it has no later step. -/
def microIllegal (s : State) : Micro := checked (some .illegalCommand) (fun _ => .stop .noSuchMicroStep) s

end Sys2Proof.Machine
end

