-- ==== Sys2Proof/Machine/Direction.lean ====
section
/-!
DEFINITION. The direction family (44_direction.md): `enable_direction` (R240), `disable_direction` (R241),
`get_gpio_pin` (R242).
-/

namespace Sys2Proof.Machine

/-- Micro-steps of `enable_direction` after the check (R240). -/
def microEnableDirection (p : Port) (d : Dir) (s : State) : Micro :=
  match s.seq.upc.step with
  | 2 => .next (s.dirEnable p d)
  | 3 => .done (s.pinCfgAF p d)
  | _ => .stop .noSuchMicroStep

/-- `enable_direction h, d` (R240). -/
def execEnableDirection (h : Hdr) (s : State) : Host.Outcome State Fault Refusal :=
  burst (withPortDir h microEnableDirection) straightFuel s

/-- Micro-steps of `disable_direction` after the check (R241). -/
def microDisableDirection (p : Port) (d : Dir) (s : State) : Micro :=
  match s.seq.upc.step with
  | 2 => .next (s.dirDisable p d)
  | 3 => .done (s.pinCfgAnalog p d)
  | _ => .stop .noSuchMicroStep

/-- `disable_direction h, d` (R241). -/
def execDisableDirection (h : Hdr) (s : State) : Host.Outcome State Fault Refusal :=
  burst (withPortDir h microDisableDirection) straightFuel s

/-- Micro-steps of `get_gpio_pin` after the check (R242). -/
def microGetGpioPin (p : Port) (d : Dir) (s : State) : Micro :=
  match s.seq.upc.step with
  | 2 => .run (s.doneWith ((Config.descOf p).pin.get d)) false
  | _ => .stop .noSuchMicroStep

/-- `get_gpio_pin h, d` (R242). -/
def execGetGpioPin (h : Hdr) (s : State) : Host.Outcome State Fault Refusal :=
  burst (withPortDir h microGetGpioPin) straightFuel s

end Sys2Proof.Machine
end

