-- ==== Sys2Proof/Machine/Baud.lean ====
section
/-!
DEFINITION. The baud-rate family (41_baud.md): the calculator (R172 to R179), `is_baud_rate_supported`
(R170) and `set_baud_rate` (R171), whose steps 2 to 9 `init` inlines (30_encoding.md R125).
-/

namespace Sys2Proof.Machine

/-- The prescaler choice (R172): `P` from the truncated quotient `f div baud`. -/
def prescalerFor (p : Port) (f baud : Nat) : BitVec 6 :=
  match p with
  | .usart => Config.prescLow
  | .lpuart => if Config.ratioMax < f / baud then Config.prescHigh else Config.prescLow

/-- `DIVISOR_FN(p, f, P, baud)` (R176), the default formula, exact in naturals (R174). PRESUMED by the spec
itself (G1); replaceable as a whole (log 15). -/
def divisorFn (p : Port) (f presc baud : Nat) : Nat :=
  match p with
  | .usart => (f / presc + baud / 2) / baud
  | .lpuart => (f / presc * 256 + baud / 2) / baud

/-- The divisor value (R176, R177): the formula's result where the register can hold it, else `free`, a
value nothing constrains (U3, log 14). -/
def divisorValue (p : Port) (f presc baud : Nat) (free : Word) : Word :=
  let q := divisorFn p f presc baud
  if Config.divMin p ≤ q ∧ q ≤ Config.divMax p then BitVec.ofNat 32 q else free

/-- What `BaudCalc` returns: prescaler and divisor. -/
structure BaudSetting where
  presc : BitVec 6
  div : Word
  deriving DecidableEq, Repr

/-- `BaudCalc(p, f, baud)` (R172): none where it raises `Unspecified(BaudZero)` (R178). -/
def baudCalc (p : Port) (f baud free : Word) : Option BaudSetting :=
  if baud = 0 then none
  else
    let presc := prescalerFor p f.toNat baud.toNat
    some ⟨presc, divisorValue p f.toNat presc.toNat baud.toNat free⟩

/-- The truth value of `is_baud_rate_supported` (R170): both bounds inclusive, unsigned. -/
def baudSupported (baud : Word) : Bool :=
  decide (Config.baudMin ≤ baud.toNat) && decide (baud.toNat ≤ Config.baudMax)

/-- Micro-steps of `is_baud_rate_supported` after the check (R170). -/
def microIsBaudRateSupported (baud : Word) (_p : Port) (s : State) : Micro :=
  match s.seq.upc.step with
  | 2 => .run (s.doneWith (if baudSupported baud then 1 else 0)) false
  | _ => .stop .noSuchMicroStep

/-- `is_baud_rate_supported h, baud` (R170). -/
def execIsBaudRateSupported (h : Hdr) (baud : Word) (s : State) : Host.Outcome State Fault Refusal :=
  burst (withPort h (microIsBaudRateSupported baud)) straightFuel s

/-- `(P, v) <- BaudCalc(p, f, baud)` on the frequency the micro-program holds (R171 step 6). -/
def calcStep (p : Port) (baud : Word) (s : State) : Micro :=
  match baudCalc p s.seq.loc.f baud (Config.freeWord (.divisor p) s.draws) with
  | none => .stop .baudZero
  | some b => .next (s.modLoc fun l => { l with presc := b.presc, div := b.div }).tick

/-- `f <- ClkFreq(p)` (R171 step 5). -/
def freqStep (p : Port) (s : State) : Micro :=
  let d := s.clkFreq p
  .next (d.state.modLoc fun l => { l with f := d.freq })

/-- `if p = Lpuart then SetPrescaler(p, P)` (R171 step 7, R179). -/
def prescStep (p : Port) (s : State) : Micro :=
  match p with
  | .usart => .next s
  | .lpuart => .next (s.setPrescaler .lpuart s.seq.loc.presc)

/-- Steps 2 to 9 of `set_baud_rate` (R171), by their number there. `skip` ends them at step 2 when the
peripheral is disabled, `fin` after step 9; each says whether the command goes on. -/
def baudSteps (p : Port) (baud : Word) (skip fin : State → State) (goOn : Bool) (k : Nat) (s : State) :
    Micro :=
  match k with
  | 2 =>
    let d := s.periphIsEnabled p
    .run (if d.bit then d.state.advance else skip d.state) (d.fed && (d.bit || goOn))
  | 3 => waitFlag .tc p State.advance true s
  | 4 => .next (s.periphDisable p)
  | 5 => freqStep p s
  | 6 => calcStep p baud s
  | 7 => prescStep p s
  | 8 => .next (s.setDivisor p s.seq.loc.div)
  | 9 => .run (fin (s.periphEnable p)) goOn
  | _ => .stop .noSuchMicroStep

/-- Micro-steps of `set_baud_rate` after the check (R171): both ends are `done`. -/
def microSetBaudRate (baud : Word) (p : Port) (s : State) : Micro :=
  baudSteps p baud State.done State.done false s.seq.upc.step s

/-- `set_baud_rate h, baud` (R171). -/
def execSetBaudRate (h : Hdr) (baud : Word) (s : State) : Host.Outcome State Fault Refusal :=
  burst (withPort h (microSetBaudRate baud)) straightFuel s

end Sys2Proof.Machine
end

