-- ==== Sys2Proof/Machine/Receive.lean ====
section
/-!
DEFINITION. The receive family (43_receive.md): `set_rx_callback` with its two paths (R215 to R217), and
the per-port interrupt handler (R218, R219), which is not an operation.
-/

namespace Sys2Proof.Machine

/-- Steps 2 to 5 of the null registration (R216), by their number; `deinit` inlines them (30_encoding.md
R125). `fin` follows step 5 and says with `goOn` whether the command goes on. -/
def nullRegSteps (p : Port) (fin : State → State) (goOn : Bool) (k : Nat) (s : State) : Micro :=
  match k with
  | 2 => .next (s.rxneIrqDisable p)
  | 3 => .next (s.vecDetach p)
  | 4 => .next (s.setCb p 0)
  | 5 => .run (fin (s.setCtx p 0)) goOn
  | _ => .stop .noSuchMicroStep

/-- Steps 2 to 5 of the non-null registration (R215); `CB_STORE_ORDER` orders steps 2 and 3. -/
def regSteps (p : Port) (callback context : Word) (k : Nat) (s : State) : Micro :=
  match k with
  | 2 =>
    match s.build.cbStoreOrder with
    | .cbThenCtx => .next (s.setCb p callback)
    | .ctxThenCb => .next (s.setCtx p context)
  | 3 =>
    match s.build.cbStoreOrder with
    | .cbThenCtx => .next (s.setCtx p context)
    | .ctxThenCb => .next (s.setCb p callback)
  | 4 => .next (s.vecAttach p)
  | 5 => .done (s.rxneIrqEnable p)
  | _ => .stop .noSuchMicroStep

/-- Micro-steps of `set_rx_callback` after the check (R217): the null path when the callback is 0. -/
def microSetRxCallback (callback context : Word) (p : Port) (s : State) : Micro :=
  if callback = 0 then nullRegSteps p State.done false s.seq.upc.step s
  else regSteps p callback context s.seq.upc.step s

/-- `set_rx_callback h, callback, context` (R217). -/
def execSetRxCallback (h : Hdr) (callback context : Word) (s : State) :
    Host.Outcome State Fault Refusal :=
  burst (withPort h (microSetRxCallback callback context)) straightFuel s

/-- Steps 2 and 3 of `Handler(p)` (R218): the byte is read once and handed to the registered callback. -/
def handlerDeliver (p : Port) (s : State) : Host.Outcome State Fault Refusal :=
  if (s.drv p).cb = 0 then .fault .nullCallback
  else .next ((s.readData p).cbInvoke p (s.drv p).cb (s.dataByte p) (s.drv p).ctx)

/-- Steps 4 and 5 of `Handler(p)` (R218): an overrun is cleared; with neither flag nothing is done. -/
def handlerOverrun (p : Port) (s : State) : State :=
  let o := s.flagOre p
  if o.bit then o.state.clearOre p else o.state

/-- One run of `Handler(p)` (R218), one indivisible transition (60_exceptions.md R271). -/
def handler (p : Port) (s : State) : Host.Outcome State Fault Refusal :=
  let r := s.flagRxne p
  if r.bit then handlerDeliver p r.state else .next (handlerOverrun p r.state)

/-- The interrupt controller's move (60_exceptions.md R269): the handler runs if it may be entered; an entry
that is not possible is no event (log 22). -/
def enterHandler (p : Port) (s : State) : Host.Outcome State Fault Refusal :=
  if s.mayEnter p then handler p s else .next s

end Sys2Proof.Machine
end

