-- ==== Sys2Proof/Machine/Lifecycle.lean ====
section
/-!
DEFINITION. The lifecycle family (40_lifecycle.md): `init` (R141), `deinit` (R143), `suspend` (R144),
`resume` (R145), and the classification `Life(p)` (R160).
-/

namespace Sys2Proof.Machine

/-- `if p = Usart then AsyncMode(p)` (R141 step 8): for the Lpuart the step issues nothing. -/
def asyncStep (p : Port) (s : State) : Micro :=
  match p with
  | .usart => .next s.asyncModeUsart
  | .lpuart => .next s

/-- Micro-steps of `init` after the check (R141). Steps 11 to 18 are steps 2 to 9 of `set_baud_rate`, both
ends leading to step 19. -/
def microInit (baud : Word) (p : Port) (s : State) : Micro :=
  match s.seq.upc.step with
  | 2 => .next (s.busEnable p)
  | 3 => .next (s.clkSrcSelect p)
  | 4 => .next (s.pinCfgAF p .tx)
  | 5 => .next (s.pinCfgAF p .rx)
  | 6 => .next (s.periphConfig p)
  | 7 => .next (s.fifoEnable p)
  | 8 => asyncStep p s
  | 9 => .next (s.periphEnable p)
  | 10 => waitAck p s
  | 11 => baudSteps p baud (·.jump 19) State.advance true 2 s
  | 12 => baudSteps p baud (·.jump 19) State.advance true 3 s
  | 13 => baudSteps p baud (·.jump 19) State.advance true 4 s
  | 14 => baudSteps p baud (·.jump 19) State.advance true 5 s
  | 15 => baudSteps p baud (·.jump 19) State.advance true 6 s
  | 16 => baudSteps p baud (·.jump 19) State.advance true 7 s
  | 17 => baudSteps p baud (·.jump 19) State.advance true 8 s
  | 18 => baudSteps p baud (·.jump 19) State.advance true 9 s
  | 19 => .done (s.errIrqDisable p)
  | _ => .stop .noSuchMicroStep

/-- `init h, baud` (R141). -/
def execInit (h : Hdr) (baud : Word) (s : State) : Host.Outcome State Fault Refusal :=
  burst (withPort h (microInit baud)) straightFuel s

/-- A query whose result the micro-program keeps for a later micro-step, then fall-through. -/
def keepQuery (d : Drawn) (keep : Locals → Locals) : Micro := .run (d.state.modLoc keep).advance d.fed

/-- Micro-steps of `deinit` after the check (R143). Steps 2 to 5 are those of the null registration. -/
def microDeinit (p : Port) (s : State) : Micro :=
  match s.seq.upc.step with
  | 2 => nullRegSteps p State.advance true 2 s
  | 3 => nullRegSteps p State.advance true 3 s
  | 4 => nullRegSteps p State.advance true 4 s
  | 5 => nullRegSteps p State.advance true 5 s
  | 6 => let d := s.busIsEnabled p; keepQuery d fun l => { l with g := d.bit }
  | 7 => .next (if s.seq.loc.g then s.busDisable p else s)
  | 8 => let d := s.periphIsEnabled p; keepQuery d fun l => { l with e := d.bit }
  | 9 => .next (if s.seq.loc.e then s.periphDisable p else s)
  | 10 => .next (s.pinCfgAnalog p .tx)
  | 11 => .done ((s.pinCfgAnalog p .rx).setDeinited p)
  | _ => .stop .noSuchMicroStep

/-- `deinit h` (R143). -/
def execDeinit (h : Hdr) (s : State) : Host.Outcome State Fault Refusal :=
  burst (withPort h microDeinit) straightFuel s

/-- Micro-steps of `suspend` after the check (R144). -/
def microSuspend (p : Port) (s : State) : Micro :=
  match s.seq.upc.step with
  | 2 => doneUnless (s.periphIsEnabled p)
  | 3 => .next (s.periphDisable p)
  | 4 => .done (s.setWasEnabled p true)
  | _ => .stop .noSuchMicroStep

/-- `suspend h` (R144). -/
def execSuspend (h : Hdr) (s : State) : Host.Outcome State Fault Refusal :=
  burst (withPort h microSuspend) straightFuel s

/-- Micro-steps of `resume` after the check (R145): it decides from DriverState alone. -/
def microResume (p : Port) (s : State) : Micro :=
  match s.seq.upc.step with
  | 2 => if (s.drv p).wasEnabled then .next s else .done s
  | 3 => .next (s.periphEnable p)
  | 4 => .done (s.setWasEnabled p false)
  | _ => .stop .noSuchMicroStep

/-- `resume h` (R145). -/
def execResume (h : Hdr) (s : State) : Host.Outcome State Fault Refusal :=
  burst (withPort h microResume) straightFuel s

/-- The lifecycle states of R160; the last is the row that R160 calls `Irregular` with stale flag. -/
inductive Life
  | uninitialized
  | deinitialized
  | enabled
  | suspended
  | enabledStale
  | downStale
  | disabled
  | irregular
  | irregularStale
  deriving DecidableEq, Repr

/-- The table of R160, over `busclk`, `pe`, `was_enabled` and the ghost bit. -/
def lifeOf (busclk pe wasEnabled deinited : Bool) : Life :=
  match busclk, pe, wasEnabled with
  | false, false, false => if deinited then .deinitialized else .uninitialized
  | true, true, false => .enabled
  | true, false, true => .suspended
  | true, true, true => .enabledStale
  | false, false, true => .downStale
  | true, false, false => .disabled
  | false, true, false => .irregular
  | false, true, true => .irregularStale

/-- `Life(p)` (R160). -/
def State.life (s : State) (p : Port) : Life :=
  lifeOf (s.port p).busclk (s.port p).pe (s.drv p).wasEnabled (s.drv p).deinited

end Sys2Proof.Machine
end

