-- ==== Sys2Proof/Machine/Transmit.lean ====
section
/-!
DEFINITION. The transmit family (42_transmit.md): `tx` (R200) and `tx_wait_complete` (R201).
-/

namespace Sys2Proof.Machine

/-- Step 4 of `tx` (R200): `WriteData(p, txbuf[idx]); idx <- idx + 1; if idx < n then pc <- (tx, 3, idx)
else done`. Step 4 is reached only with `idx < n`; elsewhere there is no such micro-step (log 11). -/
def writeStep (p : Port) (bytes : List Byte) (s : State) : Micro :=
  match bytes[s.seq.upc.idx]? with
  | none => .stop .noSuchMicroStep
  | some b =>
    let t := (s.writeData p b).nextIdx
    if t.seq.upc.idx < bytes.length then .run (t.jump 3) true else .done t

/-- Micro-steps of `tx` after the check (R200). -/
def microTx (bytes : List Byte) (p : Port) (s : State) : Micro :=
  match s.seq.upc.step with
  | 2 =>
    let d := s.periphIsEnabled p
    .run (if d.bit && decide (bytes.length ≠ 0) then d.state.advance else d.state.done)
      (d.fed && (d.bit && decide (bytes.length ≠ 0)))
  | 3 => waitFlag .txe p State.advance true s
  | 4 => writeStep p bytes s
  | _ => .stop .noSuchMicroStep

/-- `tx h, bytes` (R200). -/
def execTx (h : Hdr) (bytes : List Byte) (s : State) : Host.Outcome State Fault Refusal :=
  burst (withPort h (microTx bytes)) (loopFuel bytes.length) s

/-- Micro-steps of `tx_wait_complete` after the check (R201). -/
def microTxWaitComplete (p : Port) (s : State) : Micro :=
  match s.seq.upc.step with
  | 2 => doneUnless (s.periphIsEnabled p)
  | 3 => waitFlag .tc p State.done false s
  | _ => .stop .noSuchMicroStep

/-- `tx_wait_complete h` (R201). -/
def execTxWaitComplete (h : Hdr) (s : State) : Host.Outcome State Fault Refusal :=
  burst (withPort h microTxWaitComplete) straightFuel s

end Sys2Proof.Machine
end

