-- ==== Sys2Proof/Machine/Dispatch.lean ====
section
/-! DEFINITION. The meaning of each command, one arm per constructor. -/

namespace Sys2Proof.Machine

def exec (i : Instr) (s : State) : Host.Outcome State Fault Refusal :=
  match i with
  | .init h baud => Sys2Proof.Machine.execInit h baud s
  | .isBaudRateSupported h baud => Sys2Proof.Machine.execIsBaudRateSupported h baud s
  | .setBaudRate h baud => Sys2Proof.Machine.execSetBaudRate h baud s
  | .deinit h => Sys2Proof.Machine.execDeinit h s
  | .suspend h => Sys2Proof.Machine.execSuspend h s
  | .resume h => Sys2Proof.Machine.execResume h s
  | .tx h bytes => Sys2Proof.Machine.execTx h bytes s
  | .txWaitComplete h => Sys2Proof.Machine.execTxWaitComplete h s
  | .setRxCallback h callback context => Sys2Proof.Machine.execSetRxCallback h callback context s
  | .enableDirection h => Sys2Proof.Machine.execEnableDirection h s
  | .disableDirection h => Sys2Proof.Machine.execDisableDirection h s
  | .getGpioPin h => Sys2Proof.Machine.execGetGpioPin h s

end Sys2Proof.Machine
end

