-- ==== Sys2Proof/Machine/Turn.lean ====
section
/-!
DEFINITION. The agents' turns: the sequencer resuming a latched command or accepting a packet
(30_encoding.md R118 to R120), and the move at a preemption point (60_exceptions.md R270).
-/

namespace Sys2Proof.Machine

/-- The sequencer takes the next micro-steps of the command in its latches. -/
def runLatched (s : State) : Host.Outcome State Fault Refusal :=
  if s.seq.upc.op ≠ opField s.seq.x0 then .fault .noSuchMicroStep
  else
    match decode (latched s.seq) with
    | .ok i => exec i s
    | .error .illegalCommand => burst microIllegal straightFuel s
    | .error .badLength => .refused .malformedPacket

/-- The state with its preemption points replaced. -/
def State.withTurns (s : State) (r : List Turn) : State := { s with world := { s.world with turns := r } }

/-- After acceptance comes a preemption point (R270); if no other agent moves there, the command begins. -/
def beginAccepted (s : State) : Host.Outcome State Fault Refusal :=
  match s.world.turns with
  | [] => runLatched s
  | .quiet :: r => runLatched (s.withTurns r)
  | .arrive _ _ :: _ => .next s
  | .enter _ :: _ => .next s
  | .reset :: _ => .next s

/-- The command port takes the packet the caller presents (R118). -/
def acceptPacket (pk : Packet) (rest : List Packet) (s : State) : State :=
  ({ s with world := { s.world with cmds := rest } } : State).accept pk

/-- The sequencer's turn: nothing while faulted (60_exceptions.md R264); else the command in flight goes on;
else the next packet is accepted and begins; else nothing happens (log 23). -/
def sequencerTurn (s : State) : Host.Outcome State Fault Refusal :=
  if s.blk.fatal then .next s
  else if s.seq.busy then runLatched s
  else
    match s.world.cmds with
    | [] => .next s
    | pk :: rest =>
      match decode pk with
      | .error .badLength => .refused .malformedPacket
      | .error .illegalCommand => beginAccepted (acceptPacket pk rest s)
      | .ok _ => beginAccepted (acceptPacket pk rest s)

/-- One move of the whole machine: the agent the next preemption point names, else the sequencer. -/
def move (s : State) : Host.Outcome State Fault Refusal :=
  match s.world.turns with
  | [] => sequencerTurn s
  | .quiet :: r => sequencerTurn (s.withTurns r)
  | .arrive p b :: r => .next ((s.withTurns r).arrive p b)
  | .enter p :: r => enterHandler p (s.withTurns r)
  | .reset :: r => .next (s.withTurns r).resetEvent

/-- The state in which the sequencer's next step accepts `pk` and begins it: the packet is first at the
command port, the sequencer is idle and not faulted, and no other agent moves first. -/
def State.present (s : State) (pk : Packet) : State :=
  { s with
    world := { s.world with cmds := pk :: s.world.cmds, turns := [] }
    seq := { s.seq with busy := false }
    blk := { s.blk with fatal := false } }

end Sys2Proof.Machine
end

