-- ==== Sys2Proof/Machine/Step.lean ====
section
/-! DEFINITION. One step of the machine, and the placing of an opcode-table word before it (log 7). -/

namespace Sys2Proof.Machine

/-- One step: the move of the agent whose turn it is. -/
def step (s : State) : Host.Outcome State Fault Refusal := move s

/-- The state whose next step accepts and runs the opcode-table word `w` of `nbits` bits. -/
def State.withFetchWord (s : State) (nbits w : Nat) : State := s.present (tablePacket nbits w)

end Sys2Proof.Machine
end

