-- ==== Sys2Proof/Safety.lean ====
section
/-!
DEFINITION. The terms in which claims speak of a run: the settings a claim names, the start of a command,
the invariants of the machine, the lifecycle table of 40_lifecycle.md R162, and the final states of
70_reset_and_hazards.md R317.
-/

namespace Sys2Proof.Machine

/-- The build has the reference settings of U6 and U9: the environment is exactly that of 20_memory.md R81
to R98. Claims about the interface state name this premise (R80, R314). -/
abbrev State.reference (s : State) : Prop :=
  s.build.gatedSafe = false ∧ s.build.reinitCautious = false

/-- The command has been accepted and its check step is next, and only the sequencer moves from here on. -/
abbrev State.atStart (s : State) (i : Instr) : Prop :=
  s.seq.busy = true ∧ s.blk.fatal = false ∧ s.seq.upc = ⟨i.op.code, 1, 0⟩ ∧ s.world.turns = []

/-- The command in flight, if there is one and the block is not faulted. -/
def State.inFlight (s : State) : Option Instr :=
  if s.seq.busy = true ∧ s.blk.fatal = false then
    match decode (latched s.seq) with
    | .ok i => some i
    | .error _ => none
  else none

/-! ### Invariants -/

/-- Where a registration stands: what the command in flight has already made true of its port. -/
def regPhase (i : Instr) (s : State) : Prop :=
  match i with
  | .setRxCallback h c _ =>
    if c = 0 then
      s.seq.upc.step = 4 ∨ s.seq.upc.step = 5 → (s.port (boundPort h)).vec = .detached
    else
      s.seq.upc.step = 4 ∨ (s.seq.upc.step = 3 ∧ s.build.cbStoreOrder = .cbThenCtx) →
        (s.drv (boundPort h)).cb ≠ 0
  | .deinit h =>
    s.seq.upc.step = 4 ∨ s.seq.upc.step = 5 → (s.port (boundPort h)).vec = .detached
  | .init _ _ => True
  | .isBaudRateSupported _ _ => True
  | .setBaudRate _ _ => True
  | .suspend _ => True
  | .resume _ => True
  | .tx _ _ => True
  | .txWaitComplete _ => True
  | .enableDirection _ => True
  | .disableDirection _ => True
  | .getGpioPin _ => True

/-- The registration invariant (10_state.md R32): an attached handler has a callback; with what the command
in flight has established, so that it is kept by every step. -/
def State.registrationInv (s : State) : Prop :=
  (∀ p, (s.port p).vec = .attached → (s.drv p).cb ≠ 0) ∧
    ∀ i, s.inFlight = some i → regPhase i s

/-- The byte index of a `tx` in flight (42_transmit.md R200). -/
def idxOk (i : Instr) (u : Upc) : Prop :=
  match i with
  | .tx _ bytes => (u.step ≤ 2 → u.idx = 0) ∧ (3 ≤ u.step → u.idx < bytes.length)
  | .init _ _ => True
  | .isBaudRateSupported _ _ => True
  | .setBaudRate _ _ => True
  | .deinit _ => True
  | .suspend _ => True
  | .resume _ => True
  | .txWaitComplete _ => True
  | .setRxCallback _ _ _ => True
  | .enableDirection _ => True
  | .disableDirection _ => True
  | .getGpioPin _ => True

/-- The micro-program counter invariant (10_state.md R24): while a command is in flight `upc` names its
operation and one of its micro-steps, past the check step only if the check passes; and a faulted block
still holds the command that faulted (60_exceptions.md R261). -/
def State.upcInv (s : State) : Prop :=
  (s.blk.fatal = true → s.seq.busy = true) ∧
  (s.seq.busy = true → s.blk.fatal = false →
    s.seq.upc.op = opField s.seq.x0 ∧
    match decode (latched s.seq) with
    | .ok i =>
      1 ≤ s.seq.upc.step ∧ s.seq.upc.step ≤ lastStep i.op ∧
        (1 < s.seq.upc.step → instrFault i = none) ∧ idxOk i s.seq.upc
    | .error .illegalCommand => s.seq.upc.step = 1
    | .error .badLength => False)

/-- The prescaler values of the calculator (41_baud.md R172). -/
abbrev prescLegal (v : BitVec 6) : Prop := v = Config.prescLow ∨ v = Config.prescHigh

/-- Where a baud change stands: the prescaler the micro-program carries is legal when it is used. -/
def prescPhase (i : Instr) (s : State) : Prop :=
  match i with
  | .setBaudRate _ _ => s.seq.upc.step = 7 → prescLegal s.seq.loc.presc
  | .init _ _ => s.seq.upc.step = 16 → prescLegal s.seq.loc.presc
  | .isBaudRateSupported _ _ => True
  | .deinit _ => True
  | .suspend _ => True
  | .resume _ => True
  | .tx _ _ => True
  | .txWaitComplete _ => True
  | .setRxCallback _ _ _ => True
  | .enableDirection _ => True
  | .disableDirection _ => True
  | .getGpioPin _ => True

/-- The prescaler invariant (10_state.md R39, 41_baud.md R172, R179): the Usart's is the constant 1, the
Lpuart's is 1 or 32. -/
def State.prescInv (s : State) : Prop :=
  (s.port .usart).presc = Config.prescLow ∧ prescLegal (s.port .lpuart).presc ∧
    ∀ i, s.inFlight = some i → prescPhase i s

/-- The primitives the sequencer has issued, oldest first (10_state.md R48). -/
def State.issued (s : State) : List Prim :=
  s.trc.primlog.filterMap fun e =>
    match e.issuer with
    | .sequencer => some e.prim
    | .handler _ => none

/-- A prescaler or divisor write of port `p`. -/
def Prim.isBaudWrite (p : Port) : Prim → Prop
  | .setPrescaler q _ => q = p
  | .setDivisor q _ => q = p
  | _ => False

/-- The sequencer's last primitives are a poll of TC that read 1, the disable, the frequency query and at
most a prescaler write, one right after the other (41_baud.md R171 steps 3 to 7; R173). -/
def waited (p : Port) (l : List Prim) : Prop :=
  (∃ f, [.flagTC p true, .periphDisable p, .clkFreq p f] <:+ l) ∨
    ∃ f v, [.flagTC p true, .periphDisable p, .clkFreq p f, .setPrescaler p v] <:+ l

/-- Where a baud change of port `p` stands: what it has issued last before its step `k`, as numbered in
41_baud.md R171. -/
structure BaudPhase (p : Port) (k : Nat) (s : State) : Prop where
  polled : k = 4 → [.flagTC p true] <:+ s.issued
  disabled : k = 5 → [.flagTC p true, .periphDisable p] <:+ s.issued
  measured : k = 6 ∨ k = 7 → [.flagTC p true, .periphDisable p, .clkFreq p s.seq.loc.f] <:+ s.issued
  writing : k = 8 → waited p s.issued
  written : k = 9 → ∃ l, s.issued = l ++ [.setDivisor p s.seq.loc.div] ∧ waited p l

/-- The step of a baud change the command in flight is at; steps 11 to 18 of `init` are steps 2 to 9 of
`set_baud_rate` (30_encoding.md R125). -/
def baudPhase (i : Instr) (s : State) : Prop :=
  match i with
  | .setBaudRate h _ => BaudPhase (boundPort h) s.seq.upc.step s
  | .init h _ => BaudPhase (boundPort h) (s.seq.upc.step - 9) s
  | .isBaudRateSupported _ _ => True
  | .deinit _ => True
  | .suspend _ => True
  | .resume _ => True
  | .tx _ _ => True
  | .txWaitComplete _ => True
  | .setRxCallback _ _ _ => True
  | .enableDirection _ => True
  | .disableDirection _ => True
  | .getGpioPin _ => True

/-- In what has been issued, every prescaler or divisor write comes right after the wait, the disable and the
query of the same change (41_baud.md R173). -/
def baudWritesOrdered (issued : List Prim) : Prop :=
  ∀ p l x m, issued = l ++ x :: m → Prim.isBaudWrite p x → waited p l

/-- The ordering invariant (41_baud.md R173), of all the sequencer has issued, with what the change in flight
has issued. -/
def State.baudOrderInv (s : State) : Prop :=
  baudWritesOrdered s.issued ∧ ∀ i, s.inFlight = some i → baudPhase i s

/-- The byte a log entry writes to the transmitter of port `p`, if it does. -/
def LogEntry.written (p : Port) (e : LogEntry) : Option Byte :=
  match e.prim with
  | .writeData q b => if q = p then some b else none
  | _ => none

/-- The callback invocation a log entry is, if it is one. -/
def LogEntry.called (e : LogEntry) : Option CbEntry :=
  match e.issuer, e.prim with
  | .handler p, .cbInvoke c b x => some ⟨p, c, b, x⟩
  | _, _ => none

/-- The trace invariant (10_state.md R48, 70_reset_and_hazards.md R317): `txlog[p]` is the projection of
`primlog` on `WriteData(p, _)`, and `cblog` its projection on the callback invocations. -/
def State.traceInv (s : State) : Prop :=
  (∀ p, s.trc.txlog.get p = s.trc.primlog.filterMap (LogEntry.written p)) ∧
    s.trc.cblog = s.trc.primlog.filterMap LogEntry.called

/-- A `SetPrescaler(Usart, _)` entry (41_baud.md R179 says there is none). -/
def LogEntry.isUsartPrescaler (e : LogEntry) : Bool :=
  match e.prim with
  | .setPrescaler .usart _ => true
  | _ => false

/-! ### Lifecycle -/

/-- The four lifecycle commands. -/
inductive LifeCmd
  | init
  | deinit
  | suspend
  | resume
  deriving DecidableEq, Repr

/-- The peripheral enable of port `p` as it stands between commands: a baud change in flight past its query
has found it 1 and gives it back as 1 (41_baud.md R171). -/
def State.restingPe (s : State) (p : Port) : Bool :=
  match s.inFlight with
  | some (.setBaudRate h _) =>
    if boundPort h = p ∧ 3 ≤ s.seq.upc.step ∧ s.seq.upc.step ≤ 9 then true else (s.port p).pe
  | _ => (s.port p).pe

/-- `Life(p)` of 40_lifecycle.md R160 with that enable: with no baud change in flight it is `Life(p)`. -/
def State.restingLife (s : State) (p : Port) : Life :=
  lifeOf (s.port p).busclk (s.restingPe p) (s.drv p).wasEnabled (s.drv p).deinited

/-- The command whose micro-steps the sequencer's next turn takes: the one in flight, or the next packet's. -/
def State.running (s : State) (i : Instr) : Prop :=
  s.inFlight = some i ∨
    (s.seq.busy = false ∧ ∃ pk rest, s.world.cmds = pk :: rest ∧ decode pk = .ok i)

/-- The command on a handle; `init` takes a baud. -/
def LifeCmd.instr (c : LifeCmd) (h : Hdr) (baud : Word) : Instr :=
  match c with
  | .init => .init h baud
  | .deinit => .deinit h
  | .suspend => .suspend h
  | .resume => .resume h

/-- The transition table of R162; none for the two states that have no row there. -/
def lifeAfter : LifeCmd → Life → Option Life
  | .init, .uninitialized => some .enabled
  | .init, .deinitialized => some .enabled
  | .init, .enabled => some .enabled
  | .init, .suspended => some .enabledStale
  | .init, .enabledStale => some .enabledStale
  | .init, .downStale => some .enabledStale
  | .init, .irregular => some .enabled
  | .deinit, .uninitialized => some .deinitialized
  | .deinit, .deinitialized => some .deinitialized
  | .deinit, .enabled => some .deinitialized
  | .deinit, .suspended => some .downStale
  | .deinit, .enabledStale => some .downStale
  | .deinit, .downStale => some .downStale
  | .deinit, .irregular => some .deinitialized
  | .suspend, .uninitialized => some .uninitialized
  | .suspend, .deinitialized => some .deinitialized
  | .suspend, .enabled => some .suspended
  | .suspend, .suspended => some .suspended
  | .suspend, .enabledStale => some .suspended
  | .suspend, .downStale => some .downStale
  | .suspend, .irregular => some .downStale
  | .resume, .uninitialized => some .uninitialized
  | .resume, .deinitialized => some .deinitialized
  | .resume, .enabled => some .enabled
  | .resume, .suspended => some .enabled
  | .resume, .enabledStale => some .enabled
  | .resume, .downStale => some .irregular
  | .resume, .irregular => some .irregular
  | _, .disabled => none
  | _, .irregularStale => none

/-! ### Logs and reset values -/

/-- Primitives as the sequencer's log entries. -/
def sequencerEntries (l : List Prim) : List LogEntry := l.map (⟨.sequencer, ·⟩)

/-- Primitives as the log entries of the handler of port `p`. -/
def handlerEntries (p : Port) (l : List Prim) : List LogEntry := l.map (⟨.handler p, ·⟩)

/-- The reset values of one port that 10_state.md R47 gives. -/
structure PortAtReset (e : PortEnv) (d : Driver) : Prop where
  busclk : e.busclk = false
  clksel : e.clksel = false
  pe : e.pe = false
  dirEn : e.dirEn = ⟨false, false⟩
  frame : e.frame = false
  fifoEn : e.fifoEn = false
  rxneIe : e.rxneIe = false
  presc : e.presc = 1
  vec : e.vec = .detached
  pins : e.pins = ⟨.resetState, .resetState⟩
  rxne : e.rxne = false
  ore : e.ore = false
  wasEnabled : d.wasEnabled = false
  cb : d.cb = 0
  ctx : d.ctx = 0
  deinited : d.deinited = false

/-- The reset values that 10_state.md R47 gives; the elements it leaves unspecified are not named. -/
structure AtReset (s : State) : Prop where
  busy : s.seq.busy = false
  fatal : s.blk.fatal = false
  respValid : s.seq.respValid = false
  txbuf : s.seq.txbuf = []
  asyncMode : s.ifc.asyncMode = false
  ports : ∀ p, PortAtReset (s.port p) (s.drv p)
  primlog : s.trc.primlog = []
  txlog : ∀ p, s.trc.txlog.get p = []
  cblog : s.trc.cblog = []

/-- The answer `f` of a `ClkFreq(p)` read is what the build or the environment says, where either does. -/
structure FreqGiven (s : State) (p : Port) (f : Word) : Prop where
  constant : ∀ c, s.build.fClk.get p = some c → f = c
  listed : s.build.fClk.get p = none → ∀ c r, s.world.freqs = c :: r → f = c

/-- `v` is the divisor value of the calculator wherever the register can hold it (41_baud.md R176). -/
def DivisorGiven (p : Port) (f baud v : Word) : Prop :=
  let q := divisorFn p f.toNat (prescalerFor p f.toNat baud.toNat).toNat baud.toNat
  Config.divMin p ≤ q → q ≤ Config.divMax p → v.toNat = q

/-! ### Runs -/

/-- A final state (R317): no command is left, none is in flight, the block is not faulted, and no interrupt
request is asserted. -/
def State.final (s : State) : Bool :=
  s.world.cmds.isEmpty && !s.seq.busy && !s.blk.fatal && !s.irqReq .usart && !s.irqReq .lpuart

/-- An outcome is safe if it is a next state: a run has a next state as long as no step is unsafe. -/
def safeOutcome (o : Host.Outcome State Fault Refusal) : Prop := ∃ t, o = .next t

end Sys2Proof.Machine
end

