-- ==== Sys2Proof/Certificates/Slice0/Obligations.lean ====
section
/-!
DEFINITION. The statements about the model, for the provers. Each docstring names the rules of spec/ it
formalises. "Reference" is the premise that the build has the reference settings of U6 and U9, under which
the environment is exactly that of 20_memory.md R81 to R98.
-/

open Sys2Proof Sys2Proof.Machine

/-! ### Encoding -/

/-- Header words written out from 30_encoding.md R112 and R113 (`op + 0x10 * hv + 0x20 * port + 0x80 * dir`)
decode to the command they stand for, one of each format. -/
def Obligations.WrittenOutPacketsDecode : Prop :=
  decode ⟨0x00000030, [0x00002580], []⟩ = .ok (.init ⟨true, 1, 0⟩ 9600) ∧
  decode ⟨0x00000014, [], []⟩ = .ok (.suspend ⟨true, 0, 0⟩) ∧
  decode ⟨0x00000016, [2], [0x48, 0x69]⟩ = .ok (.tx ⟨true, 0, 0⟩ [0x48, 0x69]) ∧
  decode ⟨0x00000018, [0x20000100, 0x0000CAFE], []⟩ =
    .ok (.setRxCallback ⟨true, 0, 0⟩ 0x20000100 0xCAFE) ∧
  decode ⟨0x000000B9, [], []⟩ = .ok (.enableDirection ⟨true, 1, 1⟩) ∧
  decode ⟨0x0000000C, [], []⟩ = .error .illegalCommand

/-- 30_encoding.md R110 to R115: decoding the packet of a well-formed command gives the command back, with
every operand at every value, the ignored `dir` field included. -/
def Obligations.DecodeOfEncodeIsTheCommand : Prop :=
  ∀ i : Instr, i.wf = true → decode (encode i) = .ok i

/-- 30_encoding.md R110 to R115: a packet that decodes is the packet of the command it decodes to, so no
bit of it is dropped and no command has two packets. -/
def Obligations.EncodeOfDecodeIsThePacket : Prop :=
  ∀ (pk : Packet) (i : Instr), decode pk = .ok i → i.wf = true ∧ encode i = pk

/-- 30_encoding.md R113: a header selects a row exactly when its masked value is the row's pattern. -/
def Obligations.HeaderSelectsItsRow : Prop :=
  ∀ (header : Word) (r : OpRow), r ∈ opcodeTable →
    (selectRow header = some r ↔ header &&& r.mask = r.pattern)

/-- 30_encoding.md R117: the headers that select no operation are those with `op` in 12 to 15 or `rsv` not
0. -/
def Obligations.ReservedHeadersSelectNothing : Prop :=
  ∀ header : Word, selectRow header = none ↔ 12 ≤ (opField header).toNat ∨ rsvField header ≠ 0

/-! ### The step -/

/-- 30_encoding.md R118 to R120: an idle block with a packet at its port accepts it and runs the command it
decodes to; the latches then hold that command. -/
def Obligations.StepRunsTheAcceptedCommand : Prop :=
  ∀ (s : State) (pk : Packet) (rest : List Packet) (i : Instr),
    s.blk.fatal = false → s.seq.busy = false → s.world.turns = [] → s.world.cmds = pk :: rest →
    decode pk = .ok i →
    step s = exec i (acceptPacket pk rest s) ∧
      decode (latched (acceptPacket pk rest s).seq) = .ok i ∧
      (acceptPacket pk rest s).atStart i

/-- 30_encoding.md R124, 60_exceptions.md R272: a command in flight is resumed from its latches, at the
`upc` it had. -/
def Obligations.StepResumesTheLatchedCommand : Prop :=
  ∀ (s : State) (i : Instr),
    s.blk.fatal = false → s.seq.busy = true → s.seq.upc.op = opField s.seq.x0 →
    decode (latched s.seq) = .ok i →
    (s.world.turns = [] → step s = exec i s) ∧
    (∀ r, s.world.turns = .quiet :: r → step s = exec i (s.withTurns r))

/-- 30_encoding.md R118: acceptance, seen alone when another agent moves at the preemption point after it
(60_exceptions.md R270): the latches, `busy`, `resp_valid`, `upc`, and nothing of the block's own state,
the interface or the traces. That the step ends there is the model's burst granularity (log 1). -/
def Obligations.AcceptanceWritesOnlyTheLatches : Prop :=
  ∀ (s : State) (pk : Packet) (rest : List Packet) (i : Instr) (a : Turn) (r : List Turn),
    s.blk.fatal = false → s.seq.busy = false → s.world.turns = .quiet :: a :: r → a ≠ .quiet →
    s.world.cmds = pk :: rest → decode pk = .ok i →
    ∃ t, step s = .next t ∧
      t.seq.x0 = pk.header ∧
      (∀ w, pk.args.head? = some w → t.seq.x1 = w) ∧
      (∀ v w, pk.args = [v, w] → t.seq.x2 = w) ∧
      (i.op.format = .S → t.seq.txbuf = pk.beats) ∧
      t.seq.busy = true ∧ t.seq.respValid = false ∧ t.seq.upc = ⟨opField pk.header, 1, 0⟩ ∧
      t.world.cmds = rest ∧ t.blk = s.blk ∧ t.ifc = s.ifc ∧ t.trc = s.trc

/-- 30_encoding.md R120: while a command is in flight or the block is faulted, no packet is taken from the
caller, whoever moves. That the reset event keeps the waiting packets too is the model's choice (log 6). -/
def Obligations.BusyOrFaultedPortTakesNothing : Prop :=
  ∀ s t : State, s.seq.busy = true ∨ s.blk.fatal = true → step s = .next t →
    t.world.cmds = s.world.cmds

/-! ### The fault -/

/-- 60_exceptions.md R263 (codes R262): the check step raises at the first test that fails and has no other
effect than the latch and its code; if none fails, `step <- 2` (seen alone when a handler entry comes next,
log 1). The last clause is the header the decoder refuses; it is tested first. -/
def Obligations.CheckStepRaisesAtTheFirstFailedTest : Prop :=
  ∀ s : State, s.seq.upc.step = 1 →
    (∀ i : Instr,
      (i.hdr.hv = false →
        exec i s = .next { s with blk := { s.blk with fatal := true, fatalReason := 1 } }) ∧
      (i.hdr.hv = true → 2 ≤ i.hdr.port.toNat →
        exec i s = .next { s with blk := { s.blk with fatal := true, fatalReason := 2 } }) ∧
      (i.hdr.hv = true → i.hdr.port.toNat < 2 → i.op.format = .D → 2 ≤ i.hdr.dir.toNat →
        exec i s = .next { s with blk := { s.blk with fatal := true, fatalReason := 3 } }) ∧
      (i.hdr.hv = true → i.hdr.port.toNat < 2 → (i.op.format = .D → i.hdr.dir.toNat < 2) →
        ∀ p r, s.world.turns = .enter p :: r → exec i s = .next s.advance)) ∧
    (s.blk.fatal = false → s.seq.busy = true → s.world.turns = [] →
      s.seq.upc.op = opField s.seq.x0 → 12 ≤ (opField s.seq.x0).toNat ∨ rsvField s.seq.x0 ≠ 0 →
      step s = .next { s with blk := { s.blk with fatal := true, fatalReason := 4 } })

/-- 60_exceptions.md R261: a command raises only at its step 1, and then changes nothing but the latch and
its reason. -/
def Obligations.OnlyTheCheckStepRaises : Prop :=
  ∀ (i : Instr) (s t : State), s.blk.fatal = false → exec i s = .next t → t.blk.fatal = true →
    s.seq.upc.step = 1 ∧ ∃ r, instrFault i = some r ∧ t = s.raiseFatal r

/-- 30_encoding.md R117: accepting a packet whose header selects no operation raises
`Fatal(IllegalCommand)` and has no other effect. That both fall in one step of the machine is log 1, what
the latches hold is log 9. -/
def Obligations.IllegalPacketRaisesIllegalCommand : Prop :=
  ∀ (s : State) (pk : Packet) (rest : List Packet),
    s.blk.fatal = false → s.seq.busy = false → s.world.turns = [] → s.world.cmds = pk :: rest →
    12 ≤ (opField pk.header).toNat ∨ rsvField pk.header ≠ 0 →
    step s = .next ((acceptPacket pk rest s).raiseFatal .illegalCommand) ∧
      (acceptPacket pk rest s).ifc = s.ifc ∧ (acceptPacket pk rest s).trc = s.trc ∧
      (acceptPacket pk rest s).blk = s.blk

/-- 60_exceptions.md R264: while faulted, neither the sequencer nor a handler takes a step and no packet is
taken; a byte arrival changes only its port's receive side; only reset leaves the state. That an agent which
may not move answers the same state is the model's choice (log 22, log 23). -/
def Obligations.FaultedBlockTakesNoStep : Prop :=
  ∀ s : State, s.blk.fatal = true →
    (s.world.turns = [] → step s = .next s) ∧
    (∀ r, s.world.turns = .quiet :: r → step s = .next (s.withTurns r)) ∧
    (∀ p r, s.world.turns = .enter p :: r → step s = .next (s.withTurns r)) ∧
    (∀ p b r, s.world.turns = .arrive p b :: r →
      step s = .next ((s.withTurns r).arrive p b)) ∧
    (∀ r, s.world.turns = .reset :: r → ∃ t, step s = .next t ∧ t.blk.fatal = false)

/-! ### Reset -/

/-- 10_state.md R47, 70_reset_and_hazards.md R300 to R302: the reset event may come in every state, faulted
and waiting ones included, and leaves every element the table gives a value at that value; so does
State.reset. That `txbuf` is empty is R22 and the model's choice (log 5): the table leaves it unspecified. -/
def Obligations.ResetBringsTheTableValues : Prop :=
  AtReset State.reset ∧
  ∀ (s : State) (r : List Turn), s.world.turns = .reset :: r → ∃ t, step s = .next t ∧ AtReset t

/-! ### Lifecycle -/

/-- 40_lifecycle.md R141, R142: `init` on a valid handle, when the acknowledge flags and TC read 1 and the
baud is not 0, completes; the log grows by its primitives in their order, the port's fields are as the
steps leave them, and DriverState and the other port are untouched. Formula and ranges of the divisor are
the spec's own presumption (log 15). Reference. -/
def Obligations.InitBringsThePortUp : Prop :=
  ∀ (s : State) (h : Hdr) (baud : Word) (rest : List Bool),
    s.atStart (.init h baud) → handleFault h = none → s.reference → baud ≠ 0 →
    s.world.polls = true :: true :: true :: rest →
    let p := boundPort h
    let af := (Config.descOf p).af
    ∃ t f v, exec (.init h baud) s = .next t ∧ FreqGiven s p f ∧ DivisorGiven p f baud v ∧
      t.seq.busy = false ∧ t.blk = s.blk ∧ t.world.polls = rest ∧
      t.port p =
        { s.port p with
          busclk := true, clksel := true, pins := ⟨.altFn af, .altFn af⟩, frame := true,
          dirEn := ⟨true, true⟩, fifoEn := true, pe := true, errIe := false, div := v,
          presc := if p = .lpuart then prescalerFor p f.toNat baud.toNat else (s.port p).presc } ∧
      t.port p.other = s.port p.other ∧
      t.ifc.asyncMode = (if p = .usart then true else s.ifc.asyncMode) ∧
      t.trc.txlog = s.trc.txlog ∧ t.trc.cblog = s.trc.cblog ∧
      t.trc.primlog = s.trc.primlog ++ sequencerEntries
        ([Prim.busEnable p, Prim.clkSrcSelect p, Prim.pinCfgAF ((Config.descOf p).pin.get .tx) af,
            Prim.pinCfgAF ((Config.descOf p).pin.get .rx) af, Prim.periphConfig p, Prim.fifoEnable p] ++
          (if p = .usart then [Prim.asyncMode p] else []) ++
          [Prim.periphEnable p, Prim.flagTEACK p true, Prim.flagREACK p true,
            Prim.periphIsEnabled p true, Prim.flagTC p true, Prim.periphDisable p,
            Prim.clkFreq p f] ++
          (if p = .lpuart then [Prim.setPrescaler p (prescalerFor p f.toNat baud.toNat)] else []) ++
          [Prim.setDivisor p v, Prim.periphEnable p, Prim.errIrqDisable p])

/-- 40_lifecycle.md R143: `deinit` on a valid handle completes whatever the port's state, with its steps'
primitives in order; steps 7 and 9 issue nothing where the query read 0. Reference. -/
def Obligations.DeinitTearsThePortDown : Prop :=
  ∀ (s : State) (h : Hdr),
    s.atStart (.deinit h) → handleFault h = none → s.reference →
    let p := boundPort h
    ∃ t, exec (.deinit h) s = .next t ∧ t.seq.busy = false ∧ t.blk.fatal = false ∧
      t.port p =
        { s.port p with
          rxneIe := false, vec := .detached, busclk := false, pe := false,
          pins := ⟨.analog, .analog⟩ } ∧
      t.drv p = { s.drv p with cb := 0, ctx := 0, deinited := true } ∧
      t.port p.other = s.port p.other ∧ t.drv p.other = s.drv p.other ∧
      t.ifc.asyncMode = s.ifc.asyncMode ∧ t.trc.txlog = s.trc.txlog ∧ t.trc.cblog = s.trc.cblog ∧
      t.trc.primlog = s.trc.primlog ++ sequencerEntries
        ([Prim.rxneIrqDisable p, Prim.vecDetach p, Prim.busIsEnabled p (s.port p).busclk] ++
          (if (s.port p).busclk then [Prim.busDisable p] else []) ++
          [Prim.periphIsEnabled p (s.port p).pe] ++
          (if (s.port p).pe then [Prim.periphDisable p] else []) ++
          [Prim.pinCfgAnalog ((Config.descOf p).pin.get .tx),
            Prim.pinCfgAnalog ((Config.descOf p).pin.get .rx)])

/-- 40_lifecycle.md R144: `suspend` on a valid handle completes; enabled, it disables the peripheral and
sets the flag; disabled, it issues one query and leaves the flag as it is. Reference. -/
def Obligations.SuspendDisablesAndRemembers : Prop :=
  ∀ (s : State) (h : Hdr),
    s.atStart (.suspend h) → handleFault h = none → s.reference →
    let p := boundPort h
    ∃ t, exec (.suspend h) s = .next t ∧ t.seq.busy = false ∧ t.blk.fatal = false ∧
      t.port p = { s.port p with pe := false } ∧
      t.drv p = (if (s.port p).pe then { s.drv p with wasEnabled := true } else s.drv p) ∧
      t.port p.other = s.port p.other ∧ t.drv p.other = s.drv p.other ∧
      t.ifc.asyncMode = s.ifc.asyncMode ∧ t.trc.txlog = s.trc.txlog ∧ t.trc.cblog = s.trc.cblog ∧
      t.trc.primlog = s.trc.primlog ++ sequencerEntries
        (if (s.port p).pe then [.periphIsEnabled p true, .periphDisable p]
          else [.periphIsEnabled p false])

/-- 40_lifecycle.md R146: `suspend` is idempotent. The second of two, accepted after the first completes,
ends at step 2: one query that reads 0, no write, and the flag stays as it is, which is 1 if the first one
disabled. That `upc` still names step 2 after `done` is the model's choice (log 25). Reference. -/
def Obligations.SuspendTwiceDisablesOnce : Prop :=
  ∀ (s t : State) (h : Hdr),
    s.atStart (.suspend h) → handleFault h = none → s.reference →
    exec (.suspend h) s = .next t →
    ∃ u, exec (.suspend h) (t.accept (encode (.suspend h))) = .next u ∧ u.seq.busy = false ∧
      u.seq.upc.step = 2 ∧ u.ifc = t.ifc ∧ u.blk = t.blk ∧
      ((s.port (boundPort h)).pe = true → (u.drv (boundPort h)).wasEnabled = true) ∧
      u.trc.primlog = t.trc.primlog ++ sequencerEntries [.periphIsEnabled (boundPort h) false]

/-- 40_lifecycle.md R145: `resume` on a valid handle completes; with the flag set it enables the peripheral
and clears the flag, with the flag clear it does nothing. It issues no query. Reference. -/
def Obligations.ResumeEnablesAndClearsTheFlag : Prop :=
  ∀ (s : State) (h : Hdr),
    s.atStart (.resume h) → handleFault h = none → s.reference →
    let p := boundPort h
    ∃ t, exec (.resume h) s = .next t ∧ t.seq.busy = false ∧ t.blk.fatal = false ∧
      t.port p = (if (s.drv p).wasEnabled then { s.port p with pe := true } else s.port p) ∧
      t.drv p = { s.drv p with wasEnabled := false } ∧
      t.port p.other = s.port p.other ∧ t.drv p.other = s.drv p.other ∧
      t.ifc.asyncMode = s.ifc.asyncMode ∧ t.trc.txlog = s.trc.txlog ∧ t.trc.cblog = s.trc.cblog ∧
      t.trc.primlog = s.trc.primlog ++ sequencerEntries
        (if (s.drv p).wasEnabled then [.periphEnable p] else [])

/-- 40_lifecycle.md R147: after every `resume` that completes, from whatever micro-step it is taken up and
in whatever build, the flag of its port is 0; and one that finds the flag clear issues no primitive and
changes no interface state. That `upc` still names step 2 after `done` is the model's choice (log 25). -/
def Obligations.CompletedResumeLeavesTheFlagClear : Prop :=
  ∀ (s t : State) (h : Hdr),
    handleFault h = none → s.seq.busy = true → exec (.resume h) s = .next t → t.seq.busy = false →
    (t.drv (boundPort h)).wasEnabled = false ∧
    (s.seq.upc.step ≤ 2 → (s.drv (boundPort h)).wasEnabled = false →
      t.ifc = s.ifc ∧ t.trc = s.trc ∧ t.seq.upc.step = 2)

/-- 40_lifecycle.md R148: `suspend` then `resume` on an enabled port ends with the interface state as it was,
with DriverState as it was but for a flag that was set before, which is cleared (R147), and issues exactly
the three primitives named. Reference. -/
def Obligations.SuspendThenResumeRestores : Prop :=
  ∀ (s : State) (h : Hdr),
    s.atStart (.suspend h) → handleFault h = none → s.reference →
    (s.port (boundPort h)).pe = true →
    ∃ t u, exec (.suspend h) s = .next t ∧
      exec (.resume h) (t.accept (encode (.resume h))) = .next u ∧
      u.ifc = s.ifc ∧ u.seq.busy = false ∧
      u.drv (boundPort h) = { s.drv (boundPort h) with wasEnabled := false } ∧
      u.drv (boundPort h).other = s.drv (boundPort h).other ∧
      ((s.drv (boundPort h)).wasEnabled = false → u.blk = s.blk) ∧
      u.trc.primlog = s.trc.primlog ++ sequencerEntries
        [.periphIsEnabled (boundPort h) true, .periphDisable (boundPort h),
          .periphEnable (boundPort h)]

/-- 40_lifecycle.md R162 (R160): the transition table of the lifecycle commands, row by row and column by
column, with `init` under the premises under which it completes; the other port's state is kept, and every
`deinit` sets the ghost bit. Reference. -/
def Obligations.LifecycleTransitionTable : Prop :=
  ∀ (c : LifeCmd) (s : State) (h : Hdr) (baud : Word) (rest : List Bool) (l : Life),
    s.atStart (c.instr h baud) → handleFault h = none → s.reference → baud ≠ 0 →
    s.world.polls = true :: true :: true :: rest →
    lifeAfter c (s.life (boundPort h)) = some l →
    ∃ t, exec (c.instr h baud) s = .next t ∧ t.seq.busy = false ∧ t.life (boundPort h) = l ∧
      t.life (boundPort h).other = s.life (boundPort h).other ∧
      (c = .deinit → (t.drv (boundPort h)).deinited = true)

/-- 40_lifecycle.md R161: a command that is not one of the four lifecycle commands leaves `Life(p)` of both
ports as it was when it completes. First for a command that completes in one step; then step by step, so for
every way its micro-steps are spread over steps, with failed polls, arrivals and handler entries between
them: a step that runs no lifecycle command and is not reset keeps `restingLife`, which is `Life(p)`
whenever no command is in flight. Reference. -/
def Obligations.OtherCommandsKeepLife : Prop :=
  (∀ (i : Instr) (s t : State) (q : Port),
    i.op ≠ .init → i.op ≠ .deinit → i.op ≠ .suspend → i.op ≠ .resume →
    s.atStart i → s.reference → exec i s = .next t → t.seq.busy = false → t.life q = s.life q) ∧
  (∀ (s t : State) (q : Port),
    s.reference → (∀ i, s.running i → i.op.isLife = false) → (∀ r, s.world.turns ≠ .reset :: r) →
    step s = .next t → t.restingLife q = s.restingLife q) ∧
  (∀ (s : State) (q : Port), s.seq.busy = false → s.restingLife q = s.life q)

/-! ### Baud -/

/-- 41_baud.md R170: `is_baud_rate_supported` on a valid handle completes with 1 exactly when the baud lies
in [9600, 4000000], and touches nothing but the response. -/
def Obligations.BaudQueryAnswersTheRange : Prop :=
  ∀ (s : State) (h : Hdr) (baud : Word),
    s.atStart (.isBaudRateSupported h baud) → handleFault h = none →
    ∃ t, exec (.isBaudRateSupported h baud) s = .next t ∧ t.seq.busy = false ∧
      t.seq.respValid = true ∧
      t.seq.resp = (if 9600 ≤ baud.toNat ∧ baud.toNat ≤ 4000000 then 1 else 0) ∧
      t.blk = s.blk ∧ t.ifc = s.ifc ∧ t.trc = s.trc

/-- 41_baud.md R171, R180: `set_baud_rate` on an enabled port, when TC reads 1 and the baud is not 0,
completes with the divisor and, on the Lpuart, the prescaler programmed and everything else unchanged; the
log shows the wait, the disable, the programming and the enable in that order. Formula and ranges of the
divisor are the spec's own presumption (log 15). Reference. -/
def Obligations.SetBaudRateReprograms : Prop :=
  ∀ (s : State) (h : Hdr) (baud : Word) (rest : List Bool),
    s.atStart (.setBaudRate h baud) → handleFault h = none → s.reference → baud ≠ 0 →
    (s.port (boundPort h)).pe = true → s.world.polls = true :: rest →
    let p := boundPort h
    ∃ t f v, exec (.setBaudRate h baud) s = .next t ∧ FreqGiven s p f ∧ DivisorGiven p f baud v ∧
      t.seq.busy = false ∧ t.blk = s.blk ∧ t.world.polls = rest ∧
      t.port p =
        { s.port p with
          div := v
          presc := if p = .lpuart then prescalerFor p f.toNat baud.toNat else (s.port p).presc } ∧
      t.port p.other = s.port p.other ∧ t.ifc.asyncMode = s.ifc.asyncMode ∧
      t.trc.txlog = s.trc.txlog ∧ t.trc.cblog = s.trc.cblog ∧
      t.trc.primlog = s.trc.primlog ++ sequencerEntries
        ([Prim.periphIsEnabled p true, Prim.flagTC p true, Prim.periphDisable p, Prim.clkFreq p f] ++
          (if p = .lpuart then [Prim.setPrescaler p (prescalerFor p f.toNat baud.toNat)] else []) ++
          [Prim.setDivisor p v, Prim.periphEnable p])

/-- 41_baud.md R171, 70_reset_and_hazards.md R311: on a disabled port `set_baud_rate` completes silently for
every baud, 0 included, having issued one query. Reference. -/
def Obligations.SetBaudRateSkipsSilently : Prop :=
  ∀ (s : State) (h : Hdr) (baud : Word),
    s.atStart (.setBaudRate h baud) → handleFault h = none → s.reference →
    (s.port (boundPort h)).pe = false →
    ∃ t, exec (.setBaudRate h baud) s = .next t ∧ t.seq.busy = false ∧ t.blk = s.blk ∧ t.ifc = s.ifc ∧
      t.seq.respValid = s.seq.respValid ∧ t.world.polls = s.world.polls ∧
      t.trc.txlog = s.trc.txlog ∧ t.trc.cblog = s.trc.cblog ∧
      t.trc.primlog = s.trc.primlog ++ sequencerEntries [.periphIsEnabled (boundPort h) false]

/-- 41_baud.md R178: with baud 0 on an enabled port the run comes to the calculation step with the
peripheral disabled and the block not faulted, and stops there, as `init` does at its step 15; no other
baud stops there. That a step ends before a stop is log 12. Reference. -/
def Obligations.BaudZeroStopsAtTheCalculation : Prop :=
  (∀ (s : State) (h : Hdr) (rest : List Bool),
    s.atStart (.setBaudRate h 0) → handleFault h = none → s.reference →
    (s.port (boundPort h)).pe = true → s.world.polls = true :: rest →
    ∃ t, exec (.setBaudRate h 0) s = .next t ∧ t.seq.busy = true ∧ t.seq.upc.step = 6 ∧
      (t.port (boundPort h)).pe = false ∧ t.blk.fatal = false ∧
      exec (.setBaudRate h 0) t = .fault .baudZero) ∧
  (∀ (s : State) (h : Hdr) (baud : Word), handleFault h = none →
    (s.seq.upc.step = 6 → (exec (.setBaudRate h baud) s = .fault .baudZero ↔ baud = 0)) ∧
    (s.seq.upc.step = 15 → (exec (.init h baud) s = .fault .baudZero ↔ baud = 0)))

/-- 41_baud.md R172, R174: the Lpuart's prescaler is 32 exactly when `f >= 4096 * baud`, else 1; the
Usart's is always 1; and no intermediate of the default divisor formula (log 15) needs more than 41 bits. -/
def Obligations.PrescalerTestIsTruncating : Prop :=
  ∀ f baud : Nat, 0 < baud →
    (prescalerFor .lpuart f baud = 32 ↔ 4096 * baud ≤ f) ∧
    (prescalerFor .lpuart f baud = 1 ↔ f < 4096 * baud) ∧
    prescalerFor .usart f baud = 1 ∧
    (f < 2 ^ 32 → baud < 2 ^ 32 → ∀ p,
      f / (prescalerFor p f baud).toNat * 256 + baud / 2 < 2 ^ 41)

/-- 41_baud.md R177: when the default divisor is in the register's range, for each port and each prescaler
path of the Lpuart. The ranges and the formula are the spec's own, from general knowledge (G1, G2; log 15). -/
def Obligations.DivisorRangeConditions : Prop :=
  ∀ f baud : Nat, 0 < baud →
    (Config.divMin .usart ≤ divisorFn .usart f 1 baud ↔ 16 * baud ≤ f + baud / 2) ∧
    (divisorFn .usart f 1 baud ≤ Config.divMax .usart ↔ f + baud / 2 < 65536 * baud) ∧
    (f / baud ≤ 4095 →
      (Config.divMin .lpuart ≤ divisorFn .lpuart f 1 baud ↔ 768 * baud ≤ 256 * f + baud / 2) ∧
      (divisorFn .lpuart f 1 baud ≤ Config.divMax .lpuart ↔
        f + baud / 2 / 256 < 4096 * baud)) ∧
    (4096 ≤ f / baud →
      32768 ≤ divisorFn .lpuart f 32 baud ∧
      (divisorFn .lpuart f 32 baud ≤ Config.divMax .lpuart ↔
        f / 32 * 256 + baud / 2 < 1048576 * baud) ∧
      (f < 2 ^ 32 → 32769 ≤ baud → divisorFn .lpuart f 32 baud ≤ Config.divMax .lpuart))

/-- 41_baud.md R173: every prescaler or divisor write comes after a poll of TC that read 1 and, after that, a
disable. First for what one burst of `set_baud_rate` adds to the log from the wait or before it; then for
every write of `set_baud_rate` and `init`, however their micro-steps are spread over steps: every step keeps
the ordering invariant, which holds at reset and says that in all the sequencer has issued the poll, the
disable and the frequency query stand right before the writes, so they are the same command's. -/
def Obligations.DivisorWritesFollowTheWait : Prop :=
  (∀ (s t : State) (h : Hdr) (baud : Word),
    exec (.setBaudRate h baud) s = .next t → s.seq.upc.step ≤ 3 →
    let p := boundPort h
    ∃ l, t.trc.primlog = s.trc.primlog ++ sequencerEntries l ∧
      ∀ (k : Nat) (x : Prim), l[k]? = some x →
        (∃ v, x = .setDivisor p v) ∨ (∃ v, x = .setPrescaler p v) →
        ∃ a b, a < b ∧ b < k ∧ l[a]? = some (.flagTC p true) ∧ l[b]? = some (.periphDisable p)) ∧
  (∀ s t : State, s.baudOrderInv → step s = .next t → t.baudOrderInv) ∧
  State.reset.baudOrderInv

/-- 41_baud.md R179: a step of the machine never adds a `SetPrescaler(Usart, _)` entry to the log and keeps
`presc[Usart]` at its reset value 1; the calculation takes 1 for the Usart; `PeriphConfig(Usart)`, which is
step 6 of `init`, programs the oversampling factor 16 (in the reference setting). -/
def Obligations.UsartPrescalerIsNeverWritten : Prop :=
  (∀ s t : State, step s = .next t →
    ((∀ e ∈ s.trc.primlog, e.isUsartPrescaler = false) →
      ∀ e ∈ t.trc.primlog, e.isUsartPrescaler = false) ∧
    ((s.port .usart).presc = 1 → (t.port .usart).presc = 1)) ∧
  (State.reset.port .usart).presc = 1 ∧
  (∀ f baud, prescalerFor .usart f baud = 1) ∧
  (∀ s : State, s.reference →
    ∃ fr, (s.periphConfig .usart).frameOf .usart = some fr ∧ fr.oversampling = some 16) ∧
  (∀ (s : State) (baud : Word), s.seq.upc.step = 6 →
    microInit baud .usart s = .next (s.periphConfig .usart))

/-! ### Transmit -/

/-- 42_transmit.md R200, R202: `tx` of a non-empty sequence on an enabled port, when every poll of TXE reads
1, completes with `txlog[p]` grown by exactly the bytes, in order, and a successful poll before each write.
Reference. -/
def Obligations.TxSendsEveryByteInOrder : Prop :=
  ∀ (s : State) (h : Hdr) (bytes : List Byte) (rest : List Bool),
    s.atStart (.tx h bytes) → handleFault h = none → s.reference → bytes ≠ [] →
    (s.port (boundPort h)).pe = true →
    s.world.polls = List.replicate bytes.length true ++ rest →
    let p := boundPort h
    ∃ t, exec (.tx h bytes) s = .next t ∧ t.seq.busy = false ∧ t.blk = s.blk ∧ t.ifc = s.ifc ∧
      t.world.polls = rest ∧ t.trc.cblog = s.trc.cblog ∧
      t.trc.txlog.get p = s.trc.txlog.get p ++ bytes ∧
      t.trc.txlog.get p.other = s.trc.txlog.get p.other ∧
      t.trc.primlog = s.trc.primlog ++ sequencerEntries
        (.periphIsEnabled p true :: bytes.flatMap fun b => [.flagTXE p true, .writeData p b])

/-- 42_transmit.md R200: `tx` on a disabled port, or of an empty sequence, completes having issued one
query, with no poll and no write. Reference. -/
def Obligations.TxDropsSilently : Prop :=
  ∀ (s : State) (h : Hdr) (bytes : List Byte),
    s.atStart (.tx h bytes) → handleFault h = none → s.reference →
    (s.port (boundPort h)).pe = false ∨ bytes = [] →
    ∃ t, exec (.tx h bytes) s = .next t ∧ t.seq.busy = false ∧ t.blk = s.blk ∧ t.ifc = s.ifc ∧
      t.world.polls = s.world.polls ∧ t.trc.cblog = s.trc.cblog ∧ t.trc.txlog = s.trc.txlog ∧
      t.trc.primlog = s.trc.primlog ++ sequencerEntries
        [.periphIsEnabled (boundPort h) (s.port (boundPort h)).pe]

/-- 42_transmit.md R201: `tx_wait_complete` completes when TC reads 1 on an enabled port, and without a poll
on a disabled one, whatever answers are listed there; it writes nothing. Reference. -/
def Obligations.TxWaitCompleteWritesNothing : Prop :=
  ∀ (s : State) (h : Hdr) (rest : List Bool),
    s.atStart (.txWaitComplete h) → handleFault h = none → s.reference →
    ((s.port (boundPort h)).pe = true → s.world.polls = true :: rest) →
    let p := boundPort h
    ∃ t, exec (.txWaitComplete h) s = .next t ∧ t.seq.busy = false ∧ t.blk = s.blk ∧ t.ifc = s.ifc ∧
      t.world.polls = (if (s.port p).pe then rest else s.world.polls) ∧
      t.trc.txlog = s.trc.txlog ∧ t.trc.cblog = s.trc.cblog ∧
      t.trc.primlog = s.trc.primlog ++ sequencerEntries
        (if (s.port p).pe then [.periphIsEnabled p true, .flagTC p true]
          else [.periphIsEnabled p false])

/-- 20_memory.md R78, 60_exceptions.md R277: each wait micro-step whose flag reads 0 leaves the machine as
it was, the spent answer apart, and is the next micro-step again: nothing else, and no fault. -/
def Obligations.FailedPollChangesNothing : Prop :=
  ∀ (s : State) (h : Hdr) (rest : List Bool), handleFault h = none →
    let spent : State := { s with world := { s.world with polls := rest } }
    (s.world.polls = false :: rest →
      (s.seq.upc.step = 3 → exec (.txWaitComplete h) s = .next spent) ∧
      (∀ bytes, s.seq.upc.step = 3 → exec (.tx h bytes) s = .next spent) ∧
      (∀ baud, s.seq.upc.step = 3 → exec (.setBaudRate h baud) s = .next spent) ∧
      (∀ baud, s.seq.upc.step = 12 → exec (.init h baud) s = .next spent)) ∧
    (∀ a b baud, s.world.polls = a :: b :: rest → (a && b) = false → s.seq.upc.step = 10 →
      exec (.init h baud) s = .next spent)

/-! ### Receive -/

/-- 43_receive.md R215: a non-null registration on a valid handle completes, in either store order, with
the pair stored, the handler attached and the interrupt enabled. Reference. -/
def Obligations.RegistrationArms : Prop :=
  ∀ (s : State) (h : Hdr) (callback context : Word),
    s.atStart (.setRxCallback h callback context) → handleFault h = none → s.reference →
    callback ≠ 0 →
    let p := boundPort h
    ∃ t, exec (.setRxCallback h callback context) s = .next t ∧ t.seq.busy = false ∧
      t.blk.fatal = false ∧
      t.drv p = { s.drv p with cb := callback, ctx := context } ∧
      t.port p = { s.port p with vec := .attached, rxneIe := true } ∧
      t.drv p.other = s.drv p.other ∧ t.port p.other = s.port p.other ∧
      t.ifc.asyncMode = s.ifc.asyncMode ∧ t.trc.txlog = s.trc.txlog ∧ t.trc.cblog = s.trc.cblog ∧
      t.trc.primlog = s.trc.primlog ++ sequencerEntries [.vecAttach p, .rxneIrqEnable p]

/-- 43_receive.md R216: a null registration on a valid handle completes with the interrupt masked, the
handler detached and the pair cleared, the context operand ignored. Reference. -/
def Obligations.UnregistrationDisarms : Prop :=
  ∀ (s : State) (h : Hdr) (context : Word),
    s.atStart (.setRxCallback h 0 context) → handleFault h = none → s.reference →
    let p := boundPort h
    ∃ t, exec (.setRxCallback h 0 context) s = .next t ∧ t.seq.busy = false ∧
      t.blk.fatal = false ∧
      t.drv p = { s.drv p with cb := 0, ctx := 0 } ∧
      t.port p = { s.port p with vec := .detached, rxneIe := false } ∧
      t.drv p.other = s.drv p.other ∧ t.port p.other = s.port p.other ∧
      t.ifc.asyncMode = s.ifc.asyncMode ∧ t.trc.txlog = s.trc.txlog ∧ t.trc.cblog = s.trc.cblog ∧
      t.trc.primlog = s.trc.primlog ++ sequencerEntries [.rxneIrqDisable p, .vecDetach p]

/-- 60_exceptions.md R269: a handler is entered exactly when the block is not faulted, its vector is
attached, and the request is asserted or the build admits spurious entries; an entry that is not possible
is no event (the model's reading, log 22). -/
def Obligations.HandlerEntryCondition : Prop :=
  ∀ (s : State) (p : Port),
    (s.mayEnter p = true ↔
      s.blk.fatal = false ∧ (s.port p).vec = .attached ∧
        (((s.port p).rxneIe = true ∧ ((s.port p).rxne = true ∨ (s.port p).ore = true)) ∨
          s.build.spuriousIrq = true)) ∧
    ∀ r, s.world.turns = .enter p :: r →
      (s.mayEnter p = true → step s = handler p (s.withTurns r)) ∧
      (s.mayEnter p = false → step s = .next (s.withTurns r))

/-- 43_receive.md R218: a handler run that finds a byte reads it, which clears RXNE, and invokes the
registered callback once with it and the registered context; ORE, the other port, the block and the
sequencer are as they were. Reference. -/
def Obligations.HandlerDeliversOneByte : Prop :=
  ∀ (s : State) (p : Port) (r : List Turn),
    s.reference → s.world.turns = .enter p :: r → s.mayEnter p = true →
    (s.port p).rxne = true → (s.drv p).cb ≠ 0 →
    ∃ t, step s = .next t ∧
      t.trc.cblog = s.trc.cblog ++ [⟨p, (s.drv p).cb, (s.port p).rdr, (s.drv p).ctx⟩] ∧
      t.trc.primlog = s.trc.primlog ++ handlerEntries p
        [.flagRXNE p true, .readData p (s.port p).rdr,
          .cbInvoke (s.drv p).cb (s.port p).rdr (s.drv p).ctx] ∧
      t.port p = { s.port p with rxne := false } ∧ t.port p.other = s.port p.other ∧
      t.ifc.asyncMode = s.ifc.asyncMode ∧ t.trc.txlog = s.trc.txlog ∧
      t.blk = s.blk ∧ t.seq = s.seq

/-- 43_receive.md R218: a handler run that finds no byte clears an overrun if there is one, and does nothing
otherwise; no callback is invoked. Reference. -/
def Obligations.HandlerWithoutByteInvokesNothing : Prop :=
  ∀ (s : State) (p : Port) (r : List Turn),
    s.reference → s.world.turns = .enter p :: r → s.mayEnter p = true → (s.port p).rxne = false →
    ∃ t, step s = .next t ∧
      t.trc.cblog = s.trc.cblog ∧ t.trc.txlog = s.trc.txlog ∧
      t.trc.primlog = s.trc.primlog ++ handlerEntries p
        (if (s.port p).ore then [.flagRXNE p false, .flagORE p true, .clearORE p]
          else [.flagRXNE p false, .flagORE p false]) ∧
      t.port p = { s.port p with ore := false } ∧ t.port p.other = s.port p.other ∧
      t.ifc.asyncMode = s.ifc.asyncMode ∧ t.blk = s.blk ∧ t.seq = s.seq

/-- 60_exceptions.md R271, R272, R276: whatever the build, a turn of the interrupt controller that ends in a
next state writes nothing of the block and nothing of the sequencer, and touches neither the interrupt
enable nor the vector of any port, nor the other port at all. -/
def Obligations.HandlersWriteNothingOfTheBlock : Prop :=
  ∀ (s t : State) (p : Port) (r : List Turn),
    s.world.turns = .enter p :: r → step s = .next t →
    t.blk = s.blk ∧ t.seq = s.seq ∧ t.build = s.build ∧ t.world.cmds = s.world.cmds ∧
      t.trc.txlog = s.trc.txlog ∧ t.ifc.asyncMode = s.ifc.asyncMode ∧
      t.port p.other = s.port p.other ∧
      t.port p = { s.port p with rxne := (t.port p).rxne, ore := (t.port p).ore }

/-- 20_memory.md R93: `Arrive(p, b)` stores the byte if the receive register is free, else drops it and
sets the overrun flag; it may come at any time, faulted or busy, whatever the port's enables, and changes
nothing else. In the reference setting the two flag primitives return those flags. -/
def Obligations.ArrivalStoresOrOverruns : Prop :=
  (∀ (s : State) (p : Port) (b : Byte) (r : List Turn), s.world.turns = .arrive p b :: r →
    ∃ t, step s = .next t ∧
      ((s.port p).rxne = false → t.port p = { s.port p with rdr := b, rxne := true }) ∧
      ((s.port p).rxne = true → t.port p = { s.port p with ore := true }) ∧
      t.port p.other = s.port p.other ∧ t.ifc.asyncMode = s.ifc.asyncMode ∧
      t.blk = s.blk ∧ t.seq = s.seq ∧ t.trc = s.trc) ∧
  (∀ (s : State) (p : Port), s.reference →
    (s.flagRxne p).bit = (s.port p).rxne ∧ (s.flagOre p).bit = (s.port p).ore)

/-- 43_receive.md R222. (a) After a non-null registration completes, one arrival with the receive register
free and one handler entry add exactly one entry to `cblog`: the port, the registered callback, the byte
and the registered context. (b) After a null registration completes, the handler is detached and the
interrupt masked, and an arrival adds nothing to `cblog` and makes no entry possible. Reference. -/
def Obligations.DeliveryProperties : Prop :=
  (∀ (s : State) (h : Hdr) (callback context : Word) (b : Byte),
    s.atStart (.setRxCallback h callback context) → handleFault h = none → s.reference →
    callback ≠ 0 → (s.port (boundPort h)).rxne = false →
    ∃ t u v, exec (.setRxCallback h callback context) s = .next t ∧ t.seq.busy = false ∧
      step (t.withTurns [.arrive (boundPort h) b, .enter (boundPort h)]) = .next u ∧
      step u = .next v ∧
      v.trc.cblog = s.trc.cblog ++ [⟨boundPort h, callback, b, context⟩]) ∧
  (∀ (s : State) (h : Hdr) (context : Word) (b : Byte),
    s.atStart (.setRxCallback h 0 context) → handleFault h = none → s.reference →
    ∃ t u, exec (.setRxCallback h 0 context) s = .next t ∧ t.seq.busy = false ∧
      (t.port (boundPort h)).vec = .detached ∧ (t.port (boundPort h)).rxneIe = false ∧
      step (t.withTurns [.arrive (boundPort h) b]) = .next u ∧
      u.trc.cblog = s.trc.cblog ∧ u.mayEnter (boundPort h) = false)

/-- 43_receive.md R220, 70_reset_and_hazards.md R308: the torn pair. When a callback is replaced while
armed, a handler entered between the two stores invokes the new callback with the old context, or the old
callback with the new context, by `CB_STORE_ORDER`. That step 2 alone is one step here is log 1.
Reference. -/
def Obligations.HandlerBetweenStoresSeesATornPair : Prop :=
  ∀ (s : State) (h : Hdr) (callback context : Word) (r : List Turn),
    handleFault h = none → s.reference → callback ≠ 0 → s.blk.fatal = false →
    s.seq.upc.step = 2 →
    s.world.turns = .enter (boundPort h) :: r → s.mayEnter (boundPort h) = true →
    (s.port (boundPort h)).rxne = true → (s.drv (boundPort h)).cb ≠ 0 →
    ∃ t u, exec (.setRxCallback h callback context) s = .next t ∧ step t = .next u ∧
      u.trc.cblog = s.trc.cblog ++
        [match s.build.cbStoreOrder with
          | .cbThenCtx =>
            ⟨boundPort h, callback, (s.port (boundPort h)).rdr, (s.drv (boundPort h)).ctx⟩
          | .ctxThenCb =>
            ⟨boundPort h, (s.drv (boundPort h)).cb, (s.port (boundPort h)).rdr, context⟩]

/-! ### Direction -/

/-- 44_direction.md R240, R243: `enable_direction` completes and changes exactly `dir_en[p][d]` and the pin
of that direction, whatever the port's state. Reference. -/
def Obligations.EnableDirectionTouchesOneDirection : Prop :=
  ∀ (s : State) (h : Hdr),
    s.atStart (.enableDirection h) → handleDirFault h = none → s.reference →
    let p := boundPort h
    let d := boundDir h
    let af := (Config.descOf p).af
    ∃ t, exec (.enableDirection h) s = .next t ∧ t.seq.busy = false ∧ t.blk = s.blk ∧
      t.port p =
        { s.port p with
          dirEn := (s.port p).dirEn.set d true, pins := (s.port p).pins.set d (.altFn af) } ∧
      (t.port p).pins.get d.other = (s.port p).pins.get d.other ∧
      (t.port p).dirEn.get d.other = (s.port p).dirEn.get d.other ∧
      t.port p.other = s.port p.other ∧ t.ifc.asyncMode = s.ifc.asyncMode ∧
      t.trc.txlog = s.trc.txlog ∧ t.trc.cblog = s.trc.cblog ∧
      t.trc.primlog = s.trc.primlog ++ sequencerEntries
        [.dirEnable p d, .pinCfgAF ((Config.descOf p).pin.get d) af]

/-- 44_direction.md R241, R243: `disable_direction`, likewise. Reference. -/
def Obligations.DisableDirectionTouchesOneDirection : Prop :=
  ∀ (s : State) (h : Hdr),
    s.atStart (.disableDirection h) → handleDirFault h = none → s.reference →
    let p := boundPort h
    let d := boundDir h
    ∃ t, exec (.disableDirection h) s = .next t ∧ t.seq.busy = false ∧ t.blk = s.blk ∧
      t.port p =
        { s.port p with
          dirEn := (s.port p).dirEn.set d false, pins := (s.port p).pins.set d .analog } ∧
      (t.port p).pins.get d.other = (s.port p).pins.get d.other ∧
      (t.port p).dirEn.get d.other = (s.port p).dirEn.get d.other ∧
      t.port p.other = s.port p.other ∧ t.ifc.asyncMode = s.ifc.asyncMode ∧
      t.trc.txlog = s.trc.txlog ∧ t.trc.cblog = s.trc.cblog ∧
      t.trc.primlog = s.trc.primlog ++ sequencerEntries
        [.dirDisable p d, .pinCfgAnalog ((Config.descOf p).pin.get d)]

/-- 44_direction.md R242: `get_gpio_pin` completes with the pin identifier of the descriptor table and
touches nothing but the response. -/
def Obligations.GetGpioPinAnswersTheTable : Prop :=
  ∀ (s : State) (h : Hdr),
    s.atStart (.getGpioPin h) → handleDirFault h = none →
    ∃ t, exec (.getGpioPin h) s = .next t ∧ t.seq.busy = false ∧ t.seq.respValid = true ∧
      t.seq.resp = (Config.descOf (boundPort h)).pin.get (boundDir h) ∧
      t.blk = s.blk ∧ t.ifc = s.ifc ∧ t.trc = s.trc

/-- 10_state.md R36: the four pin identifiers are pairwise distinct, so `get_gpio_pin` answers two ports or
directions with two values; so are the bus, vector and register-block identifiers of the two ports. -/
def Obligations.DescriptorsAreDistinct : Prop :=
  (∀ p q d e, (Config.descOf p).pin.get d = (Config.descOf q).pin.get e → p = q ∧ d = e) ∧
  ∀ p q, ((Config.descOf p).bus = (Config.descOf q).bus → p = q) ∧
    ((Config.descOf p).vec = (Config.descOf q).vec → p = q) ∧
    ((Config.descOf p).regs = (Config.descOf q).regs → p = q)

/-! ### Frames -/

/-- 00_scope.md R3: a command leaves every state element of the port it does not name: interface fields,
DriverState and `txlog`; the Usart's `async_mode` is the Usart's. -/
def Obligations.CommandsKeepTheOtherPort : Prop :=
  ∀ (i : Instr) (s t : State), exec i s = .next t →
    t.port (boundPort i.hdr).other = s.port (boundPort i.hdr).other ∧
    t.drv (boundPort i.hdr).other = s.drv (boundPort i.hdr).other ∧
    t.trc.txlog.get (boundPort i.hdr).other = s.trc.txlog.get (boundPort i.hdr).other ∧
    (boundPort i.hdr = .lpuart → t.ifc.asyncMode = s.ifc.asyncMode)

/-- 10_state.md R27 to R30, R33: which commands write which part of DriverState; the others leave it. -/
def Obligations.DriverStateFrame : Prop :=
  ∀ (i : Instr) (s t : State) (q : Port), exec i s = .next t →
    (i.op ≠ .suspend → i.op ≠ .resume → (t.drv q).wasEnabled = (s.drv q).wasEnabled) ∧
    (i.op ≠ .setRxCallback → i.op ≠ .deinit →
      (t.drv q).cb = (s.drv q).cb ∧ (t.drv q).ctx = (s.drv q).ctx) ∧
    (i.op ≠ .deinit → (t.drv q).deinited = (s.drv q).deinited)

/-- 10_state.md R39, R40, 20_memory.md R61, R96: which commands write which interface field; no command
writes the receive side. -/
def Obligations.InterfaceFrame : Prop :=
  ∀ (i : Instr) (s t : State) (q : Port), exec i s = .next t →
    ((t.port q).rxne = (s.port q).rxne ∧ (t.port q).ore = (s.port q).ore ∧
      (t.port q).rdr = (s.port q).rdr) ∧
    (i.op ≠ .setRxCallback → i.op ≠ .deinit →
      (t.port q).vec = (s.port q).vec ∧ (t.port q).rxneIe = (s.port q).rxneIe) ∧
    (i.op ≠ .init → i.op ≠ .deinit → (t.port q).busclk = (s.port q).busclk) ∧
    (i.op ≠ .init →
      (t.port q).clksel = (s.port q).clksel ∧ (t.port q).frame = (s.port q).frame ∧
      (t.port q).fifoEn = (s.port q).fifoEn ∧ (t.port q).errIe = (s.port q).errIe ∧
      t.ifc.asyncMode = s.ifc.asyncMode) ∧
    (i.op ≠ .init → i.op ≠ .setBaudRate →
      (t.port q).presc = (s.port q).presc ∧ (t.port q).div = (s.port q).div) ∧
    (i.op ≠ .init → i.op ≠ .deinit → i.op ≠ .suspend → i.op ≠ .resume → i.op ≠ .setBaudRate →
      (t.port q).pe = (s.port q).pe) ∧
    (i.op ≠ .init → i.op ≠ .enableDirection → i.op ≠ .disableDirection →
      (t.port q).dirEn = (s.port q).dirEn) ∧
    (i.op ≠ .init → i.op ≠ .deinit → i.op ≠ .enableDirection → i.op ≠ .disableDirection →
      (t.port q).pins = (s.port q).pins)

/-- 10_state.md R21, R22, R24, R26, R48: no command writes the latches, the byte stream, the operation of
`upc`, the build or the caller's packets; only the two queries write the response; the log only grows, and
only by entries of the sequencer; only `tx` grows `txlog`; no command invokes a callback. -/
def Obligations.SequencerFrame : Prop :=
  ∀ (i : Instr) (s t : State), exec i s = .next t →
    t.seq.x0 = s.seq.x0 ∧ t.seq.x1 = s.seq.x1 ∧ t.seq.x2 = s.seq.x2 ∧ t.seq.txbuf = s.seq.txbuf ∧
    t.seq.upc.op = s.seq.upc.op ∧ t.build = s.build ∧ t.world.cmds = s.world.cmds ∧
    (i.op ≠ .isBaudRateSupported → i.op ≠ .getGpioPin →
      t.seq.resp = s.seq.resp ∧ t.seq.respValid = s.seq.respValid) ∧
    (∃ l, t.trc.primlog = s.trc.primlog ++ sequencerEntries l) ∧
    (i.op ≠ .tx → t.trc.txlog = s.trc.txlog) ∧ t.trc.cblog = s.trc.cblog

/-- 20_memory.md R91: every control write, issued twice, leaves the interface state that issuing it once
leaves. Reference. -/
def Obligations.ControlWritesAreIdempotent : Prop :=
  ∀ s : State, s.reference →
    (∀ p, (s.busEnable p).ifc = ((s.busEnable p).busEnable p).ifc ∧
      (s.busDisable p).ifc = ((s.busDisable p).busDisable p).ifc ∧
      (s.clkSrcSelect p).ifc = ((s.clkSrcSelect p).clkSrcSelect p).ifc ∧
      (s.vecAttach p).ifc = ((s.vecAttach p).vecAttach p).ifc ∧
      (s.vecDetach p).ifc = ((s.vecDetach p).vecDetach p).ifc ∧
      (s.periphConfig p).ifc = ((s.periphConfig p).periphConfig p).ifc ∧
      (s.fifoEnable p).ifc = ((s.fifoEnable p).fifoEnable p).ifc ∧
      (s.periphEnable p).ifc = ((s.periphEnable p).periphEnable p).ifc ∧
      (s.periphDisable p).ifc = ((s.periphDisable p).periphDisable p).ifc ∧
      (s.rxneIrqEnable p).ifc = ((s.rxneIrqEnable p).rxneIrqEnable p).ifc ∧
      (s.rxneIrqDisable p).ifc = ((s.rxneIrqDisable p).rxneIrqDisable p).ifc ∧
      (s.errIrqDisable p).ifc = ((s.errIrqDisable p).errIrqDisable p).ifc) ∧
    s.asyncModeUsart.ifc = s.asyncModeUsart.asyncModeUsart.ifc ∧
    (∀ p d, (s.pinCfgAF p d).ifc = ((s.pinCfgAF p d).pinCfgAF p d).ifc ∧
      (s.pinCfgAnalog p d).ifc = ((s.pinCfgAnalog p d).pinCfgAnalog p d).ifc ∧
      (s.dirEnable p d).ifc = ((s.dirEnable p d).dirEnable p d).ifc ∧
      (s.dirDisable p d).ifc = ((s.dirDisable p d).dirDisable p d).ifc) ∧
    (∀ p v, (s.setPrescaler p v).ifc = ((s.setPrescaler p v).setPrescaler p v).ifc) ∧
    (∀ p v, (s.setDivisor p v).ifc = ((s.setDivisor p v).setDivisor p v).ifc)

/-! ### Invariants -/

/-- 10_state.md R32: every step of every agent keeps the registration invariant, in either store order: an
attached handler has a callback. -/
def Obligations.StepKeepsRegistrationInvariant : Prop :=
  ∀ s t : State, s.registrationInv → step s = .next t → t.registrationInv

/-- 10_state.md R24: every step keeps the micro-program counter on a micro-step of the command in flight,
past the check step only if the check passed, and the byte index below the length. -/
def Obligations.StepKeepsUpcInvariant : Prop :=
  ∀ s t : State, s.upcInv → step s = .next t → t.upcInv

/-- 41_baud.md R172, 10_state.md R39: every step keeps `presc[Usart]` at 1 and `presc[Lpuart]` at 1 or 32. -/
def Obligations.StepKeepsPrescalerInvariant : Prop :=
  ∀ s t : State, s.prescInv → step s = .next t → t.prescInv

/-- 10_state.md R48, 70_reset_and_hazards.md R317: every step keeps `txlog` and `cblog` the projections of
`primlog`. -/
def Obligations.StepKeepsTraceInvariant : Prop :=
  ∀ s t : State, s.traceInv → step s = .next t → t.traceInv

/-- The four invariants hold right after reset. -/
def Obligations.ResetMeetsTheInvariants : Prop :=
  State.reset.registrationInv ∧ State.reset.upcInv ∧ State.reset.prescInv ∧ State.reset.traceInv

/-- 60_exceptions.md R266, 70_reset_and_hazards.md R308: from a state that meets the registration and the
micro-program counter invariants, the one fault a step can stop with is `BaudZero`; the handler never finds
a missing callback. -/
def Obligations.OnlyBaudZeroStopsARun : Prop :=
  ∀ (s : State) (f : Fault), s.registrationInv → s.upcInv → step s = .fault f → f = .baudZero

/-- 60_exceptions.md R261, 70_reset_and_hazards.md R300: in every step only reset clears the fatal latch, and
the reason stands while it does not. -/
def Obligations.OnlyResetClearsTheFatalLatch : Prop :=
  ∀ s t : State, step s = .next t → s.blk.fatal = true → (∀ r, s.world.turns ≠ .reset :: r) →
    t.blk.fatal = true ∧ t.blk.fatalReason = s.blk.fatalReason
end

