-- ==== Sys2Proof/Laws/Tables.lean ====
section
/-!
SUPPORT. The laws of the two-entry tables: read after write, and every other entry kept; and that ports and
directions are as many as the named constants of 00_scope.md R7 say.
-/

namespace Sys2Proof

@[simp] theorem PerPort.get_set_same {α : Type} (t : PerPort α) (p : Port) (a : α) :
    (t.set p a).get p = a := by cases p <;> rfl

theorem PerPort.get_set_ne {α : Type} (t : PerPort α) {p q : Port} (a : α) (h : q ≠ p) :
    (t.set p a).get q = t.get q := by cases p <;> cases q <;> first | rfl | exact absurd rfl h

@[simp] theorem PerPort.get_set_other {α : Type} (t : PerPort α) (p : Port) (a : α) :
    (t.set p a).get p.other = t.get p.other := by cases p <;> rfl

@[simp] theorem PerPort.set_set {α : Type} (t : PerPort α) (p : Port) (a b : α) :
    (t.set p a).set p b = t.set p b := by cases p <;> rfl

@[simp] theorem PerPort.set_get {α : Type} (t : PerPort α) (p : Port) : t.set p (t.get p) = t := by
  cases p <;> rfl

theorem PerPort.ext_get {α : Type} {t u : PerPort α} (h : ∀ p, t.get p = u.get p) : t = u := by
  cases t; cases u
  have h1 := h .usart
  have h2 := h .lpuart
  simp only [PerPort.get] at h1 h2
  subst h1; subst h2; rfl

@[simp] theorem PerDir.get_set_same {α : Type} (t : PerDir α) (d : Dir) (a : α) :
    (t.set d a).get d = a := by cases d <;> rfl

@[simp] theorem PerDir.get_set_other {α : Type} (t : PerDir α) (d : Dir) (a : α) :
    (t.set d a).get d.other = t.get d.other := by cases d <;> rfl

@[simp] theorem Port.other_ne (p : Port) : p.other ≠ p := by cases p <;> decide

@[simp] theorem Dir.other_ne (d : Dir) : d.other ≠ d := by cases d <;> decide

/-- `N_PORTS` counts the ports, each of them once. -/
theorem Port.count : (∀ p : Port, p ∈ [Port.usart, .lpuart]) ∧ [Port.usart, .lpuart].Nodup ∧
    [Port.usart, .lpuart].length = Config.nPorts := by
  refine ⟨fun p => ?_, by decide, rfl⟩
  cases p <;> decide

/-- `N_DIRS` counts the directions, each of them once. -/
theorem Dir.count : (∀ d : Dir, d ∈ [Dir.tx, .rx]) ∧ [Dir.tx, .rx].Nodup ∧
    [Dir.tx, .rx].length = Config.nDirs := by
  refine ⟨fun d => ?_, by decide, rfl⟩
  cases d <;> decide

theorem Port.eq_or_other (p q : Port) : q = p ∨ q = p.other := by cases p <;> cases q <;> decide

theorem Dir.eq_or_other (d e : Dir) : e = d ∨ e = d.other := by cases d <;> cases e <;> decide

end Sys2Proof
end

