-- ==== Sys2Proof/Laws/State.lean ====
section
/-!
SUPPORT. One lemma per field per update of the state, true by rfl, so that no later proof unfolds a record
update. `port` and `drv` are the accessors of the interface fields and of DriverState of one port.
-/

namespace Sys2Proof.Machine

@[simp] theorem Iface.modPort_asyncMode (i : Iface) (p : Port) (f : PortEnv → PortEnv) :
    (i.modPort p f).asyncMode = i.asyncMode := rfl
@[simp] theorem Iface.modPort_env (i : Iface) (p : Port) (f : PortEnv → PortEnv) :
    (i.modPort p f).env = i.env.set p (f (i.env.get p)) := rfl

@[simp] theorem State.modPort_blk (s : State) (p : Port) (f : PortEnv → PortEnv) : (s.modPort p f).blk = s.blk := rfl
@[simp] theorem State.modPort_seq (s : State) (p : Port) (f : PortEnv → PortEnv) : (s.modPort p f).seq = s.seq := rfl
@[simp] theorem State.modPort_ifc (s : State) (p : Port) (f : PortEnv → PortEnv) : (s.modPort p f).ifc =
    s.ifc.modPort p f := rfl
@[simp] theorem State.modPort_trc (s : State) (p : Port) (f : PortEnv → PortEnv) : (s.modPort p f).trc = s.trc := rfl
@[simp] theorem State.modPort_world (s : State) (p : Port) (f : PortEnv → PortEnv) : (s.modPort p f).world = s.world := rfl
@[simp] theorem State.modPort_draws (s : State) (p : Port) (f : PortEnv → PortEnv) : (s.modPort p f).draws = s.draws := rfl
@[simp] theorem State.modPort_build (s : State) (p : Port) (f : PortEnv → PortEnv) : (s.modPort p f).build = s.build := rfl
@[simp] theorem State.modPort_drv (s : State) (p : Port) (f : PortEnv → PortEnv) (q : Port) : (s.modPort p f).drv q = s.drv q := rfl

@[simp] theorem State.modDrv_blk (s : State) (p : Port) (f : Driver → Driver) : (s.modDrv p f).blk =
    { s.blk with drv := s.blk.drv.set p (f (s.blk.drv.get p)) } := rfl
@[simp] theorem State.modDrv_seq (s : State) (p : Port) (f : Driver → Driver) : (s.modDrv p f).seq = s.seq := rfl
@[simp] theorem State.modDrv_ifc (s : State) (p : Port) (f : Driver → Driver) : (s.modDrv p f).ifc = s.ifc := rfl
@[simp] theorem State.modDrv_trc (s : State) (p : Port) (f : Driver → Driver) : (s.modDrv p f).trc = s.trc := rfl
@[simp] theorem State.modDrv_world (s : State) (p : Port) (f : Driver → Driver) : (s.modDrv p f).world = s.world := rfl
@[simp] theorem State.modDrv_draws (s : State) (p : Port) (f : Driver → Driver) : (s.modDrv p f).draws = s.draws := rfl
@[simp] theorem State.modDrv_build (s : State) (p : Port) (f : Driver → Driver) : (s.modDrv p f).build = s.build := rfl
@[simp] theorem State.modDrv_port (s : State) (p : Port) (f : Driver → Driver) (q : Port) : (s.modDrv p f).port q = s.port q := rfl

@[simp] theorem State.modSeq_blk (s : State) (f : Seq → Seq) : (s.modSeq f).blk = s.blk := rfl
@[simp] theorem State.modSeq_seq (s : State) (f : Seq → Seq) : (s.modSeq f).seq =
    f s.seq := rfl
@[simp] theorem State.modSeq_ifc (s : State) (f : Seq → Seq) : (s.modSeq f).ifc = s.ifc := rfl
@[simp] theorem State.modSeq_trc (s : State) (f : Seq → Seq) : (s.modSeq f).trc = s.trc := rfl
@[simp] theorem State.modSeq_world (s : State) (f : Seq → Seq) : (s.modSeq f).world = s.world := rfl
@[simp] theorem State.modSeq_draws (s : State) (f : Seq → Seq) : (s.modSeq f).draws = s.draws := rfl
@[simp] theorem State.modSeq_build (s : State) (f : Seq → Seq) : (s.modSeq f).build = s.build := rfl
@[simp] theorem State.modSeq_port (s : State) (f : Seq → Seq) (q : Port) : (s.modSeq f).port q = s.port q := rfl
@[simp] theorem State.modSeq_drv (s : State) (f : Seq → Seq) (q : Port) : (s.modSeq f).drv q = s.drv q := rfl

@[simp] theorem State.modLoc_blk (s : State) (f : Locals → Locals) : (s.modLoc f).blk = s.blk := rfl
@[simp] theorem State.modLoc_seq (s : State) (f : Locals → Locals) : (s.modLoc f).seq =
    { s.seq with loc := f s.seq.loc } := rfl
@[simp] theorem State.modLoc_ifc (s : State) (f : Locals → Locals) : (s.modLoc f).ifc = s.ifc := rfl
@[simp] theorem State.modLoc_trc (s : State) (f : Locals → Locals) : (s.modLoc f).trc = s.trc := rfl
@[simp] theorem State.modLoc_world (s : State) (f : Locals → Locals) : (s.modLoc f).world = s.world := rfl
@[simp] theorem State.modLoc_draws (s : State) (f : Locals → Locals) : (s.modLoc f).draws = s.draws := rfl
@[simp] theorem State.modLoc_build (s : State) (f : Locals → Locals) : (s.modLoc f).build = s.build := rfl
@[simp] theorem State.modLoc_port (s : State) (f : Locals → Locals) (q : Port) : (s.modLoc f).port q = s.port q := rfl
@[simp] theorem State.modLoc_drv (s : State) (f : Locals → Locals) (q : Port) : (s.modLoc f).drv q = s.drv q := rfl

@[simp] theorem State.tick_blk (s : State) : (s.tick).blk = s.blk := rfl
@[simp] theorem State.tick_seq (s : State) : (s.tick).seq = s.seq := rfl
@[simp] theorem State.tick_ifc (s : State) : (s.tick).ifc = s.ifc := rfl
@[simp] theorem State.tick_trc (s : State) : (s.tick).trc = s.trc := rfl
@[simp] theorem State.tick_world (s : State) : (s.tick).world = s.world := rfl
@[simp] theorem State.tick_draws (s : State) : (s.tick).draws =
    s.draws + 1 := rfl
@[simp] theorem State.tick_build (s : State) : (s.tick).build = s.build := rfl
@[simp] theorem State.tick_port (s : State) (q : Port) : (s.tick).port q = s.port q := rfl
@[simp] theorem State.tick_drv (s : State) (q : Port) : (s.tick).drv q = s.drv q := rfl

@[simp] theorem State.log_blk (s : State) (w : Issuer) (x : Prim) : (s.log w x).blk = s.blk := rfl
@[simp] theorem State.log_seq (s : State) (w : Issuer) (x : Prim) : (s.log w x).seq = s.seq := rfl
@[simp] theorem State.log_ifc (s : State) (w : Issuer) (x : Prim) : (s.log w x).ifc = s.ifc := rfl
@[simp] theorem State.log_trc (s : State) (w : Issuer) (x : Prim) : (s.log w x).trc =
    { s.trc with primlog := s.trc.primlog ++ [⟨w, x⟩] } := rfl
@[simp] theorem State.log_world (s : State) (w : Issuer) (x : Prim) : (s.log w x).world = s.world := rfl
@[simp] theorem State.log_draws (s : State) (w : Issuer) (x : Prim) : (s.log w x).draws = s.draws := rfl
@[simp] theorem State.log_build (s : State) (w : Issuer) (x : Prim) : (s.log w x).build = s.build := rfl
@[simp] theorem State.log_port (s : State) (w : Issuer) (x : Prim) (q : Port) : (s.log w x).port q = s.port q := rfl
@[simp] theorem State.log_drv (s : State) (w : Issuer) (x : Prim) (q : Port) : (s.log w x).drv q = s.drv q := rfl

@[simp] theorem State.writeData_blk (s : State) (p : Port) (b : Byte) : (s.writeData p b).blk = s.blk := rfl
@[simp] theorem State.writeData_seq (s : State) (p : Port) (b : Byte) : (s.writeData p b).seq = s.seq := rfl
@[simp] theorem State.writeData_ifc (s : State) (p : Port) (b : Byte) : (s.writeData p b).ifc = s.ifc := rfl
@[simp] theorem State.writeData_trc (s : State) (p : Port) (b : Byte) : (s.writeData p b).trc =
    { s.trc with
      primlog := s.trc.primlog ++ [⟨.sequencer, .writeData p b⟩]
      txlog := s.trc.txlog.set p (s.trc.txlog.get p ++ [b]) } := rfl
@[simp] theorem State.writeData_world (s : State) (p : Port) (b : Byte) : (s.writeData p b).world = s.world := rfl
@[simp] theorem State.writeData_draws (s : State) (p : Port) (b : Byte) : (s.writeData p b).draws = s.draws := rfl
@[simp] theorem State.writeData_build (s : State) (p : Port) (b : Byte) : (s.writeData p b).build = s.build := rfl
@[simp] theorem State.writeData_port (s : State) (p : Port) (b : Byte) (q : Port) : (s.writeData p b).port q = s.port q := rfl
@[simp] theorem State.writeData_drv (s : State) (p : Port) (b : Byte) (q : Port) : (s.writeData p b).drv q = s.drv q := rfl

@[simp] theorem State.cbInvoke_blk (s : State) (p : Port) (c : Word) (b : Byte) (x : Word) : (s.cbInvoke p c b x).blk = s.blk := rfl
@[simp] theorem State.cbInvoke_seq (s : State) (p : Port) (c : Word) (b : Byte) (x : Word) : (s.cbInvoke p c b x).seq = s.seq := rfl
@[simp] theorem State.cbInvoke_ifc (s : State) (p : Port) (c : Word) (b : Byte) (x : Word) : (s.cbInvoke p c b x).ifc = s.ifc := rfl
@[simp] theorem State.cbInvoke_trc (s : State) (p : Port) (c : Word) (b : Byte) (x : Word) : (s.cbInvoke p c b x).trc =
    { s.trc with
      primlog := s.trc.primlog ++ [⟨.handler p, .cbInvoke c b x⟩]
      cblog := s.trc.cblog ++ [⟨p, c, b, x⟩] } := rfl
@[simp] theorem State.cbInvoke_world (s : State) (p : Port) (c : Word) (b : Byte) (x : Word) : (s.cbInvoke p c b x).world = s.world := rfl
@[simp] theorem State.cbInvoke_draws (s : State) (p : Port) (c : Word) (b : Byte) (x : Word) : (s.cbInvoke p c b x).draws = s.draws := rfl
@[simp] theorem State.cbInvoke_build (s : State) (p : Port) (c : Word) (b : Byte) (x : Word) : (s.cbInvoke p c b x).build = s.build := rfl
@[simp] theorem State.cbInvoke_port (s : State) (p : Port) (c : Word) (b : Byte) (x : Word) (q : Port) : (s.cbInvoke p c b x).port q = s.port q := rfl
@[simp] theorem State.cbInvoke_drv (s : State) (p : Port) (c : Word) (b : Byte) (x : Word) (q : Port) : (s.cbInvoke p c b x).drv q = s.drv q := rfl

@[simp] theorem State.setWasEnabled_blk (s : State) (p : Port) (v : Bool) : (s.setWasEnabled p v).blk =
    { s.blk with drv := s.blk.drv.set p { s.blk.drv.get p with wasEnabled := v } } := rfl
@[simp] theorem State.setWasEnabled_seq (s : State) (p : Port) (v : Bool) : (s.setWasEnabled p v).seq = s.seq := rfl
@[simp] theorem State.setWasEnabled_ifc (s : State) (p : Port) (v : Bool) : (s.setWasEnabled p v).ifc = s.ifc := rfl
@[simp] theorem State.setWasEnabled_trc (s : State) (p : Port) (v : Bool) : (s.setWasEnabled p v).trc = s.trc := rfl
@[simp] theorem State.setWasEnabled_world (s : State) (p : Port) (v : Bool) : (s.setWasEnabled p v).world = s.world := rfl
@[simp] theorem State.setWasEnabled_draws (s : State) (p : Port) (v : Bool) : (s.setWasEnabled p v).draws = s.draws := rfl
@[simp] theorem State.setWasEnabled_build (s : State) (p : Port) (v : Bool) : (s.setWasEnabled p v).build = s.build := rfl
@[simp] theorem State.setWasEnabled_port (s : State) (p : Port) (v : Bool) (q : Port) : (s.setWasEnabled p v).port q = s.port q := rfl

@[simp] theorem State.setCb_blk (s : State) (p : Port) (v : Word) : (s.setCb p v).blk =
    { s.blk with drv := s.blk.drv.set p { s.blk.drv.get p with cb := v } } := rfl
@[simp] theorem State.setCb_seq (s : State) (p : Port) (v : Word) : (s.setCb p v).seq = s.seq := rfl
@[simp] theorem State.setCb_ifc (s : State) (p : Port) (v : Word) : (s.setCb p v).ifc = s.ifc := rfl
@[simp] theorem State.setCb_trc (s : State) (p : Port) (v : Word) : (s.setCb p v).trc = s.trc := rfl
@[simp] theorem State.setCb_world (s : State) (p : Port) (v : Word) : (s.setCb p v).world = s.world := rfl
@[simp] theorem State.setCb_draws (s : State) (p : Port) (v : Word) : (s.setCb p v).draws = s.draws := rfl
@[simp] theorem State.setCb_build (s : State) (p : Port) (v : Word) : (s.setCb p v).build = s.build := rfl
@[simp] theorem State.setCb_port (s : State) (p : Port) (v : Word) (q : Port) : (s.setCb p v).port q = s.port q := rfl

@[simp] theorem State.setCtx_blk (s : State) (p : Port) (v : Word) : (s.setCtx p v).blk =
    { s.blk with drv := s.blk.drv.set p { s.blk.drv.get p with ctx := v } } := rfl
@[simp] theorem State.setCtx_seq (s : State) (p : Port) (v : Word) : (s.setCtx p v).seq = s.seq := rfl
@[simp] theorem State.setCtx_ifc (s : State) (p : Port) (v : Word) : (s.setCtx p v).ifc = s.ifc := rfl
@[simp] theorem State.setCtx_trc (s : State) (p : Port) (v : Word) : (s.setCtx p v).trc = s.trc := rfl
@[simp] theorem State.setCtx_world (s : State) (p : Port) (v : Word) : (s.setCtx p v).world = s.world := rfl
@[simp] theorem State.setCtx_draws (s : State) (p : Port) (v : Word) : (s.setCtx p v).draws = s.draws := rfl
@[simp] theorem State.setCtx_build (s : State) (p : Port) (v : Word) : (s.setCtx p v).build = s.build := rfl
@[simp] theorem State.setCtx_port (s : State) (p : Port) (v : Word) (q : Port) : (s.setCtx p v).port q = s.port q := rfl

@[simp] theorem State.setDeinited_blk (s : State) (p : Port) : (s.setDeinited p).blk =
    { s.blk with drv := s.blk.drv.set p { s.blk.drv.get p with deinited := true } } := rfl
@[simp] theorem State.setDeinited_seq (s : State) (p : Port) : (s.setDeinited p).seq = s.seq := rfl
@[simp] theorem State.setDeinited_ifc (s : State) (p : Port) : (s.setDeinited p).ifc = s.ifc := rfl
@[simp] theorem State.setDeinited_trc (s : State) (p : Port) : (s.setDeinited p).trc = s.trc := rfl
@[simp] theorem State.setDeinited_world (s : State) (p : Port) : (s.setDeinited p).world = s.world := rfl
@[simp] theorem State.setDeinited_draws (s : State) (p : Port) : (s.setDeinited p).draws = s.draws := rfl
@[simp] theorem State.setDeinited_build (s : State) (p : Port) : (s.setDeinited p).build = s.build := rfl
@[simp] theorem State.setDeinited_port (s : State) (p : Port) (q : Port) : (s.setDeinited p).port q = s.port q := rfl

@[simp] theorem State.advance_blk (s : State) : (s.advance).blk = s.blk := rfl
@[simp] theorem State.advance_seq (s : State) : (s.advance).seq =
    { s.seq with upc := { s.seq.upc with step := s.seq.upc.step + 1 } } := rfl
@[simp] theorem State.advance_ifc (s : State) : (s.advance).ifc = s.ifc := rfl
@[simp] theorem State.advance_trc (s : State) : (s.advance).trc = s.trc := rfl
@[simp] theorem State.advance_world (s : State) : (s.advance).world = s.world := rfl
@[simp] theorem State.advance_draws (s : State) : (s.advance).draws = s.draws := rfl
@[simp] theorem State.advance_build (s : State) : (s.advance).build = s.build := rfl
@[simp] theorem State.advance_port (s : State) (q : Port) : (s.advance).port q = s.port q := rfl
@[simp] theorem State.advance_drv (s : State) (q : Port) : (s.advance).drv q = s.drv q := rfl

@[simp] theorem State.jump_blk (s : State) (k : Nat) : (s.jump k).blk = s.blk := rfl
@[simp] theorem State.jump_seq (s : State) (k : Nat) : (s.jump k).seq =
    { s.seq with upc := { s.seq.upc with step := k } } := rfl
@[simp] theorem State.jump_ifc (s : State) (k : Nat) : (s.jump k).ifc = s.ifc := rfl
@[simp] theorem State.jump_trc (s : State) (k : Nat) : (s.jump k).trc = s.trc := rfl
@[simp] theorem State.jump_world (s : State) (k : Nat) : (s.jump k).world = s.world := rfl
@[simp] theorem State.jump_draws (s : State) (k : Nat) : (s.jump k).draws = s.draws := rfl
@[simp] theorem State.jump_build (s : State) (k : Nat) : (s.jump k).build = s.build := rfl
@[simp] theorem State.jump_port (s : State) (k : Nat) (q : Port) : (s.jump k).port q = s.port q := rfl
@[simp] theorem State.jump_drv (s : State) (k : Nat) (q : Port) : (s.jump k).drv q = s.drv q := rfl

@[simp] theorem State.nextIdx_blk (s : State) : (s.nextIdx).blk = s.blk := rfl
@[simp] theorem State.nextIdx_seq (s : State) : (s.nextIdx).seq =
    { s.seq with upc := { s.seq.upc with idx := s.seq.upc.idx + 1 } } := rfl
@[simp] theorem State.nextIdx_ifc (s : State) : (s.nextIdx).ifc = s.ifc := rfl
@[simp] theorem State.nextIdx_trc (s : State) : (s.nextIdx).trc = s.trc := rfl
@[simp] theorem State.nextIdx_world (s : State) : (s.nextIdx).world = s.world := rfl
@[simp] theorem State.nextIdx_draws (s : State) : (s.nextIdx).draws = s.draws := rfl
@[simp] theorem State.nextIdx_build (s : State) : (s.nextIdx).build = s.build := rfl
@[simp] theorem State.nextIdx_port (s : State) (q : Port) : (s.nextIdx).port q = s.port q := rfl
@[simp] theorem State.nextIdx_drv (s : State) (q : Port) : (s.nextIdx).drv q = s.drv q := rfl

@[simp] theorem State.done_blk (s : State) : (s.done).blk = s.blk := rfl
@[simp] theorem State.done_seq (s : State) : (s.done).seq =
    { s.seq with busy := false } := rfl
@[simp] theorem State.done_ifc (s : State) : (s.done).ifc = s.ifc := rfl
@[simp] theorem State.done_trc (s : State) : (s.done).trc = s.trc := rfl
@[simp] theorem State.done_world (s : State) : (s.done).world = s.world := rfl
@[simp] theorem State.done_draws (s : State) : (s.done).draws = s.draws := rfl
@[simp] theorem State.done_build (s : State) : (s.done).build = s.build := rfl
@[simp] theorem State.done_port (s : State) (q : Port) : (s.done).port q = s.port q := rfl
@[simp] theorem State.done_drv (s : State) (q : Port) : (s.done).drv q = s.drv q := rfl

@[simp] theorem State.doneWith_blk (s : State) (v : Word) : (s.doneWith v).blk = s.blk := rfl
@[simp] theorem State.doneWith_seq (s : State) (v : Word) : (s.doneWith v).seq =
    { s.seq with busy := false, resp := v, respValid := true } := rfl
@[simp] theorem State.doneWith_ifc (s : State) (v : Word) : (s.doneWith v).ifc = s.ifc := rfl
@[simp] theorem State.doneWith_trc (s : State) (v : Word) : (s.doneWith v).trc = s.trc := rfl
@[simp] theorem State.doneWith_world (s : State) (v : Word) : (s.doneWith v).world = s.world := rfl
@[simp] theorem State.doneWith_draws (s : State) (v : Word) : (s.doneWith v).draws = s.draws := rfl
@[simp] theorem State.doneWith_build (s : State) (v : Word) : (s.doneWith v).build = s.build := rfl
@[simp] theorem State.doneWith_port (s : State) (v : Word) (q : Port) : (s.doneWith v).port q = s.port q := rfl
@[simp] theorem State.doneWith_drv (s : State) (v : Word) (q : Port) : (s.doneWith v).drv q = s.drv q := rfl

@[simp] theorem State.raiseFatal_blk (s : State) (r : FatalReason) : (s.raiseFatal r).blk =
    { s.blk with fatal := true, fatalReason := r.code } := rfl
@[simp] theorem State.raiseFatal_seq (s : State) (r : FatalReason) : (s.raiseFatal r).seq = s.seq := rfl
@[simp] theorem State.raiseFatal_ifc (s : State) (r : FatalReason) : (s.raiseFatal r).ifc = s.ifc := rfl
@[simp] theorem State.raiseFatal_trc (s : State) (r : FatalReason) : (s.raiseFatal r).trc = s.trc := rfl
@[simp] theorem State.raiseFatal_world (s : State) (r : FatalReason) : (s.raiseFatal r).world = s.world := rfl
@[simp] theorem State.raiseFatal_draws (s : State) (r : FatalReason) : (s.raiseFatal r).draws = s.draws := rfl
@[simp] theorem State.raiseFatal_build (s : State) (r : FatalReason) : (s.raiseFatal r).build = s.build := rfl
@[simp] theorem State.raiseFatal_port (s : State) (r : FatalReason) (q : Port) : (s.raiseFatal r).port q = s.port q := rfl
@[simp] theorem State.raiseFatal_drv (s : State) (r : FatalReason) (q : Port) : (s.raiseFatal r).drv q = s.drv q := rfl

@[simp] theorem State.withTurns_blk (s : State) (r : List Turn) : (s.withTurns r).blk = s.blk := rfl
@[simp] theorem State.withTurns_seq (s : State) (r : List Turn) : (s.withTurns r).seq = s.seq := rfl
@[simp] theorem State.withTurns_ifc (s : State) (r : List Turn) : (s.withTurns r).ifc = s.ifc := rfl
@[simp] theorem State.withTurns_trc (s : State) (r : List Turn) : (s.withTurns r).trc = s.trc := rfl
@[simp] theorem State.withTurns_world (s : State) (r : List Turn) : (s.withTurns r).world =
    { s.world with turns := r } := rfl
@[simp] theorem State.withTurns_draws (s : State) (r : List Turn) : (s.withTurns r).draws = s.draws := rfl
@[simp] theorem State.withTurns_build (s : State) (r : List Turn) : (s.withTurns r).build = s.build := rfl
@[simp] theorem State.withTurns_port (s : State) (r : List Turn) (q : Port) : (s.withTurns r).port q = s.port q := rfl
@[simp] theorem State.withTurns_drv (s : State) (r : List Turn) (q : Port) : (s.withTurns r).drv q = s.drv q := rfl

@[simp] theorem State.arrive_blk (s : State) (p : Port) (b : Byte) : (s.arrive p b).blk = s.blk := rfl
@[simp] theorem State.arrive_seq (s : State) (p : Port) (b : Byte) : (s.arrive p b).seq = s.seq := rfl
@[simp] theorem State.arrive_ifc (s : State) (p : Port) (b : Byte) : (s.arrive p b).ifc =
    s.ifc.modPort p fun e =>
      if e.rxne then { e with ore := true } else { e with rxne := true, rdr := b } := rfl
@[simp] theorem State.arrive_trc (s : State) (p : Port) (b : Byte) : (s.arrive p b).trc = s.trc := rfl
@[simp] theorem State.arrive_world (s : State) (p : Port) (b : Byte) : (s.arrive p b).world = s.world := rfl
@[simp] theorem State.arrive_draws (s : State) (p : Port) (b : Byte) : (s.arrive p b).draws = s.draws := rfl
@[simp] theorem State.arrive_build (s : State) (p : Port) (b : Byte) : (s.arrive p b).build = s.build := rfl
@[simp] theorem State.arrive_drv (s : State) (p : Port) (b : Byte) (q : Port) : (s.arrive p b).drv q = s.drv q := rfl

@[simp] theorem State.accept_blk (s : State) (pk : Packet) : (s.accept pk).blk = s.blk := rfl
@[simp] theorem State.accept_ifc (s : State) (pk : Packet) : (s.accept pk).ifc = s.ifc := rfl
@[simp] theorem State.accept_trc (s : State) (pk : Packet) : (s.accept pk).trc = s.trc := rfl
@[simp] theorem State.accept_world (s : State) (pk : Packet) : (s.accept pk).world = s.world := rfl
@[simp] theorem State.accept_draws (s : State) (pk : Packet) : (s.accept pk).draws =
    s.draws + 1 := rfl
@[simp] theorem State.accept_build (s : State) (pk : Packet) : (s.accept pk).build = s.build := rfl
@[simp] theorem State.accept_port (s : State) (pk : Packet) (q : Port) : (s.accept pk).port q = s.port q := rfl
@[simp] theorem State.accept_drv (s : State) (pk : Packet) (q : Port) : (s.accept pk).drv q = s.drv q := rfl

@[simp] theorem State.modPort_port (s : State) (p : Port) (f : PortEnv → PortEnv) :
    (s.modPort p f).port p = f (s.port p) := by simp [State.port]
@[simp] theorem State.modPort_port_other (s : State) (p : Port) (f : PortEnv → PortEnv) :
    (s.modPort p f).port p.other = s.port p.other := by simp [State.port]
@[simp] theorem State.modDrv_drv (s : State) (p : Port) (f : Driver → Driver) :
    (s.modDrv p f).drv p = f (s.drv p) := by simp [State.drv]
@[simp] theorem State.modDrv_drv_other (s : State) (p : Port) (f : Driver → Driver) :
    (s.modDrv p f).drv p.other = s.drv p.other := by simp [State.drv]

@[simp] theorem State.setWasEnabled_drv (s : State) (p : Port) (v : Bool) :
    (s.setWasEnabled p v).drv p = { s.drv p with wasEnabled := v } := by simp [State.drv]
@[simp] theorem State.setWasEnabled_drv_other (s : State) (p : Port) (v : Bool) :
    (s.setWasEnabled p v).drv p.other = s.drv p.other := by simp [State.drv]
@[simp] theorem State.setCb_drv (s : State) (p : Port) (v : Word) :
    (s.setCb p v).drv p = { s.drv p with cb := v } := by simp [State.drv]
@[simp] theorem State.setCb_drv_other (s : State) (p : Port) (v : Word) :
    (s.setCb p v).drv p.other = s.drv p.other := by simp [State.drv]
@[simp] theorem State.setCtx_drv (s : State) (p : Port) (v : Word) :
    (s.setCtx p v).drv p = { s.drv p with ctx := v } := by simp [State.drv]
@[simp] theorem State.setCtx_drv_other (s : State) (p : Port) (v : Word) :
    (s.setCtx p v).drv p.other = s.drv p.other := by simp [State.drv]
@[simp] theorem State.setDeinited_drv (s : State) (p : Port) :
    (s.setDeinited p).drv p = { s.drv p with deinited := true } := by simp [State.drv]
@[simp] theorem State.setDeinited_drv_other (s : State) (p : Port) :
    (s.setDeinited p).drv p.other = s.drv p.other := by simp [State.drv]

@[simp] theorem State.accept_x0 (s : State) (pk : Packet) : (s.accept pk).seq.x0 = pk.header := rfl
@[simp] theorem State.accept_x1 (s : State) (pk : Packet) :
    (s.accept pk).seq.x1 = Packet.arg0 pk s.draws := rfl
@[simp] theorem State.accept_x2 (s : State) (pk : Packet) :
    (s.accept pk).seq.x2 = Packet.arg1 pk s.draws := rfl
@[simp] theorem State.accept_txbuf (s : State) (pk : Packet) :
    (s.accept pk).seq.txbuf = acceptedBeats pk s.seq.txbuf := rfl
@[simp] theorem State.accept_busy (s : State) (pk : Packet) : (s.accept pk).seq.busy = true := rfl
@[simp] theorem State.accept_upc (s : State) (pk : Packet) :
    (s.accept pk).seq.upc = ⟨opField pk.header, 1, 0⟩ := rfl
@[simp] theorem State.accept_respValid (s : State) (pk : Packet) :
    (s.accept pk).seq.respValid = false := rfl
@[simp] theorem State.accept_resp (s : State) (pk : Packet) : (s.accept pk).seq.resp = s.seq.resp := rfl
@[simp] theorem State.accept_loc (s : State) (pk : Packet) : (s.accept pk).seq.loc = s.seq.loc := rfl

end Sys2Proof.Machine
end

