-- ==== Sys2Proof/Laws/Ops.lean ====
section
/-!
SUPPORT. For each shared operation one lemma that says what it can do: what a draw and a register access
leave alone and what they do in the reference settings, and what each primitive leaves alone (`Issues`).
-/

namespace Sys2Proof.Machine

/-! ### Draws -/

/-- What a draw leaves alone: everything but the listed answers and the draw counter. -/
structure DrawKeeps (s t : State) : Prop where
  blk : t.blk = s.blk
  seq : t.seq = s.seq
  ifc : t.ifc = s.ifc
  trc : t.trc = s.trc
  build : t.build = s.build
  cmds : t.world.cmds = s.world.cmds
  turns : t.world.turns = s.world.turns

theorem DrawKeeps.refl (s : State) : DrawKeeps s s := ⟨rfl, rfl, rfl, rfl, rfl, rfl, rfl⟩

theorem DrawKeeps.trans {s t u : State} (h : DrawKeeps s t) (k : DrawKeeps t u) : DrawKeeps s u :=
  ⟨k.blk.trans h.blk, k.seq.trans h.seq, k.ifc.trans h.ifc, k.trc.trans h.trc, k.build.trans h.build,
    k.cmds.trans h.cmds, k.turns.trans h.turns⟩

theorem drawBit_keeps (s : State) (k : Config.FreeBit) : DrawKeeps s (s.drawBit k).state := by
  unfold State.drawBit
  split <;> constructor <;> rfl

theorem drawBit_listed {s : State} {b : Bool} {r : List Bool} (h : s.world.polls = b :: r)
    (k : Config.FreeBit) :
    s.drawBit k = ⟨b, true, { s with world := { s.world with polls := r } }⟩ := by
  simp [State.drawBit, h]

theorem drawBit_free {s : State} (h : s.world.polls = []) (k : Config.FreeBit) :
    s.drawBit k = ⟨Config.freeBit k s.draws, false, s.tick⟩ := by
  simp [State.drawBit, h]

theorem drawFreq_keeps (s : State) (p : Port) : DrawKeeps s (s.drawFreq p).state := by
  unfold State.drawFreq
  split <;> constructor <;> rfl

/-! ### Register accesses -/

theorem gated_eq_false {s : State} (h : s.build.gatedSafe = false) (p : Port) : s.gated p = false := by
  simp [State.gated, h]

/-- In the reference setting the bus clock gates nothing (20_memory.md R90). -/
theorem regWrite_reference {s : State} (h : s.build.gatedSafe = false) (p : Port) (f : Iface → Iface) :
    s.regWrite p f = { s with ifc := f s.ifc } := by
  simp [State.regWrite, gated_eq_false h]

theorem regQuery_reference {s : State} (h : s.build.gatedSafe = false) (p : Port) (v : Bool) :
    s.regQuery p v = ⟨v, true, s⟩ := by
  simp [State.regQuery, gated_eq_false h]

theorem configured_reference {s : State} (h : s.build.reinitCautious = false) (p : Port)
    (k : Config.FreeBit) : s.configured p k = true := by
  simp [State.configured, h]

/-- What a register access leaves alone, and the one thing it may do to the interface state. -/
structure RegKeeps (f : Iface → Iface) (s t : State) : Prop where
  blk : t.blk = s.blk
  seq : t.seq = s.seq
  trc : t.trc = s.trc
  build : t.build = s.build
  cmds : t.world.cmds = s.world.cmds
  turns : t.world.turns = s.world.turns
  ifc : t.ifc = s.ifc ∨ t.ifc = f s.ifc

theorem regWrite_keeps (s : State) (p : Port) (f : Iface → Iface) : RegKeeps f s (s.regWrite p f) := by
  have d := drawBit_keeps s (.gatedWrite p)
  unfold State.regWrite
  split
  · dsimp only
    split
    · exact ⟨d.blk, d.seq, d.trc, d.build, d.cmds, d.turns, .inr (congrArg f d.ifc)⟩
    · exact ⟨d.blk, d.seq, d.trc, d.build, d.cmds, d.turns, .inl d.ifc⟩
  · exact ⟨rfl, rfl, rfl, rfl, rfl, rfl, .inr rfl⟩

theorem regQuery_keeps (s : State) (p : Port) (v : Bool) : DrawKeeps s (s.regQuery p v).state := by
  unfold State.regQuery
  split
  · exact drawBit_keeps s _
  · exact .refl s

/-! ### Primitives -/

/-- What issuing the primitives `x` from `w` can do: block state, sequencer, build, the caller's packets and
the preemption points are kept; the log grows by exactly `x` and the two projected traces not at all; the
interface state is either kept or changed as `f` says (always changed, in the reference setting). -/
structure Issues (w : Issuer) (x : List Prim) (f : Iface → Iface) (s t : State) : Prop where
  blk : t.blk = s.blk
  seq : t.seq = s.seq
  build : t.build = s.build
  cmds : t.world.cmds = s.world.cmds
  turns : t.world.turns = s.world.turns
  primlog : t.trc.primlog = s.trc.primlog ++ x.map (⟨w, ·⟩)
  txlog : t.trc.txlog = s.trc.txlog
  cblog : t.trc.cblog = s.trc.cblog
  ifc : t.ifc = s.ifc ∨ t.ifc = f s.ifc

/-- A query changes no interface state. -/
theorem Issues.query {w : Issuer} {x : List Prim} {s t : State} (h : Issues w x id s t) :
    t.ifc = s.ifc := h.ifc.elim id id

/-- A primitive of port `p` leaves the other port and `async_mode` alone. -/
theorem Issues.others {w : Issuer} {x : List Prim} {p : Port} {g : PortEnv → PortEnv} {s t : State}
    (h : Issues w x (·.modPort p g) s t) :
    t.port p.other = s.port p.other ∧ t.ifc.asyncMode = s.ifc.asyncMode := by
  rcases h.ifc with e | e <;> simp [State.port, e]

/-- What it does to its own port, if anything. -/
theorem Issues.own {w : Issuer} {x : List Prim} {p : Port} {g : PortEnv → PortEnv} {s t : State}
    (h : Issues w x (·.modPort p g) s t) : t.port p = s.port p ∨ t.port p = g (s.port p) := by
  rcases h.ifc with e | e <;> simp [State.port, e]

theorem Issues.drv {w : Issuer} {x : List Prim} {f : Iface → Iface} {s t : State}
    (h : Issues w x f s t) (q : Port) : t.drv q = s.drv q := by
  simp [State.drv, h.blk]

/-- A recorded register write. -/
theorem regWrite_log_issues (s : State) (p : Port) (f : Iface → Iface) (w : Issuer) (x : Prim) :
    Issues w [x] f s ((s.regWrite p f).log w x) := by
  have d := regWrite_keeps s p f
  exact ⟨d.blk, d.seq, d.build, d.cmds, d.turns, by simp [d.trc], by simp [d.trc], by simp [d.trc], d.ifc⟩

/-- A recorded register write that also takes a draw. -/
theorem regWrite_tick_log_issues (s : State) (p : Port) (f : Iface → Iface) (w : Issuer) (x : Prim) :
    Issues w [x] f s ((s.regWrite p f).tick.log w x) := by
  have d := regWrite_keeps s p f
  exact ⟨d.blk, d.seq, d.build, d.cmds, d.turns, by simp [d.trc], by simp [d.trc], by simp [d.trc], d.ifc⟩

/-- A recorded write that no bus clock gates. -/
theorem modPort_log_issues (s : State) (p : Port) (f : PortEnv → PortEnv) (w : Issuer) (x : Prim) :
    Issues w [x] (·.modPort p f) s ((s.modPort p f).log w x) :=
  ⟨rfl, rfl, rfl, rfl, rfl, by simp, rfl, rfl, .inr rfl⟩

theorem busEnable_issues (s : State) (p : Port) :
    Issues .sequencer [.busEnable p] (·.modPort p fun e => { e with busclk := true }) s (s.busEnable p) :=
  modPort_log_issues ..

theorem busDisable_issues (s : State) (p : Port) :
    Issues .sequencer [.busDisable p] (·.modPort p fun e => { e with busclk := false }) s
      (s.busDisable p) := modPort_log_issues ..

theorem clkSrcSelect_issues (s : State) (p : Port) :
    Issues .sequencer [.clkSrcSelect p] (·.modPort p fun e => { e with clksel := true }) s
      (s.clkSrcSelect p) := modPort_log_issues ..

theorem pinCfgAF_issues (s : State) (p : Port) (d : Dir) :
    Issues .sequencer [.pinCfgAF ((Config.descOf p).pin.get d) (Config.descOf p).af]
      (·.modPort p fun e => { e with pins := e.pins.set d (.altFn (Config.descOf p).af) }) s
      (s.pinCfgAF p d) := modPort_log_issues ..

theorem pinCfgAnalog_issues (s : State) (p : Port) (d : Dir) :
    Issues .sequencer [.pinCfgAnalog ((Config.descOf p).pin.get d)]
      (·.modPort p fun e => { e with pins := e.pins.set d .analog }) s (s.pinCfgAnalog p d) :=
  modPort_log_issues ..

theorem vecAttach_issues (s : State) (p : Port) :
    Issues .sequencer [.vecAttach p] (·.modPort p fun e => { e with vec := .attached }) s
      (s.vecAttach p) := modPort_log_issues ..

theorem vecDetach_issues (s : State) (p : Port) :
    Issues .sequencer [.vecDetach p] (·.modPort p fun e => { e with vec := .detached }) s
      (s.vecDetach p) := modPort_log_issues ..

theorem periphConfig_issues (s : State) (p : Port) :
    Issues .sequencer [.periphConfig p]
      (·.modPort p fun e =>
        { e with frame := s.configured p (.reinitFrame p), dirEn := ⟨true, true⟩ })
      s (s.periphConfig p) := regWrite_tick_log_issues ..

theorem fifoEnable_issues (s : State) (p : Port) :
    Issues .sequencer [.fifoEnable p]
      (·.modPort p fun e => { e with fifoEn := s.configured p (.reinitFifo p) })
      s (s.fifoEnable p) := regWrite_tick_log_issues ..

theorem asyncModeUsart_issues (s : State) :
    Issues .sequencer [.asyncMode .usart]
      (fun i => { i with asyncMode := s.configured .usart .reinitAsync })
      s s.asyncModeUsart := regWrite_tick_log_issues ..

theorem periphEnable_issues (s : State) (p : Port) :
    Issues .sequencer [.periphEnable p] (·.modPort p fun e => { e with pe := true }) s
      (s.periphEnable p) := regWrite_log_issues ..

theorem periphDisable_issues (s : State) (p : Port) :
    Issues .sequencer [.periphDisable p] (·.modPort p fun e => { e with pe := false }) s
      (s.periphDisable p) := regWrite_log_issues ..

theorem dirEnable_issues (s : State) (p : Port) (d : Dir) :
    Issues .sequencer [.dirEnable p d] (·.modPort p fun e => { e with dirEn := e.dirEn.set d true }) s
      (s.dirEnable p d) := regWrite_log_issues ..

theorem dirDisable_issues (s : State) (p : Port) (d : Dir) :
    Issues .sequencer [.dirDisable p d] (·.modPort p fun e => { e with dirEn := e.dirEn.set d false }) s
      (s.dirDisable p d) := regWrite_log_issues ..

theorem setPrescaler_issues (s : State) (p : Port) (v : BitVec 6) :
    Issues .sequencer [.setPrescaler p v] (·.modPort p fun e => { e with presc := v }) s
      (s.setPrescaler p v) := regWrite_log_issues ..

theorem setDivisor_issues (s : State) (p : Port) (v : Word) :
    Issues .sequencer [.setDivisor p v] (·.modPort p fun e => { e with div := v }) s
      (s.setDivisor p v) := regWrite_log_issues ..

theorem rxneIrqEnable_issues (s : State) (p : Port) :
    Issues .sequencer [.rxneIrqEnable p] (·.modPort p fun e => { e with rxneIe := true }) s
      (s.rxneIrqEnable p) := regWrite_log_issues ..

theorem rxneIrqDisable_issues (s : State) (p : Port) :
    Issues .sequencer [.rxneIrqDisable p] (·.modPort p fun e => { e with rxneIe := false }) s
      (s.rxneIrqDisable p) := regWrite_log_issues ..

theorem errIrqDisable_issues (s : State) (p : Port) :
    Issues .sequencer [.errIrqDisable p] (·.modPort p fun e => { e with errIe := false }) s
      (s.errIrqDisable p) := regWrite_log_issues ..

theorem readData_issues (s : State) (p : Port) :
    Issues (.handler p) [.readData p (s.dataByte p)] (·.modPort p fun e => { e with rxne := false }) s
      (s.readData p) := regWrite_tick_log_issues ..

theorem clearOre_issues (s : State) (p : Port) :
    Issues (.handler p) [.clearORE p] (·.modPort p fun e => { e with ore := false }) s (s.clearOre p) :=
  regWrite_log_issues ..

theorem clkFreq_issues (s : State) (p : Port) :
    Issues .sequencer [.clkFreq p (s.clkFreq p).freq] id s (s.clkFreq p).state := by
  have d := drawFreq_keeps s p
  exact ⟨d.blk, d.seq, d.build, d.cmds, d.turns, by simp [State.clkFreq, d.trc],
    by simp [State.clkFreq, d.trc], by simp [State.clkFreq, d.trc], .inl d.ifc⟩

/-- A query of the port's registers changes nothing but the log and the draws. -/
theorem regQuery_log_issues (s : State) (p : Port) (v : Bool) (w : Issuer) (x : Bool → Prim) :
    Issues w [x ((s.regQuery p v).log w x).bit] id s ((s.regQuery p v).log w x).state := by
  have d := regQuery_keeps s p v
  exact ⟨d.blk, d.seq, d.build, d.cmds, d.turns, by simp [Drawn.log, d.trc],
    by simp [Drawn.log, d.trc], by simp [Drawn.log, d.trc], .inl d.ifc⟩

theorem periphIsEnabled_issues (s : State) (p : Port) :
    Issues .sequencer [.periphIsEnabled p (s.periphIsEnabled p).bit] id s (s.periphIsEnabled p).state :=
  regQuery_log_issues ..

theorem busIsEnabled_issues (s : State) (p : Port) :
    Issues .sequencer [.busIsEnabled p (s.port p).busclk] id s (s.busIsEnabled p).state :=
  ⟨rfl, rfl, rfl, rfl, rfl, by simp [State.busIsEnabled, Drawn.log], rfl, rfl, .inl rfl⟩

theorem flagRxne_issues (s : State) (p : Port) :
    Issues (.handler p) [.flagRXNE p (s.flagRxne p).bit] id s (s.flagRxne p).state :=
  regQuery_log_issues ..

theorem flagOre_issues (s : State) (p : Port) :
    Issues (.handler p) [.flagORE p (s.flagOre p).bit] id s (s.flagOre p).state :=
  regQuery_log_issues ..

/-! ### The queries in the reference setting -/

theorem periphIsEnabled_reference {s : State} (h : s.build.gatedSafe = false) (p : Port) :
    s.periphIsEnabled p =
      ⟨(s.port p).pe, true, s.log .sequencer (.periphIsEnabled p (s.port p).pe)⟩ := by
  simp [State.periphIsEnabled, Drawn.log, regQuery_reference h]

theorem flagRxne_reference {s : State} (h : s.build.gatedSafe = false) (p : Port) :
    s.flagRxne p = ⟨(s.port p).rxne, true, s.log (.handler p) (.flagRXNE p (s.port p).rxne)⟩ := by
  simp [State.flagRxne, Drawn.log, regQuery_reference h]

theorem flagOre_reference {s : State} (h : s.build.gatedSafe = false) (p : Port) :
    s.flagOre p = ⟨(s.port p).ore, true, s.log (.handler p) (.flagORE p (s.port p).ore)⟩ := by
  simp [State.flagOre, Drawn.log, regQuery_reference h]

theorem dataByte_reference {s : State} (h : s.build.gatedSafe = false) (p : Port) :
    s.dataByte p = (s.port p).rdr := by
  simp [State.dataByte, gated_eq_false h]

end Sys2Proof.Machine
end

