-- ==== Sys2Proof/Laws/Burst.lean ====
section
/-!
SUPPORT. What a burst of micro-steps can do, said once: it answers a next state that is reached by
micro-steps and quiet preemption points, or the stop of its first micro-step; and its equations when no
other agent moves. Then what the check step can do.
-/

namespace Sys2Proof.Machine

/-- The induction over a burst: a reflexive and transitive relation that every micro-step and every quiet
preemption point keeps holds of the burst's next state. -/
theorem burst_next {m : State → Micro} {R : State → State → Prop} (refl : ∀ s, R s s)
    (trans : ∀ {s t u}, R s t → R t u → R s u)
    (micro : ∀ s t more, m s = .run t more → R s t) (turns : ∀ s r, R s (s.withTurns r)) :
    ∀ {k s t}, burst m k s = .next t → R s t := by
  intro k
  induction k with
  | zero => intro s t h; cases h; exact refl s
  | succ k ih =>
    intro s t h
    have yield : ∀ a b, R s a → R a b → orYield a (burst m k b) = .next t → R s t := by
      intro a b hsa hab ho
      cases hb : burst m k b with
      | next c => rw [hb] at ho; cases ho; exact trans hsa (trans hab (ih hb))
      | fault f => rw [hb] at ho; cases ho; exact hsa
      | refused f => rw [hb] at ho; cases ho; exact hsa
    unfold burst at h
    split at h
    · cases h
    · next a hm => cases h; exact micro _ _ _ hm
    · next a hm =>
      have ha := micro _ _ _ hm
      split at h
      · exact yield a a ha (refl a) h
      · exact yield a _ ha (turns a _) h
      all_goals (cases h; exact ha)

/-- A property that every micro-step and every quiet preemption point keeps, a burst keeps. -/
theorem burst_inv {m : State → Micro} {P : State → Prop}
    (micro : ∀ s t more, P s → m s = .run t more → P t) (turns : ∀ s r, P s → P (s.withTurns r))
    {k : Nat} {s t : State} (hs : P s) (h : burst m k s = .next t) : P t :=
  burst_next (R := fun a b => P a → P b) (fun _ => id) (fun f g => g ∘ f)
    (fun _ _ _ hm ha => micro _ _ _ ha hm) (fun s r => turns s r) h hs

theorem orYield_not_fault {s : State} {o : Host.Outcome State Fault Refusal} {f : Fault} :
    orYield s o ≠ .fault f := by cases o <;> simp [orYield]

theorem orYield_not_refused {s : State} {o : Host.Outcome State Fault Refusal} {f : Refusal} :
    orYield s o ≠ .refused f := by cases o <;> simp [orYield]

/-- A burst stops only on its first micro-step. -/
theorem burst_fault {m : State → Micro} {k : Nat} {s : State} {f : Fault}
    (h : burst m k s = .fault f) : m s = .stop f := by
  cases k with
  | zero => cases h
  | succ k =>
    unfold burst at h
    split at h
    · next hm => cases h; exact hm
    · cases h
    · split at h
      · exact absurd h orYield_not_fault
      · exact absurd h orYield_not_fault
      all_goals cases h

/-- A burst refuses nothing. -/
theorem burst_not_refused {m : State → Micro} {k : Nat} {s : State} {f : Refusal} :
    burst m k s ≠ .refused f := by
  intro h
  cases k with
  | zero => cases h
  | succ k =>
    unfold burst at h
    split at h
    · cases h
    · cases h
    · split at h
      · exact absurd h orYield_not_refused
      · exact absurd h orYield_not_refused
      all_goals cases h

/-- A burst whose first micro-step does not stop answers a next state. -/
theorem burst_answers {m : State → Micro} {k : Nat} {s t : State} {more : Bool} (h : m s = .run t more) :
    ∃ u, burst m k s = .next u := by
  cases hb : burst m k s with
  | next u => exact ⟨u, rfl⟩
  | fault f => have := burst_fault hb; rw [h] at this; cases this
  | refused f => exact absurd hb burst_not_refused

/-- A micro-step that ends the burst. -/
theorem burst_last {m : State → Micro} {k : Nat} {s t : State} (h : m s = .run t false) :
    burst m (k + 1) s = .next t := by
  simp [burst, h]

/-- A micro-step after which nothing but the sequencer moves. -/
theorem burst_on {m : State → Micro} {k : Nat} {s t : State} (h : m s = .run t true)
    (q : t.world.turns = []) : burst m (k + 1) s = orYield t (burst m k t) := by
  simp [burst, h, q]

/-- The same, where the rest of the burst answers a next state. -/
theorem burst_step {m : State → Micro} {k : Nat} {s t u : State} (h : m s = .run t true)
    (q : t.world.turns = []) (r : burst m k t = .next u) : burst m (k + 1) s = .next u := by
  rw [burst_on h q, r]; rfl

/-- A micro-step before one the model stops on: the burst ends between them. -/
theorem burst_before_stop {m : State → Micro} {k : Nat} {s t : State} {f : Fault}
    (h : m s = .run t true) (q : t.world.turns = []) (n : m t = .stop f) :
    burst m (k + 1) s = .next t := by
  rw [burst_on h q]
  cases k with
  | zero => rfl
  | succ k => simp [burst, n, orYield]

/-! ### The check step -/

theorem checked_raises {r : FatalReason} {body : State → Micro} {s : State} (h : s.seq.upc.step = 1) :
    checked (some r) body s = .run (s.raiseFatal r) false := by
  simp [checked, h]

theorem checked_passes {body : State → Micro} {s : State} (h : s.seq.upc.step = 1) :
    checked none body s = .run s.advance true := by
  simp [checked, h, Micro.next]

theorem checked_body {body : State → Micro} {s : State} (h : s.seq.upc.step ≠ 1) :
    checked none body s = body s := by
  simp [checked, h]

/-- What a checked micro-step can do: raise at step 1, fall through from step 1, or be one of the body's,
and then the check passes. -/
theorem checked_cases {fault : Option FatalReason} {body : State → Micro} {s t : State} {more : Bool}
    (h : checked fault body s = .run t more) :
    (∃ r, fault = some r ∧ s.seq.upc.step = 1 ∧ t = s.raiseFatal r ∧ more = false) ∨
      (fault = none ∧ s.seq.upc.step = 1 ∧ t = s.advance ∧ more = true) ∨
      (fault = none ∧ s.seq.upc.step ≠ 1 ∧ body s = .run t more) := by
  cases fault with
  | some r =>
    by_cases h1 : s.seq.upc.step = 1
    · rw [checked_raises h1] at h; cases h; exact .inl ⟨r, rfl, h1, rfl, rfl⟩
    · simp [checked, h1] at h
  | none =>
    by_cases h1 : s.seq.upc.step = 1
    · rw [checked_passes h1] at h; cases h; exact .inr (.inl ⟨rfl, h1, rfl, rfl⟩)
    · rw [checked_body h1] at h; exact .inr (.inr ⟨rfl, h1, h⟩)

end Sys2Proof.Machine
end

