-- ==== Sys2Proof/Laws/Micro.lean ====
section
/-!
SUPPORT. Every command as one burst of its micro-program, so that a claim about all commands is a claim
about micro-steps; and what the shared micro-steps can do, one lemma each.
-/

namespace Sys2Proof.Machine

/-- The micro-program of a command, its check step included. -/
def microOf : Instr → State → Micro
  | .init h baud => withPort h (microInit baud)
  | .isBaudRateSupported h baud => withPort h (microIsBaudRateSupported baud)
  | .setBaudRate h baud => withPort h (microSetBaudRate baud)
  | .deinit h => withPort h microDeinit
  | .suspend h => withPort h microSuspend
  | .resume h => withPort h microResume
  | .tx h bytes => withPort h (microTx bytes)
  | .txWaitComplete h => withPort h microTxWaitComplete
  | .setRxCallback h callback context => withPort h (microSetRxCallback callback context)
  | .enableDirection h => withPortDir h microEnableDirection
  | .disableDirection h => withPortDir h microDisableDirection
  | .getGpioPin h => withPortDir h microGetGpioPin

/-- The later micro-steps of a command, on the port and direction its handle binds. -/
def bodyOf : Instr → State → Micro
  | .init h baud => microInit baud (boundPort h)
  | .isBaudRateSupported h baud => microIsBaudRateSupported baud (boundPort h)
  | .setBaudRate h baud => microSetBaudRate baud (boundPort h)
  | .deinit h => microDeinit (boundPort h)
  | .suspend h => microSuspend (boundPort h)
  | .resume h => microResume (boundPort h)
  | .tx h bytes => microTx bytes (boundPort h)
  | .txWaitComplete h => microTxWaitComplete (boundPort h)
  | .setRxCallback h callback context => microSetRxCallback callback context (boundPort h)
  | .enableDirection h => microEnableDirection (boundPort h) (boundDir h)
  | .disableDirection h => microDisableDirection (boundPort h) (boundDir h)
  | .getGpioPin h => microGetGpioPin (boundPort h) (boundDir h)

/-- The fuel of a command's burst. -/
def fuelOf : Instr → Nat
  | .tx _ bytes => loopFuel bytes.length
  | .init _ _ => straightFuel
  | .isBaudRateSupported _ _ => straightFuel
  | .setBaudRate _ _ => straightFuel
  | .deinit _ => straightFuel
  | .suspend _ => straightFuel
  | .resume _ => straightFuel
  | .txWaitComplete _ => straightFuel
  | .setRxCallback _ _ _ => straightFuel
  | .enableDirection _ => straightFuel
  | .disableDirection _ => straightFuel
  | .getGpioPin _ => straightFuel

theorem exec_eq_burst (i : Instr) (s : State) : exec i s = burst (microOf i) (fuelOf i) s := by
  cases i <;> rfl

theorem microOf_eq_checked (i : Instr) : microOf i = checked (instrFault i) (bodyOf i) := by
  cases i <;> rfl

/-- No fuel is short: a burst is at least twenty micro-steps long. -/
theorem fuelOf_eq (i : Instr) : ∃ k, fuelOf i = k + 20 := by
  cases i
  case tx h bytes => exact ⟨2 * bytes.length, by simp [fuelOf, loopFuel, Nat.add_comm]⟩
  all_goals exact ⟨0, rfl⟩

/-- The induction over a command: a reflexive and transitive relation that raising, passing the check, every
later micro-step and every quiet preemption point keep, holds of the next state. -/
theorem exec_next {i : Instr} {R : State → State → Prop} (refl : ∀ s, R s s)
    (trans : ∀ {s t u}, R s t → R t u → R s u)
    (raise : ∀ s r, instrFault i = some r → s.seq.upc.step = 1 → R s (s.raiseFatal r))
    (pass : ∀ s, instrFault i = none → s.seq.upc.step = 1 → R s s.advance)
    (body : ∀ s t more, instrFault i = none → s.seq.upc.step ≠ 1 → bodyOf i s = .run t more → R s t)
    (turns : ∀ s r, R s (s.withTurns r)) {s t : State} (h : exec i s = .next t) : R s t := by
  rw [exec_eq_burst] at h
  refine burst_next refl trans (fun a b more hm => ?_) turns h
  rw [microOf_eq_checked] at hm
  rcases checked_cases hm with ⟨r, hf, h1, rfl, -⟩ | ⟨hf, h1, rfl, -⟩ | ⟨hf, h1, hb⟩
  · exact raise _ _ hf h1
  · exact pass _ hf h1
  · exact body _ _ _ hf h1 hb

/-- A command stops only on its first micro-step, and that is none of the check. -/
theorem exec_fault {i : Instr} {s : State} {f : Fault} (h : exec i s = .fault f) :
    microOf i s = .stop f := by
  rw [exec_eq_burst] at h
  exact burst_fault h

/-- A meaning refuses nothing. -/
theorem exec_not_refused {i : Instr} {s : State} {f : Refusal} : exec i s ≠ .refused f := by
  rw [exec_eq_burst]
  exact burst_not_refused

/-- A command at its check step answers a next state, whatever its operands. -/
theorem exec_answers_at_check {i : Instr} {s : State} (h : s.seq.upc.step = 1) :
    ∃ t, exec i s = .next t := by
  rw [exec_eq_burst]
  cases hf : instrFault i with
  | none =>
    exact burst_answers (t := s.advance) (more := true)
      (by rw [microOf_eq_checked, hf]; exact checked_passes h)
  | some r =>
    exact burst_answers (t := s.raiseFatal r) (more := false)
      (by rw [microOf_eq_checked, hf]; exact checked_raises h)

/-! ### The shared micro-steps -/

theorem next_run {s t : State} {more : Bool} (h : Micro.next s = .run t more) :
    t = s.advance ∧ more = true := by cases h; exact ⟨rfl, rfl⟩

theorem done_run {s t : State} {more : Bool} (h : Micro.done s = .run t more) :
    t = s.done ∧ more = false := by cases h; exact ⟨rfl, rfl⟩

/-- What a wait can do (20_memory.md R78): complete with one recorded poll, or only take the draw. -/
theorem waitFlag_run {f : Config.PollFlag} {p : Port} {onSet : State → State} {go more : Bool}
    {s t : State} (h : waitFlag f p onSet go s = .run t more) :
    ∃ d, DrawKeeps s d ∧
      (t = onSet (d.log .sequencer (pollPrim f p true)) ∨ (t = d ∧ more = false)) := by
  refine ⟨(s.drawBit (.poll f p)).state, drawBit_keeps s _, ?_⟩
  unfold waitFlag at h
  cases hb : (s.drawBit (.poll f p)).bit <;> simp [hb] at h
  · exact .inr ⟨h.1.symm, h.2⟩
  · exact .inl h.1.symm

/-- What the wait for both acknowledge flags can do (R78): the same, with two recorded polls. -/
theorem waitAck_run {p : Port} {more : Bool} {s t : State} (h : waitAck p s = .run t more) :
    ∃ d, DrawKeeps s d ∧
      (t = ((d.log .sequencer (.flagTEACK p true)).log .sequencer (.flagREACK p true)).advance ∨
        (t = d ∧ more = false)) := by
  refine ⟨_, (drawBit_keeps s (.poll .teack p)).trans (drawBit_keeps _ (.poll .reack p)), ?_⟩
  unfold waitAck at h
  dsimp only at h
  split at h
  · cases h; exact .inl rfl
  · next hb => cases h; exact .inr ⟨rfl, by simp [hb]⟩

/-- A branch on a query: fall through, or end. -/
theorem doneUnless_run {d : Drawn} {more : Bool} {t : State} (h : doneUnless d = .run t more) :
    (d.bit = true ∧ t = d.state.advance) ∨ (d.bit = false ∧ t = d.state.done ∧ more = false) := by
  unfold doneUnless at h
  cases hb : d.bit <;> simp [hb] at h
  · exact .inr ⟨rfl, h.1.symm, h.2⟩
  · exact .inl ⟨rfl, h.1.symm⟩

/-- The calculation step (41_baud.md R172): it stops for baud 0 and for nothing else. -/
theorem calcStep_run {p : Port} {baud : Word} {s t : State} {more : Bool}
    (h : calcStep p baud s = .run t more) :
    ∃ v, baud ≠ 0 ∧ more = true ∧
      t = (s.modLoc fun l =>
        { l with presc := prescalerFor p s.seq.loc.f.toNat baud.toNat, div := v }).tick.advance := by
  unfold calcStep baudCalc at h
  by_cases hb : baud = 0
  · simp [hb] at h
  · rw [if_neg hb] at h
    cases h
    exact ⟨_, hb, rfl, rfl⟩

theorem calcStep_stop {p : Port} {baud : Word} {s : State} {f : Fault}
    (h : calcStep p baud s = .stop f) : baud = 0 ∧ f = .baudZero := by
  unfold calcStep baudCalc at h
  by_cases hb : baud = 0
  · simp [hb] at h; exact ⟨hb, h.symm⟩
  · rw [if_neg hb] at h; cases h

/-- The prescaler of the calculator is one of its two values (41_baud.md R172). -/
theorem prescalerFor_legal (p : Port) (f baud : Nat) : prescLegal (prescalerFor p f baud) := by
  cases p
  · exact .inl rfl
  · unfold prescalerFor prescLegal
    dsimp only
    split
    · exact .inr rfl
    · exact .inl rfl

/-- The divisor the calculator gives (R176) is the formula's wherever the register can hold it. -/
theorem divisorValue_given {p : Port} {f presc baud : Nat} {free : Word}
    (h : Config.divMin p ≤ divisorFn p f presc baud)
    (k : divisorFn p f presc baud ≤ Config.divMax p) :
    (divisorValue p f presc baud free).toNat = divisorFn p f presc baud := by
  have : Config.divMax p < 2 ^ 32 := by cases p <;> decide
  simp only [divisorValue]
  rw [if_pos ⟨h, k⟩, BitVec.toNat_ofNat]
  exact Nat.mod_eq_of_lt (by omega)

/-- The calculator's answer for a baud other than 0, with the divisor as it is given. -/
theorem baudCalc_given (p : Port) (f free : Word) {baud : Word} (h : baud ≠ 0) :
    ∃ v, baudCalc p f baud free = some ⟨prescalerFor p f.toNat baud.toNat, v⟩ ∧
      DivisorGiven p f baud v :=
  ⟨_, by rw [baudCalc, if_neg h], divisorValue_given⟩

/-- The byte step of `tx` (42_transmit.md R200): one byte is written; the loop goes on exactly while bytes
remain. -/
theorem writeStep_run {p : Port} {bytes : List Byte} {s t : State} {more : Bool}
    (h : writeStep p bytes s = .run t more) :
    ∃ b, bytes[s.seq.upc.idx]? = some b ∧
      ((s.seq.upc.idx + 1 < bytes.length ∧ t = ((s.writeData p b).nextIdx).jump 3 ∧ more = true) ∨
        (bytes.length ≤ s.seq.upc.idx + 1 ∧ t = ((s.writeData p b).nextIdx).done ∧ more = false)) := by
  unfold writeStep at h
  cases hb : bytes[s.seq.upc.idx]? with
  | none => simp [hb] at h
  | some b =>
    refine ⟨b, rfl, ?_⟩
    simp only [hb] at h
    by_cases hl : s.seq.upc.idx + 1 < bytes.length
    · simp [hl] at h; exact .inl ⟨hl, h.1.symm, h.2⟩
    · simp [hl] at h; exact .inr ⟨by omega, (done_run h).1, (done_run h).2⟩

end Sys2Proof.Machine
end

