-- ==== Sys2Proof/Laws/Effect.lean ====
section
/-!
SUPPORT. What any micro-step after the check can do, said once for all commands (`Effect`), with one lemma
per micro-program; claims about commands follow by the induction of Laws/Micro.lean.
-/

namespace Sys2Proof.Machine

/-- What a micro-step of a command of port `p` can do. -/
structure Effect (p : Port) (s t : State) : Prop where
  x0 : t.seq.x0 = s.seq.x0
  x1 : t.seq.x1 = s.seq.x1
  x2 : t.seq.x2 = s.seq.x2
  txbuf : t.seq.txbuf = s.seq.txbuf
  op : t.seq.upc.op = s.seq.upc.op
  fatal : t.blk.fatal = s.blk.fatal
  fatalReason : t.blk.fatalReason = s.blk.fatalReason
  build : t.build = s.build
  cmds : t.world.cmds = s.world.cmds
  cblog : t.trc.cblog = s.trc.cblog
  log : ∃ l, t.trc.primlog = s.trc.primlog ++ sequencerEntries l
  portOther : t.port p.other = s.port p.other
  drvOther : t.drv p.other = s.drv p.other
  txlogOther : t.trc.txlog.get p.other = s.trc.txlog.get p.other
  asyncMode : p = .lpuart → t.ifc.asyncMode = s.ifc.asyncMode
  rxne : (t.port p).rxne = (s.port p).rxne
  ore : (t.port p).ore = (s.port p).ore
  rdr : (t.port p).rdr = (s.port p).rdr

theorem Effect.refl (p : Port) (s : State) : Effect p s s :=
  ⟨rfl, rfl, rfl, rfl, rfl, rfl, rfl, rfl, rfl, rfl, ⟨[], by simp [sequencerEntries]⟩, rfl, rfl, rfl,
    fun _ => rfl, rfl, rfl, rfl⟩

theorem Effect.trans {p : Port} {s t u : State} (h : Effect p s t) (k : Effect p t u) : Effect p s u := by
  obtain ⟨l, hl⟩ := h.log
  obtain ⟨m, hm⟩ := k.log
  exact ⟨k.x0.trans h.x0, k.x1.trans h.x1, k.x2.trans h.x2, k.txbuf.trans h.txbuf, k.op.trans h.op,
    k.fatal.trans h.fatal, k.fatalReason.trans h.fatalReason, k.build.trans h.build,
    k.cmds.trans h.cmds, k.cblog.trans h.cblog,
    ⟨l ++ m, by rw [hm, hl]; simp [sequencerEntries]⟩, k.portOther.trans h.portOther,
    k.drvOther.trans h.drvOther, k.txlogOther.trans h.txlogOther,
    fun e => (k.asyncMode e).trans (h.asyncMode e), k.rxne.trans h.rxne, k.ore.trans h.ore,
    k.rdr.trans h.rdr⟩

/-! ### Primitives -/

/-- A primitive of the port that writes nothing of its receive side. -/
theorem Issues.effect {x : List Prim} {p : Port} {g : PortEnv → PortEnv} {s t : State}
    (h : Issues .sequencer x (·.modPort p g) s t)
    (k : ∀ e, (g e).rxne = e.rxne ∧ (g e).ore = e.ore ∧ (g e).rdr = e.rdr) : Effect p s t := by
  have own : (t.port p).rxne = (s.port p).rxne ∧ (t.port p).ore = (s.port p).ore ∧
      (t.port p).rdr = (s.port p).rdr := by
    rcases h.own with e | e <;> rw [e]
    · exact ⟨rfl, rfl, rfl⟩
    · exact k _
  exact ⟨by rw [h.seq], by rw [h.seq], by rw [h.seq], by rw [h.seq], by rw [h.seq], by rw [h.blk],
    by rw [h.blk], h.build, h.cmds, h.cblog, ⟨x, h.primlog⟩, h.others.1, h.drv _, by rw [h.txlog],
    fun _ => h.others.2, own.1, own.2.1, own.2.2⟩

/-- A query. -/
theorem Issues.query_effect {x : List Prim} (p : Port) {s t : State} (h : Issues .sequencer x id s t) :
    Effect p s t :=
  ⟨by rw [h.seq], by rw [h.seq], by rw [h.seq], by rw [h.seq], by rw [h.seq], by rw [h.blk],
    by rw [h.blk], h.build, h.cmds, h.cblog, ⟨x, h.primlog⟩, by simp [State.port, h.query], h.drv _,
    by rw [h.txlog], fun _ => by rw [h.query], by simp [State.port, h.query],
    by simp [State.port, h.query], by simp [State.port, h.query]⟩

/-- A draw. -/
theorem DrawKeeps.effect (p : Port) {s d : State} (h : DrawKeeps s d) : Effect p s d :=
  Issues.query_effect (x := []) p
    ⟨h.blk, h.seq, h.build, h.cmds, h.turns, by simp [h.trc], by rw [h.trc], by rw [h.trc], .inl h.ifc⟩

/-- A recorded primitive that changes nothing. -/
theorem log_effect (p : Port) (s : State) (x : Prim) : Effect p s (s.log .sequencer x) :=
  Issues.query_effect (x := [x]) p ⟨rfl, rfl, rfl, rfl, rfl, rfl, rfl, rfl, .inl rfl⟩

theorem asyncModeUsart_effect (s : State) : Effect .usart s s.asyncModeUsart := by
  have h := asyncModeUsart_issues s
  have e : s.asyncModeUsart.ifc.env = s.ifc.env := by rcases h.ifc with e | e <;> rw [e]
  exact ⟨by rw [h.seq], by rw [h.seq], by rw [h.seq], by rw [h.seq], by rw [h.seq], by rw [h.blk],
    by rw [h.blk], h.build, h.cmds, h.cblog, ⟨_, h.primlog⟩, by simp [State.port, e], h.drv _,
    by rw [h.txlog], nofun, by simp [State.port, e], by simp [State.port, e], by simp [State.port, e]⟩

theorem writeData_effect (p : Port) (s : State) (b : Byte) : Effect p s (s.writeData p b) :=
  ⟨rfl, rfl, rfl, rfl, rfl, rfl, rfl, rfl, rfl, rfl, ⟨[.writeData p b], rfl⟩, rfl, rfl, by simp,
    fun _ => rfl, rfl, rfl, rfl⟩

/-! ### DriverState writes and moves of the sequencer -/

theorem modDrv_effect (p : Port) (s : State) (f : Driver → Driver) : Effect p s (s.modDrv p f) :=
  ⟨rfl, rfl, rfl, rfl, rfl, rfl, rfl, rfl, rfl, rfl, ⟨[], by simp [sequencerEntries]⟩, rfl, by simp, rfl,
    fun _ => rfl, rfl, rfl, rfl⟩

/-- A move of the sequencer that keeps the latches and the operation. -/
theorem modSeq_effect (p : Port) (s : State) (f : Seq → Seq)
    (h : (f s.seq).x0 = s.seq.x0 ∧ (f s.seq).x1 = s.seq.x1 ∧ (f s.seq).x2 = s.seq.x2 ∧
      (f s.seq).txbuf = s.seq.txbuf ∧ (f s.seq).upc.op = s.seq.upc.op) : Effect p s (s.modSeq f) :=
  ⟨h.1, h.2.1, h.2.2.1, h.2.2.2.1, h.2.2.2.2, rfl, rfl, rfl, rfl, rfl, ⟨[], by simp [sequencerEntries]⟩,
    rfl, rfl, rfl, fun _ => rfl, rfl, rfl, rfl⟩

theorem advance_effect (p : Port) (s : State) : Effect p s s.advance :=
  modSeq_effect p s _ ⟨rfl, rfl, rfl, rfl, rfl⟩
theorem jump_effect (p : Port) (s : State) (k : Nat) : Effect p s (s.jump k) :=
  modSeq_effect p s _ ⟨rfl, rfl, rfl, rfl, rfl⟩
theorem nextIdx_effect (p : Port) (s : State) : Effect p s s.nextIdx :=
  modSeq_effect p s _ ⟨rfl, rfl, rfl, rfl, rfl⟩
theorem done_effect (p : Port) (s : State) : Effect p s s.done :=
  modSeq_effect p s _ ⟨rfl, rfl, rfl, rfl, rfl⟩
theorem doneWith_effect (p : Port) (s : State) (v : Word) : Effect p s (s.doneWith v) :=
  modSeq_effect p s _ ⟨rfl, rfl, rfl, rfl, rfl⟩
theorem modLoc_effect (p : Port) (s : State) (f : Locals → Locals) : Effect p s (s.modLoc f) :=
  modSeq_effect p s _ ⟨rfl, rfl, rfl, rfl, rfl⟩
theorem tick_effect (p : Port) (s : State) : Effect p s s.tick :=
  ⟨rfl, rfl, rfl, rfl, rfl, rfl, rfl, rfl, rfl, rfl, ⟨[], by simp [sequencerEntries]⟩, rfl, rfl, rfl,
    fun _ => rfl, rfl, rfl, rfl⟩

/-- A state reached by a primitive and then fall-through. -/
theorem Effect.next {p : Port} {s t u : State} {more : Bool} (h : Effect p s u)
    (k : Micro.next u = .run t more) : Effect p s t := by
  rw [(next_run k).1]; exact h.trans (advance_effect p u)

/-- A state reached by a primitive and then `done`. -/
theorem Effect.done {p : Port} {s t u : State} {more : Bool} (h : Effect p s u)
    (k : Micro.done u = .run t more) : Effect p s t := by
  rw [(done_run k).1]; exact h.trans (done_effect p u)

/-- A query that ends the command or falls through. -/
theorem doneUnless_effect {p : Port} {s t : State} {d : Drawn} {more : Bool} (h : Effect p s d.state)
    (k : doneUnless d = .run t more) : Effect p s t := by
  rcases doneUnless_run k with ⟨-, rfl⟩ | ⟨-, rfl, -⟩
  · exact h.trans (advance_effect p _)
  · exact h.trans (done_effect p _)

theorem waitFlag_effect {f : Config.PollFlag} {p : Port} {onSet : State → State} {go more : Bool}
    {s t : State} (on : ∀ a, Effect p a (onSet a)) (h : waitFlag f p onSet go s = .run t more) :
    Effect p s t := by
  obtain ⟨d, k, rfl | ⟨rfl, -⟩⟩ := waitFlag_run h
  · exact ((k.effect p).trans (log_effect p d _)).trans (on _)
  · exact k.effect p

/-! ### The micro-programs -/

theorem baudSteps_effect {p : Port} {baud : Word} {skip fin : State → State} {go more : Bool} {k : Nat}
    {s t : State} (sk : ∀ a, Effect p a (skip a)) (fi : ∀ a, Effect p a (fin a))
    (h : baudSteps p baud skip fin go k s = .run t more) : Effect p s t := by
  unfold baudSteps at h
  split at h
  · have q := (periphIsEnabled_issues s p).query_effect p
    dsimp only at h
    split at h
    · cases h; exact q.trans (advance_effect p _)
    · cases h; exact q.trans (sk _)
  · exact waitFlag_effect (advance_effect p) h
  · exact ((periphDisable_issues s p).effect fun _ => ⟨rfl, rfl, rfl⟩).next h
  · exact (((clkFreq_issues s p).query_effect p).trans (modLoc_effect p _ _)).next h
  · obtain ⟨v, -, -, rfl⟩ := calcStep_run h
    exact ((modLoc_effect p s _).trans (tick_effect p _)).trans (advance_effect p _)
  · unfold prescStep at h
    split at h
    · exact (Effect.refl _ s).next h
    · exact ((setPrescaler_issues s _ _).effect fun _ => ⟨rfl, rfl, rfl⟩).next h
  · exact ((setDivisor_issues s p _).effect fun _ => ⟨rfl, rfl, rfl⟩).next h
  · cases h
    exact ((periphEnable_issues s p).effect fun _ => ⟨rfl, rfl, rfl⟩).trans (fi _)
  · cases h

theorem nullRegSteps_effect {p : Port} {fin : State → State} {go more : Bool} {k : Nat} {s t : State}
    (fi : ∀ a, Effect p a (fin a)) (h : nullRegSteps p fin go k s = .run t more) : Effect p s t := by
  unfold nullRegSteps at h
  split at h
  · exact ((rxneIrqDisable_issues s p).effect fun _ => ⟨rfl, rfl, rfl⟩).next h
  · exact ((vecDetach_issues s p).effect fun _ => ⟨rfl, rfl, rfl⟩).next h
  · exact (modDrv_effect p s _).next h
  · cases h; exact (modDrv_effect p s _).trans (fi _)
  · cases h

theorem regSteps_effect {p : Port} {callback context : Word} {k : Nat} {s t : State} {more : Bool}
    (h : regSteps p callback context k s = .run t more) : Effect p s t := by
  unfold regSteps at h
  split at h
  · split at h <;> exact (modDrv_effect p s _).next h
  · split at h <;> exact (modDrv_effect p s _).next h
  · exact ((vecAttach_issues s p).effect fun _ => ⟨rfl, rfl, rfl⟩).next h
  · exact ((rxneIrqEnable_issues s p).effect fun _ => ⟨rfl, rfl, rfl⟩).done h
  · cases h

theorem microInit_effect {p : Port} {baud : Word} {s t : State} {more : Bool}
    (h : microInit baud p s = .run t more) : Effect p s t := by
  have sk := fun a => jump_effect p a 19
  unfold microInit at h
  split at h
  · exact ((busEnable_issues s p).effect fun _ => ⟨rfl, rfl, rfl⟩).next h
  · exact ((clkSrcSelect_issues s p).effect fun _ => ⟨rfl, rfl, rfl⟩).next h
  · exact ((pinCfgAF_issues s p _).effect fun _ => ⟨rfl, rfl, rfl⟩).next h
  · exact ((pinCfgAF_issues s p _).effect fun _ => ⟨rfl, rfl, rfl⟩).next h
  · exact ((periphConfig_issues s p).effect fun _ => ⟨rfl, rfl, rfl⟩).next h
  · exact ((fifoEnable_issues s p).effect fun _ => ⟨rfl, rfl, rfl⟩).next h
  · unfold asyncStep at h
    split at h
    · exact (asyncModeUsart_effect s).next h
    · exact (Effect.refl _ s).next h
  · exact ((periphEnable_issues s p).effect fun _ => ⟨rfl, rfl, rfl⟩).next h
  · obtain ⟨d, k, rfl | ⟨rfl, -⟩⟩ := waitAck_run h
    · exact (((k.effect p).trans (log_effect p d _)).trans (log_effect p _ _)).trans
        (advance_effect p _)
    · exact k.effect p
  iterate 8 exact baudSteps_effect sk (advance_effect p) h
  · exact ((errIrqDisable_issues s p).effect fun _ => ⟨rfl, rfl, rfl⟩).done h
  · cases h

theorem microIsBaudRateSupported_effect {p : Port} {baud : Word} {s t : State} {more : Bool}
    (h : microIsBaudRateSupported baud p s = .run t more) : Effect p s t := by
  unfold microIsBaudRateSupported at h
  split at h
  · cases h; exact doneWith_effect p s _
  · cases h

theorem microDeinit_effect {p : Port} {s t : State} {more : Bool}
    (h : microDeinit p s = .run t more) : Effect p s t := by
  unfold microDeinit at h
  split at h
  iterate 4 exact nullRegSteps_effect (advance_effect p) h
  · cases h
    exact (((busIsEnabled_issues s p).query_effect p).trans (modLoc_effect p _ _)).trans
      (advance_effect p _)
  · split at h
    · exact ((busDisable_issues s p).effect fun _ => ⟨rfl, rfl, rfl⟩).next h
    · exact (Effect.refl p s).next h
  · cases h
    exact (((periphIsEnabled_issues s p).query_effect p).trans (modLoc_effect p _ _)).trans
      (advance_effect p _)
  · split at h
    · exact ((periphDisable_issues s p).effect fun _ => ⟨rfl, rfl, rfl⟩).next h
    · exact (Effect.refl p s).next h
  · exact ((pinCfgAnalog_issues s p _).effect fun _ => ⟨rfl, rfl, rfl⟩).next h
  · exact (((pinCfgAnalog_issues s p _).effect fun _ => ⟨rfl, rfl, rfl⟩).trans
      (modDrv_effect p _ _)).done h
  · cases h

theorem microSuspend_effect {p : Port} {s t : State} {more : Bool}
    (h : microSuspend p s = .run t more) : Effect p s t := by
  unfold microSuspend at h
  split at h
  · exact doneUnless_effect ((periphIsEnabled_issues s p).query_effect p) h
  · exact ((periphDisable_issues s p).effect fun _ => ⟨rfl, rfl, rfl⟩).next h
  · exact (modDrv_effect p s _).done h
  · cases h

theorem microResume_effect {p : Port} {s t : State} {more : Bool}
    (h : microResume p s = .run t more) : Effect p s t := by
  unfold microResume at h
  split at h
  · split at h
    · exact (Effect.refl p s).next h
    · exact (Effect.refl p s).done h
  · exact ((periphEnable_issues s p).effect fun _ => ⟨rfl, rfl, rfl⟩).next h
  · exact (modDrv_effect p s _).done h
  · cases h

theorem microTx_effect {p : Port} {bytes : List Byte} {s t : State} {more : Bool}
    (h : microTx bytes p s = .run t more) : Effect p s t := by
  unfold microTx at h
  split at h
  · have q := (periphIsEnabled_issues s p).query_effect p
    dsimp only at h
    split at h
    · cases h; exact q.trans (advance_effect p _)
    · cases h; exact q.trans (done_effect p _)
  · exact waitFlag_effect (advance_effect p) h
  · obtain ⟨b, -, ⟨-, rfl, -⟩ | ⟨-, rfl, -⟩⟩ := writeStep_run h
    · exact ((writeData_effect p s b).trans (nextIdx_effect p _)).trans (jump_effect p _ _)
    · exact ((writeData_effect p s b).trans (nextIdx_effect p _)).trans (done_effect p _)
  · cases h

theorem microTxWaitComplete_effect {p : Port} {s t : State} {more : Bool}
    (h : microTxWaitComplete p s = .run t more) : Effect p s t := by
  unfold microTxWaitComplete at h
  split at h
  · exact doneUnless_effect ((periphIsEnabled_issues s p).query_effect p) h
  · exact waitFlag_effect (done_effect p) h
  · cases h

theorem microEnableDirection_effect {p : Port} {d : Dir} {s t : State} {more : Bool}
    (h : microEnableDirection p d s = .run t more) : Effect p s t := by
  unfold microEnableDirection at h
  split at h
  · exact ((dirEnable_issues s p d).effect fun _ => ⟨rfl, rfl, rfl⟩).next h
  · exact ((pinCfgAF_issues s p d).effect fun _ => ⟨rfl, rfl, rfl⟩).done h
  · cases h

theorem microDisableDirection_effect {p : Port} {d : Dir} {s t : State} {more : Bool}
    (h : microDisableDirection p d s = .run t more) : Effect p s t := by
  unfold microDisableDirection at h
  split at h
  · exact ((dirDisable_issues s p d).effect fun _ => ⟨rfl, rfl, rfl⟩).next h
  · exact ((pinCfgAnalog_issues s p d).effect fun _ => ⟨rfl, rfl, rfl⟩).done h
  · cases h

theorem microGetGpioPin_effect {p : Port} {d : Dir} {s t : State} {more : Bool}
    (h : microGetGpioPin p d s = .run t more) : Effect p s t := by
  unfold microGetGpioPin at h
  split at h
  · cases h; exact doneWith_effect p s _
  · cases h

/-- Every micro-step after the check, of every command. -/
theorem bodyOf_effect {i : Instr} {s t : State} {more : Bool} (h : bodyOf i s = .run t more) :
    Effect (boundPort i.hdr) s t := by
  cases i
  case init => exact microInit_effect h
  case isBaudRateSupported => exact microIsBaudRateSupported_effect h
  case setBaudRate => exact baudSteps_effect (done_effect _) (done_effect _) h
  case deinit => exact microDeinit_effect h
  case suspend => exact microSuspend_effect h
  case resume => exact microResume_effect h
  case tx => exact microTx_effect h
  case txWaitComplete => exact microTxWaitComplete_effect h
  case setRxCallback hd callback context =>
    change microSetRxCallback callback context _ s = _ at h
    unfold microSetRxCallback at h
    split at h
    · exact nullRegSteps_effect (done_effect _) h
    · exact regSteps_effect h
  case enableDirection => exact microEnableDirection_effect h
  case disableDirection => exact microDisableDirection_effect h
  case getGpioPin => exact microGetGpioPin_effect h

theorem withTurns_effect (p : Port) (s : State) (r : List Turn) : Effect p s (s.withTurns r) :=
  ⟨rfl, rfl, rfl, rfl, rfl, rfl, rfl, rfl, rfl, rfl, ⟨[], by simp [sequencerEntries]⟩, rfl, rfl, rfl,
    fun _ => rfl, rfl, rfl, rfl⟩

/-- What a command can do: raise at its check step and nothing else, or run with a check that passes. -/
theorem exec_cases {i : Instr} {s t : State} (h : exec i s = .next t) :
    (∃ r, instrFault i = some r ∧ s.seq.upc.step = 1 ∧ t = s.raiseFatal r) ∨
      (instrFault i = none ∧ Effect (boundPort i.hdr) s t) := by
  cases hf : instrFault i with
  | none =>
    refine .inr ⟨rfl, ?_⟩
    exact exec_next (R := Effect (boundPort i.hdr)) (Effect.refl _) Effect.trans
      (fun a r k _ => absurd (hf.symm.trans k) nofun) (fun a _ _ => advance_effect _ a)
      (fun a b more _ _ k => bodyOf_effect k) (withTurns_effect _) h
  | some r =>
    refine .inl ⟨r, rfl, ?_⟩
    obtain ⟨k, hk⟩ := fuelOf_eq i
    rw [exec_eq_burst, microOf_eq_checked, hf, hk] at h
    by_cases h1 : s.seq.upc.step = 1
    · rw [burst_last (checked_raises h1)] at h
      cases h
      exact ⟨h1, rfl⟩
    · simp [burst, checked, h1] at h

end Sys2Proof.Machine
end

