-- ==== Sys2Proof/Laws/Encoding.lean ====
section
/-!
SUPPORT. The header word and its fields: the fields of an encoded header, the header rebuilt from its
fields, the row each operation's header selects, and what the latches hold after acceptance.
-/

namespace Sys2Proof

/-- The row of the opcode map that belongs to an operation. -/
def Op.row (op : Op) : OpRow := ⟨op, op.format, op.code.setWidth 32, 0xFFFFFE0F⟩

/-- The opcode map lists each operation's row once, in the order of the codes (30_encoding.md R113). -/
theorem opcodeTable_eq : opcodeTable =
    [Op.init, .isBaudRateSupported, .setBaudRate, .deinit, .suspend, .resume, .tx, .txWaitComplete,
      .setRxCallback, .enableDirection, .disableDirection, .getGpioPin].map Op.row := by decide

/-- No two rows overlap: their masks are one, and their patterns differ. -/
theorem opcodeTable_disjoint :
    opcodeTable.Pairwise fun a b => a.mask = b.mask ∧ a.pattern ≠ b.pattern := by decide

/-- The mask keeps `op` and `rsv` and clears the operand fields (R112, R113). -/
theorem masked_header (header : Word) :
    header &&& 0xFFFFFE0F = (rsvField header ++ 0#5 ++ opField header : BitVec (23 + 5 + 4)) := by
  apply BitVec.eq_of_getLsbD_eq
  intro i hi
  simp only [BitVec.getLsbD_and, BitVec.getLsbD_append, rsvField, opField, BitVec.getLsbD_extractLsb',
    BitVec.getLsbD_zero]
  interval_cases i <;> simp

/-- A header is its five fields (R112). -/
theorem header_eq (header : Word) :
    header = (rsvField header ++ (hdrOf header).dir ++ (hdrOf header).port ++
      BitVec.ofBool (hdrOf header).hv ++ opField header : BitVec (23 + 2 + 2 + 1 + 4)) := by
  apply BitVec.eq_of_getLsbD_eq
  intro i hi
  simp only [BitVec.getLsbD_append, rsvField, opField, hdrOf, BitVec.getLsbD_extractLsb',
    BitVec.getLsbD_ofBool]
  interval_cases i <;> simp

@[simp] theorem opField_encodeHeader (op : Op) (h : Hdr) : opField (encodeHeader op h) = op.code := by
  apply BitVec.eq_of_getLsbD_eq
  intro i hi
  simp only [opField, encodeHeader, BitVec.getLsbD_extractLsb', BitVec.getLsbD_append]
  interval_cases i <;> simp

@[simp] theorem rsvField_encodeHeader (op : Op) (h : Hdr) : rsvField (encodeHeader op h) = 0 := by
  apply BitVec.eq_of_getLsbD_eq
  intro i hi
  simp only [rsvField, encodeHeader, BitVec.getLsbD_extractLsb', BitVec.getLsbD_append]
  interval_cases i <;> simp

@[simp] theorem hdrOf_encodeHeader (op : Op) (h : Hdr) : hdrOf (encodeHeader op h) = h := by
  have hv : (hdrOf (encodeHeader op h)).hv = h.hv := by
    simp only [hdrOf, encodeHeader, BitVec.getLsbD_append]
    simp
  have port : (hdrOf (encodeHeader op h)).port = h.port := by
    apply BitVec.eq_of_getLsbD_eq
    intro i hi
    simp only [hdrOf, encodeHeader, BitVec.getLsbD_extractLsb', BitVec.getLsbD_append]
    interval_cases i <;> simp
  have dir : (hdrOf (encodeHeader op h)).dir = h.dir := by
    apply BitVec.eq_of_getLsbD_eq
    intro i hi
    simp only [hdrOf, encodeHeader, BitVec.getLsbD_extractLsb', BitVec.getLsbD_append]
    interval_cases i <;> simp
  cases h
  simp_all [hdrOf]

/-- An operation's masked header is its row's pattern. -/
theorem encodeHeader_masked (op : Op) (h : Hdr) :
    encodeHeader op h &&& 0xFFFFFE0F = op.code.setWidth 32 := by
  rw [masked_header]
  simp only [opField_encodeHeader, rsvField_encodeHeader]
  cases op <;> rfl

/-- An operation's header selects its row. -/
theorem selectRow_encodeHeader (op : Op) (h : Hdr) : selectRow (encodeHeader op h) = some op.row := by
  rw [selectRow, opcodeTable_eq]
  simp only [List.map, List.find?, Op.row, encodeHeader_masked]
  cases op <;> rfl

end Sys2Proof

namespace Sys2Proof.Machine

/-- The format of a latched header. -/
theorem latched_of_row {q : Seq} {r : OpRow} (h : selectRow q.x0 = some r) :
    latched q = match r.format with
      | .H => ⟨q.x0, [], []⟩
      | .D => ⟨q.x0, [], []⟩
      | .A => ⟨q.x0, [q.x1], []⟩
      | .C => ⟨q.x0, [q.x1, q.x2], []⟩
      | .S => ⟨q.x0, [q.x1], q.txbuf⟩ := by
  unfold latched
  rw [h]
  cases r with
  | mk op format pattern mask => cases format <;> rfl

/-- With no row selected the latches hold the bare header. -/
theorem latched_of_none {q : Seq} (h : selectRow q.x0 = none) : latched q = ⟨q.x0, [], []⟩ := by
  unfold latched
  rw [h]
  rfl

end Sys2Proof.Machine
end

