-- ==== Sys2Proof/Laws/Order.lean ====
section
/-!
SUPPORT. What the steps of a baud change issue, and in which order (41_baud.md R171, R173): how each
operation extends the list of issued primitives, and what one of the steps 2 to 9 keeps.
-/

namespace Sys2Proof.Machine

/-! ### The list of issued primitives -/

theorem Issues.issued {x : List Prim} {f : Iface → Iface} {s t : State} (h : Issues .sequencer x f s t) :
    t.issued = s.issued ++ x := by
  simp [State.issued, h.primlog, List.filterMap_append, List.filterMap_map]

theorem DrawKeeps.issued {s t : State} (h : DrawKeeps s t) : t.issued = s.issued := by
  simp [State.issued, h.trc]

@[simp] theorem issued_log (s : State) (x : Prim) : (s.log .sequencer x).issued = s.issued ++ [x] := by
  simp [State.issued, State.log]

/-- A handler's primitive is none of the sequencer's. -/
@[simp] theorem issued_log_handler (s : State) (p : Port) (x : Prim) :
    (s.log (.handler p) x).issued = s.issued := by
  simp [State.issued, State.log]

@[simp] theorem issued_modSeq (s : State) (f : Seq → Seq) : (s.modSeq f).issued = s.issued := rfl
@[simp] theorem issued_modDrv (s : State) (p : Port) (f : Driver → Driver) :
    (s.modDrv p f).issued = s.issued := rfl
@[simp] theorem issued_modPort (s : State) (p : Port) (f : PortEnv → PortEnv) :
    (s.modPort p f).issued = s.issued := rfl
@[simp] theorem issued_modLoc (s : State) (f : Locals → Locals) : (s.modLoc f).issued = s.issued := rfl
@[simp] theorem issued_advance (s : State) : s.advance.issued = s.issued := rfl
@[simp] theorem issued_jump (s : State) (k : Nat) : (s.jump k).issued = s.issued := rfl
@[simp] theorem issued_done (s : State) : s.done.issued = s.issued := rfl
@[simp] theorem issued_tick (s : State) : s.tick.issued = s.issued := rfl
@[simp] theorem issued_withTurns (s : State) (r : List Turn) : (s.withTurns r).issued = s.issued := rfl

/-- One more primitive keeps the order if it is no baud write, or if the wait stands before it. -/
theorem baudWritesOrdered_snoc {l : List Prim} {y : Prim} (h : baudWritesOrdered l)
    (k : ∀ p, Prim.isBaudWrite p y → waited p l) : baudWritesOrdered (l ++ [y]) := by
  intro p a x m e w
  rcases List.eq_nil_or_concat m with rfl | ⟨n, z, rfl⟩
  · obtain ⟨rfl, e2⟩ := List.append_inj' e rfl
    cases e2
    exact k p w
  · have e' : l ++ [y] = (a ++ x :: n) ++ [z] := by simpa using e
    exact h p a x n (List.append_inj' e' rfl).1 w

/-! ### The steps of a baud change -/

/-- What one step of a baud change keeps (41_baud.md R171): the order of the writes; and, from step 3 to 8,
either the next step's phase is reached or the wait's flag read 0 and `upc` stays. -/
theorem baudSteps_order {p : Port} {baud : Word} {skip fin : State → State} {go more : Bool} {k : Nat}
    {s t : State} (ordered : baudWritesOrdered s.issued) (phase : BaudPhase p k s)
    (hs : ∀ a, (skip a).issued = a.issued) (hf : ∀ a, (fin a).issued = a.issued)
    (h : baudSteps p baud skip fin go k s = .run t more) :
    baudWritesOrdered t.issued ∧
      (k = 2 ∨ k = 9 ∨ BaudPhase p (k + 1) t ∨ (k = 3 ∧ t.seq.upc = s.seq.upc)) := by
  unfold baudSteps at h
  split at h
  · have q := (periphIsEnabled_issues s p).issued
    refine ⟨?_, .inl rfl⟩
    dsimp only at h
    split at h <;> cases h <;> simp only [issued_advance, hs, q] <;>
      exact baudWritesOrdered_snoc ordered nofun
  · obtain ⟨d, k, rfl | ⟨rfl, -⟩⟩ := waitFlag_run h
    · simp only [issued_advance, issued_log, k.issued, pollPrim]
      refine ⟨baudWritesOrdered_snoc ordered nofun, .inr (.inr (.inl ?_))⟩
      constructor <;> simp [k.issued]
    · exact ⟨by rw [k.issued]; exact ordered, by simp [k.seq]⟩
  · have q := (periphDisable_issues s p).issued
    cases h
    simp only [issued_advance, q]
    refine ⟨baudWritesOrdered_snoc ordered nofun, .inr (.inr (.inl ?_))⟩
    obtain ⟨l, e⟩ := phase.polled rfl
    constructor <;> simp [q, ← e]
  · have q := (clkFreq_issues s p).issued
    unfold freqStep at h
    cases h
    simp only [issued_advance, issued_modLoc, q]
    refine ⟨baudWritesOrdered_snoc ordered nofun, .inr (.inr (.inl ?_))⟩
    obtain ⟨l, e⟩ := phase.disabled rfl
    constructor <;> simp [q, ← e]
  · obtain ⟨v, -, -, rfl⟩ := calcStep_run h
    have e := phase.measured (.inl rfl)
    refine ⟨by simpa using ordered, .inr (.inr (.inl ?_))⟩
    constructor <;> simp
    simpa using e
  · unfold prescStep at h
    have e := phase.measured (.inr rfl)
    split at h
    · cases h
      refine ⟨by simpa using ordered, .inr (.inr (.inl ?_))⟩
      constructor <;> simp
      exact .inl ⟨_, e⟩
    · have q := (setPrescaler_issues s .lpuart s.seq.loc.presc).issued
      cases h
      simp only [issued_advance, q]
      refine ⟨baudWritesOrdered_snoc ordered fun p w => by cases w; exact .inl ⟨_, e⟩,
        .inr (.inr (.inl ?_))⟩
      obtain ⟨l, e⟩ := e
      constructor <;> simp [q]
      exact .inr ⟨s.seq.loc.f, s.seq.loc.presc, l, by simp [← e]⟩
  · have q := (setDivisor_issues s p s.seq.loc.div).issued
    have e := phase.writing rfl
    cases h
    simp only [issued_advance, q]
    refine ⟨baudWritesOrdered_snoc ordered fun p w => by cases w; exact e, .inr (.inr (.inl ?_))⟩
    constructor <;> simp [q]
    exact ⟨by simp [(setDivisor_issues s p s.seq.loc.div).seq], e⟩
  · have q := (periphEnable_issues s p).issued
    cases h
    rw [hf, q]
    exact ⟨baudWritesOrdered_snoc ordered nofun, .inr (.inl rfl)⟩
  · cases h

end Sys2Proof.Machine
end

