-- ==== Sys2Proof/Laws/PerInstr.lean ====
section
/-!
SUPPORT. What holds of every command as syntax, one lemma per constructor of Instr.
-/

namespace Sys2Proof.Laws.HeaderMatches

/-- The encoded header of a command, masked, is the pattern spec/opcode_table.json gives its row, whatever
its handle and direction bits (30_encoding.md R112, R113). -/
def Statement (i : Instr) : Prop := (encode i).header &&& 0xFFFFFE0F = i.op.code.setWidth 32

theorem init (h : Hdr) (baud : Word) : Statement (.init h baud) := encodeHeader_masked _ h
theorem isBaudRateSupported (h : Hdr) (baud : Word) : Statement (.isBaudRateSupported h baud) :=
  encodeHeader_masked _ h
theorem setBaudRate (h : Hdr) (baud : Word) : Statement (.setBaudRate h baud) := encodeHeader_masked _ h
theorem deinit (h : Hdr) : Statement (.deinit h) := encodeHeader_masked _ h
theorem suspend (h : Hdr) : Statement (.suspend h) := encodeHeader_masked _ h
theorem resume (h : Hdr) : Statement (.resume h) := encodeHeader_masked _ h
theorem tx (h : Hdr) (bytes : List Byte) : Statement (.tx h bytes) := encodeHeader_masked _ h
theorem txWaitComplete (h : Hdr) : Statement (.txWaitComplete h) := encodeHeader_masked _ h
theorem setRxCallback (h : Hdr) (callback context : Word) :
    Statement (.setRxCallback h callback context) := encodeHeader_masked _ h
theorem enableDirection (h : Hdr) : Statement (.enableDirection h) := encodeHeader_masked _ h
theorem disableDirection (h : Hdr) : Statement (.disableDirection h) := encodeHeader_masked _ h
theorem getGpioPin (h : Hdr) : Statement (.getGpioPin h) := encodeHeader_masked _ h

end Sys2Proof.Laws.HeaderMatches
end

