-- ==== Sys2Proof/Tests/Slice0.lean ====
section
/-!
SUPPORT. Tests: the check of well-formedness refuses an ill-formed command; header words written out from
the spec decode to the commands they stand for; one step of each command gives what the vectors of
spec/95_test_vectors.md say; and, for every statement with hypotheses, a concrete state that meets them.
-/

namespace Sys2Proof.Tests

open Sys2Proof.Machine

/-! ### Helpers -/

/-- Reset, with an environment whose flags all read 1 and whose clocks all run at 64 MHz (the premises E2
and E3 of spec/95_test_vectors.md). -/
def bare : State :=
  { State.reset with
    world := ⟨[], [], List.replicate 12 true, [64000000, 64000000]⟩ }

/-- A port that is up: bus clock and peripheral enabled. -/
def up (p : Port) : State := bare.modPort p fun e => { e with busclk := true, pe := true }

/-- The command has just been accepted. -/
def started (i : Instr) (s : State) : State := s.accept (encode i)

/-- The packet waits at the command port. -/
def waiting (pk : Packet) (s : State) : State := { s with world := { s.world with cmds := [pk] } }

/-- The command in flight is at micro-step `k`. -/
def atStep (k : Nat) (i : Instr) (s : State) : State := (started i s).jump k

/-- The flag answers to come. -/
def polled (l : List Bool) (s : State) : State := { s with world := { s.world with polls := l } }

/-- A callback is registered and the port armed (the start of the receive vectors). -/
def armed (p : Port) : State :=
  ((up p).modDrv p fun d => { d with cb := 0x20000100, ctx := 0xCAFE }).modPort p fun e =>
    { e with vec := .attached, rxneIe := true }

/-- The state after one step, if the step has one. -/
def next? (o : Host.Outcome State Fault Refusal) : Option State :=
  match o with
  | .next t => some t
  | .fault _ => none
  | .refused _ => none

/-- The handle of a port. -/
def handle (p : Port) : Hdr := ⟨true, (match p with | .usart => 0 | .lpuart => 1), 0⟩

/-! ### Well-formedness -/

/-- The one check: a byte sequence whose length does not fit the operand `n` is refused. -/
theorem smoke_wf_refuses_a_length_that_does_not_fit (h : Hdr) (bytes : List Byte)
    (long : bytes.length = 2 ^ 32) : (Instr.tx h bytes).wf = false := by
  rw [Instr.wf, long]
  exact decide_eq_false (Nat.lt_irrefl _)

/-- There is such a sequence. -/
theorem smoke_ill_formed_term : ∃ bytes : List Byte, bytes.length = 2 ^ 32 :=
  ⟨List.replicate (2 ^ 32) 0, List.length_replicate⟩

theorem smoke_wf_accepts_a_length_that_fits : (Instr.tx (handle .usart) [0x48, 0x69]).wf = true := by
  decide

/-! ### Decoding: words of spec/95_test_vectors.md section 2.1 and part 3 (first word lowest) -/

theorem test_decode_init : decodeTableWord 64 0x0001C200_00000010 =
    some (.init ⟨true, 0, 0⟩ 115200) := by decide
theorem test_decode_is_baud_rate_supported : decodeTableWord 64 0x003D0901_00000031 =
    some (.isBaudRateSupported ⟨true, 1, 0⟩ 4000001) := by decide
theorem test_decode_set_baud_rate : decodeTableWord 64 0x0001C200_00000032 =
    some (.setBaudRate ⟨true, 1, 0⟩ 115200) := by decide
theorem test_decode_deinit : decodeTableWord 32 0x00000053 = some (.deinit ⟨true, 2, 0⟩) := by decide
theorem test_decode_suspend : decodeTableWord 32 0x00000114 = some (.suspend ⟨true, 0, 2⟩) := by decide
theorem test_decode_resume : decodeTableWord 32 0x000000B5 = some (.resume ⟨true, 1, 1⟩) := by decide
theorem test_decode_tx : decodeTableWord 80 0x6948_00000002_00000016 =
    some (.tx ⟨true, 0, 0⟩ [0x48, 0x69]) := by decide
theorem test_decode_tx_wait_complete : decodeTableWord 32 0x00000097 =
    some (.txWaitComplete ⟨true, 0, 1⟩) := by decide
theorem test_decode_set_rx_callback : decodeTableWord 96 0x0000CAFE_20000100_00000018 =
    some (.setRxCallback ⟨true, 0, 0⟩ 0x20000100 0xCAFE) := by decide
theorem test_decode_enable_direction : decodeTableWord 32 0x00000119 =
    some (.enableDirection ⟨true, 0, 2⟩) := by decide
theorem test_decode_disable_direction : decodeTableWord 32 0x0000009A =
    some (.disableDirection ⟨true, 0, 1⟩) := by decide
theorem test_decode_get_gpio_pin : decodeTableWord 32 0x000001BB =
    some (.getGpioPin ⟨true, 1, 3⟩) := by decide
/-- E9: a reserved bit set. -/
theorem test_decode_refuses_rsv : decodeTableWord 64 0x0001C200_00000210 = none := by decide
/-- E8: op 15. -/
theorem test_decode_refuses_op_15 : decodeTableWord 32 0x0000001F = none := by decide
/-- R122's own forms. -/
theorem test_text_of_direction : (Instr.enableDirection ⟨true, 1, 1⟩).text =
    some "enable_direction lpuart, rx" := by decide

/-! ### One step of each command -/

/-- L1: 64 MHz and 115200 give 556; the port is up; seventeen primitives. -/
theorem test_init_usart :
    (next? (step (waiting ⟨0x10, [115200], []⟩ bare))).map (fun t =>
      ((t.port .usart).div, t.life .usart, t.life .lpuart, t.trc.primlog.length, t.seq.busy)) =
    some (556, .enabled, .uninitialized, 17, false) := by decide
/-- L1b: the ×32 path. -/
theorem test_init_lpuart :
    (next? (step (waiting ⟨0x30, [9600], []⟩ bare))).map (fun t =>
      ((t.port .lpuart).div, (t.port .lpuart).presc, t.ifc.asyncMode, t.trc.primlog.length)) =
    some (53333, 32, false, 17) := by decide
/-- S1: the upper bound is inclusive. -/
theorem test_baud_4000000_is_supported :
    (next? (step (waiting ⟨0x11, [0x003D0900], []⟩ bare))).map (fun t => (t.seq.resp, t.seq.respValid)) =
    some (1, true) := by decide
/-- S1: 9599 is below the lower bound. -/
theorem test_baud_9599_is_not_supported :
    (next? (step (waiting ⟨0x31, [0x0000257F], []⟩ bare))).map (fun t => (t.seq.resp, t.seq.respValid)) =
    some (0, true) := by decide
/-- B6: the prescaler goes back to 1. -/
theorem test_set_baud_rate_lpuart :
    (next? (step (waiting ⟨0x32, [115200], []⟩
      ((up .lpuart).modPort .lpuart fun e => { e with presc := 32, div := 53333 })))).map (fun t =>
      ((t.port .lpuart).presc, (t.port .lpuart).div, (t.port .lpuart).pe)) =
    some (1, 142222, true) := by decide
/-- B4: baud 0 stops at the calculation, with the peripheral disabled. -/
theorem test_set_baud_rate_zero :
    (next? (step (waiting ⟨0x12, [0], []⟩ (up .usart)))).map (fun t =>
      ((t.port .usart).pe, t.blk.fatal, t.seq.upc.step)) = some (false, false, 6) := by decide
/-- L7: a port that is up is torn down; the divisor stays. -/
theorem test_deinit :
    (next? (step (waiting ⟨0x13, [], []⟩
      ((up .usart).modPort .usart fun e => { e with div := 556 })))).map (fun t =>
      (t.life .usart, (t.port .usart).div, (t.port .usart).pins, t.trc.primlog.length)) =
    some (.deinitialized, 556, ⟨.analog, .analog⟩, 8) := by decide
/-- L2, first half. -/
theorem test_suspend :
    (next? (step (waiting ⟨0x14, [], []⟩ (up .usart)))).map (fun t =>
      (t.life .usart, t.trc.primlog.map (·.prim))) =
    some (.suspended, [.periphIsEnabled .usart true, .periphDisable .usart]) := by decide
/-- L4: no suspend before, so nothing happens. -/
theorem test_resume_without_suspend :
    (next? (step (waiting ⟨0x15, [], []⟩ bare))).map (fun t =>
      ((t.port .usart).pe, t.trc.primlog, t.seq.busy)) = some (false, [], false) := by decide
/-- T1: two bytes, a poll before each. -/
theorem test_tx :
    (next? (step (waiting ⟨0x16, [2], [0x48, 0x69]⟩ (up .usart)))).map (fun t =>
      (t.trc.txlog.usart, t.trc.primlog.map (·.prim), t.seq.busy)) =
    some ([0x48, 0x69],
      [.periphIsEnabled .usart true, .flagTXE .usart true, .writeData .usart 0x48,
        .flagTXE .usart true, .writeData .usart 0x69], false) := by decide
/-- T4: TXE reads 1 once and then 0. -/
theorem test_tx_waits :
    (next? (step (waiting ⟨0x16, [2], [0xAA, 0xBB]⟩ (polled [true, false] (up .usart))))).map (fun t =>
      (t.trc.txlog.usart, t.seq.upc, t.seq.busy, t.blk.fatal)) =
    some ([0xAA], ⟨6, 3, 1⟩, true, false) := by decide
/-- T5. -/
theorem test_tx_wait_complete :
    (next? (step (waiting ⟨0x17, [], []⟩ (up .usart)))).map (fun t =>
      (t.trc.primlog.map (·.prim), t.seq.busy)) =
    some ([.periphIsEnabled .usart true, .flagTC .usart true], false) := by decide
/-- The start of X1 to X6. -/
theorem test_set_rx_callback :
    (next? (step (waiting ⟨0x18, [0x20000100, 0xCAFE], []⟩ (up .usart)))).map (fun t =>
      (t.drv .usart, (t.port .usart).vec, (t.port .usart).rxneIe, t.trc.primlog.map (·.prim))) =
    some (⟨false, 0x20000100, 0xCAFE, false⟩, .attached, true,
      [.vecAttach .usart, .rxneIrqEnable .usart]) := by decide
/-- X4: the context of a null registration is ignored. -/
theorem test_set_rx_callback_null :
    (next? (step (waiting ⟨0x18, [0, 0x1234], []⟩ (armed .usart)))).map (fun t =>
      (t.drv .usart, (t.port .usart).vec, (t.port .usart).rxneIe)) =
    some (⟨false, 0, 0, false⟩, .detached, false) := by decide
/-- D4: a port that was never initialised. -/
theorem test_enable_direction :
    (next? (step (waiting ⟨0x39, [], []⟩ bare))).map (fun t =>
      ((t.port .lpuart).dirEn, (t.port .lpuart).pins.rx, (t.port .lpuart).pe)) =
    some (⟨true, false⟩, .resetState, false) := by decide
/-- D1. -/
theorem test_disable_direction :
    (next? (step (waiting ⟨0x9A, [], []⟩
      ((up .usart).modPort .usart fun e => { e with dirEn := ⟨true, true⟩ })))).map (fun t =>
      ((t.port .usart).dirEn, (t.port .usart).pins.rx, (t.port .usart).pins.tx, (t.port .usart).pe)) =
    some (⟨true, false⟩, .analog, .resetState, true) := by decide
/-- D5. -/
theorem test_get_gpio_pin :
    (next? (step (waiting ⟨0x9B, [], []⟩ bare))).map (fun t => t.seq.resp) =
    some Config.desc.usart.pin.rx := rfl

/-! ### Faults and the handler -/

/-- E1, E3, E4, E9, E10, E11, E12: the reason codes and the order of the tests. -/
theorem test_reasons :
    ([⟨0x00, [115200], []⟩, ⟨0x74, [], []⟩, ⟨0x119, [], []⟩, ⟨0x210, [115200], []⟩, ⟨0x0C, [], []⟩,
        ⟨0x159, [], []⟩, ⟨0x109, [], []⟩] : List Packet).map (fun pk =>
      (next? (step (waiting pk bare))).map fun t => (t.blk.fatal, t.blk.fatalReason.toNat, t.seq.busy)) =
    [some (true, 1, true), some (true, 2, true), some (true, 3, true), some (true, 4, true),
      some (true, 4, true), some (true, 2, true), some (true, 1, true)] := by decide
/-- X1: one byte, one invocation. -/
theorem test_handler_delivers :
    (next? (step (((armed .usart).arrive .usart 0x41).withTurns [.enter .usart]))).map (fun t =>
      (t.trc.cblog, (t.port .usart).rxne, t.irqReq .usart)) =
    some ([⟨.usart, 0x20000100, 0x41, 0xCAFE⟩], false, false) := by decide
/-- X3: the second byte is lost and the overrun flag set. -/
theorem test_arrival_overruns :
    (next? (step (((armed .usart).arrive .usart 0x42).withTurns [.arrive .usart 0x43]))).map (fun t =>
      ((t.port .usart).rdr, (t.port .usart).rxne, (t.port .usart).ore)) =
    some (0x42, true, true) := by decide
/-- B1 to B3: the calculator at the edges of its ranges (an out-of-range result is the free value 7). -/
theorem test_baud_calc :
    ([(.usart, 64000000, 4000000), (.usart, 61999999, 4000000), (.usart, 629140799, 9600),
        (.lpuart, 64000000, 15625), (.lpuart, 64000000, 15626), (.lpuart, 1258290623, 9600),
        (.lpuart, 1258290624, 9600), (.lpuart, 28782, 9600), (.lpuart, 28781, 9600)] :
      List (Port × Word × Word)).map (fun x => baudCalc x.1 x.2.1 x.2.2 7) =
    [some ⟨1, 16⟩, some ⟨1, 7⟩, some ⟨1, 65535⟩, some ⟨32, 32768⟩, some ⟨1, 1048509⟩,
      some ⟨32, 1048575⟩, some ⟨32, 7⟩, some ⟨1, 768⟩, some ⟨1, 7⟩] := by decide

/-! ### Witnesses: concrete states and operands that meet the hypotheses of each statement -/

/-- Encoding statements: a well-formed command, a packet that decodes, rows of the table, and the headers
on both sides of the reserved ranges (op 11 and 12, rsv 0 and 1). -/
theorem witness_DecodeOfEncodeIsTheCommand : (Instr.tx ⟨true, 3, 2⟩ [0x00, 0xFF]).wf = true := by decide
theorem witness_EncodeOfDecodeIsThePacket :
    decode ⟨0x38, [0x300, 0], []⟩ = .ok (.setRxCallback ⟨true, 1, 0⟩ 0x300 0) := by decide
theorem witness_HeaderSelectsItsRow :
    (⟨.getGpioPin, .D, 0x0000000B, 0xFFFFFE0F⟩ : OpRow) ∈ opcodeTable ∧
      selectRow 0x1FB = some ⟨.getGpioPin, .D, 0x0000000B, 0xFFFFFE0F⟩ := by decide
theorem witness_ReservedHeadersSelectNothing :
    (12 ≤ (opField 0x1FC).toNat ∧ rsvField 0x1FC = 0) ∧
      (¬ 12 ≤ (opField 0x20B).toNat ∧ rsvField 0x20B ≠ 0) ∧
      (¬ 12 ≤ (opField 0x1FB).toNat ∧ rsvField 0x1FB = 0) := by decide

/-- A packet waits at an idle block. -/
def offered : State := waiting ⟨0x34, [], []⟩ bare

theorem witness_StepRunsTheAcceptedCommand :
    offered.blk.fatal = false ∧ offered.seq.busy = false ∧ offered.world.turns = [] ∧
      offered.world.cmds = ⟨0x34, [], []⟩ :: [] ∧
      decode ⟨0x34, [], []⟩ = .ok (.suspend ⟨true, 1, 0⟩) := by decide

/-- A transmission in flight, at its wait, on its second byte. -/
def sending : State :=
  (atStep 3 (.tx (handle .usart) [0xAA, 0xBB]) (up .usart)).nextIdx

theorem witness_StepResumesTheLatchedCommand :
    sending.blk.fatal = false ∧ sending.seq.busy = true ∧
      sending.seq.upc.op = opField sending.seq.x0 ∧
      decode (latched sending.seq) = .ok (.tx (handle .usart) [0xAA, 0xBB]) ∧
      sending.world.turns = [] ∧ (sending.withTurns [.quiet]).world.turns = [.quiet] := by decide
theorem witness_AcceptanceWritesOnlyTheLatches :
    (offered.withTurns [.quiet, .enter .usart]).blk.fatal = false ∧
      (offered.withTurns [.quiet, .enter .usart]).seq.busy = false ∧
      (offered.withTurns [.quiet, .enter .usart]).world.turns = .quiet :: .enter .usart :: [] ∧
      (Turn.enter .usart) ≠ .quiet ∧
      (offered.withTurns [.quiet, .enter .usart]).world.cmds = ⟨0x34, [], []⟩ :: [] ∧
      decode ⟨0x34, [], []⟩ = .ok (.suspend ⟨true, 1, 0⟩) := by decide
theorem witness_AcceptanceWritesOnlyTheLatches_operands :
    decode ⟨0x18, [5, 6], []⟩ = .ok (.setRxCallback ⟨true, 0, 0⟩ 5 6) ∧
      [5, 6].head? = some (5 : Word) ∧
      decode ⟨0x16, [1], [7]⟩ = .ok (.tx ⟨true, 0, 0⟩ [7]) ∧
      (Instr.tx ⟨true, 0, 0⟩ [7]).op.format = .S := by decide

/-- A faulted block: the packet of E4 has been taken and its check step has raised. -/
def faulted : State := (started (.enableDirection ⟨true, 0, 2⟩) bare).raiseFatal .dirRange

theorem witness_BusyOrFaultedPortTakesNothing :
    (sending.seq.busy = true ∧ ∃ t, step (sending.withTurns [.arrive .usart 1]) = .next t) ∧
      (faulted.blk.fatal = true ∧ ∃ t, step faulted = .next t) :=
  ⟨⟨rfl, _, rfl⟩, rfl, _, rfl⟩

/-- One state for each clause of the check step, at the edges of the operand ranges. -/
theorem witness_CheckStepRaisesAtTheFirstFailedTest :
    (started (.init ⟨false, 2, 0⟩ 0) bare).seq.upc.step = 1 ∧
      (Instr.init ⟨false, 2, 0⟩ 0).hdr.hv = false ∧
      ((Instr.suspend ⟨true, 2, 0⟩).hdr.hv = true ∧ 2 ≤ (Instr.suspend ⟨true, 2, 0⟩).hdr.port.toNat) ∧
      ((Instr.getGpioPin ⟨true, 1, 2⟩).hdr.hv = true ∧
        (Instr.getGpioPin ⟨true, 1, 2⟩).hdr.port.toNat < 2 ∧
        (Instr.getGpioPin ⟨true, 1, 2⟩).op.format = .D ∧
        2 ≤ (Instr.getGpioPin ⟨true, 1, 2⟩).hdr.dir.toNat) ∧
      ((Instr.getGpioPin ⟨true, 1, 1⟩).hdr.hv = true ∧
        (Instr.getGpioPin ⟨true, 1, 1⟩).hdr.port.toNat < 2 ∧
        (Instr.getGpioPin ⟨true, 1, 1⟩).hdr.dir.toNat < 2 ∧
        ((started (.getGpioPin ⟨true, 1, 1⟩) bare).withTurns [.enter .usart]).world.turns =
          .enter .usart :: [] ∧
        ((started (.getGpioPin ⟨true, 1, 1⟩) bare).withTurns [.enter .usart]).seq.upc.step = 1) ∧
      ((bare.accept ⟨0x0C, [], []⟩).seq.upc.step = 1 ∧ (bare.accept ⟨0x0C, [], []⟩).seq.busy = true ∧
        (bare.accept ⟨0x0C, [], []⟩).blk.fatal = false ∧
        (bare.accept ⟨0x0C, [], []⟩).world.turns = [] ∧
        (bare.accept ⟨0x0C, [], []⟩).seq.upc.op = opField (bare.accept ⟨0x0C, [], []⟩).seq.x0 ∧
        12 ≤ (opField (bare.accept ⟨0x0C, [], []⟩).seq.x0).toNat) ∧
      ((bare.accept ⟨0x210, [], []⟩).seq.upc.op = opField (bare.accept ⟨0x210, [], []⟩).seq.x0 ∧
        rsvField (bare.accept ⟨0x210, [], []⟩).seq.x0 ≠ 0) := by decide
theorem witness_OnlyTheCheckStepRaises :
    ∃ t, (started (.suspend ⟨true, 3, 0⟩) bare).blk.fatal = false ∧
      exec (.suspend ⟨true, 3, 0⟩) (started (.suspend ⟨true, 3, 0⟩) bare) = .next t ∧
      t.blk.fatal = true := ⟨_, rfl, rfl, rfl⟩
theorem witness_IllegalPacketRaisesIllegalCommand :
    (waiting ⟨0x0C, [], []⟩ bare).blk.fatal = false ∧ (waiting ⟨0x0C, [], []⟩ bare).seq.busy = false ∧
      (waiting ⟨0x0C, [], []⟩ bare).world.turns = [] ∧
      (waiting ⟨0x0C, [], []⟩ bare).world.cmds = ⟨0x0C, [], []⟩ :: [] ∧
      (12 ≤ (opField 0x0C).toNat ∨ rsvField 0x0C ≠ 0) ∧
      (12 ≤ (opField 0x200).toNat ∨ rsvField 0x200 ≠ 0) := by decide
theorem witness_FaultedBlockTakesNoStep :
    faulted.blk.fatal = true ∧ faulted.world.turns = [] ∧
      (faulted.withTurns [.quiet]).blk.fatal = true ∧
      (faulted.withTurns [.enter .lpuart]).blk.fatal = true ∧
      (faulted.withTurns [.arrive .usart 9]).blk.fatal = true ∧
      (faulted.withTurns [.reset]).blk.fatal = true := by decide
theorem witness_ResetBringsTheTableValues :
    (faulted.withTurns [.reset]).world.turns = .reset :: [] ∧
      (sending.withTurns [.reset]).world.turns = .reset :: [] := by decide

/-- The reference settings and a valid handle hold of every state built here. -/
theorem witness_reference : bare.reference ∧ (up .usart).reference ∧ (up .lpuart).reference ∧
    handleFault (handle .usart) = none ∧ handleFault (handle .lpuart) = none ∧
    handleDirFault ⟨true, 1, 1⟩ = none ∧ handleDirFault ⟨true, 0, 0⟩ = none := by decide

theorem witness_InitBringsThePortUp :
    (started (.init (handle .lpuart) 9600) bare).atStart (.init (handle .lpuart) 9600) ∧
      handleFault (handle .lpuart) = none ∧
      (started (.init (handle .lpuart) 9600) bare).reference ∧ (9600 : Word) ≠ 0 ∧
      (started (.init (handle .lpuart) 9600) bare).world.polls =
        true :: true :: true :: List.replicate 9 true := by decide
theorem witness_DeinitTearsThePortDown :
    (started (.deinit (handle .usart)) (up .usart)).atStart (.deinit (handle .usart)) ∧
      handleFault (handle .usart) = none ∧
      (started (.deinit (handle .usart)) (up .usart)).reference := by decide
theorem witness_SuspendDisablesAndRemembers :
    (started (.suspend (handle .usart)) (up .usart)).atStart (.suspend (handle .usart)) ∧
      handleFault (handle .usart) = none ∧
      (started (.suspend (handle .usart)) (up .usart)).reference ∧
      ((started (.suspend (handle .usart)) (up .usart)).port .usart).pe = true ∧
      (started (.suspend (handle .lpuart)) (up .usart)).atStart (.suspend (handle .lpuart)) ∧
      ((started (.suspend (handle .lpuart)) (up .usart)).port .lpuart).pe = false := by decide
theorem witness_SuspendTwiceDisablesOnce :
    ∃ t, (started (.suspend (handle .usart)) (up .usart)).atStart (.suspend (handle .usart)) ∧
      handleFault (handle .usart) = none ∧
      (started (.suspend (handle .usart)) (up .usart)).reference ∧
      exec (.suspend (handle .usart)) (started (.suspend (handle .usart)) (up .usart)) = .next t :=
  ⟨_, by decide, by decide, by decide, rfl⟩
theorem witness_ResumeEnablesAndClearsTheFlag :
    (started (.resume (handle .usart)) (bare.setWasEnabled .usart true)).atStart
        (.resume (handle .usart)) ∧
      handleFault (handle .usart) = none ∧
      (started (.resume (handle .usart)) (bare.setWasEnabled .usart true)).reference ∧
      ((started (.resume (handle .usart)) (bare.setWasEnabled .usart true)).drv .usart).wasEnabled =
        true ∧
      (started (.resume (handle .lpuart)) bare).atStart (.resume (handle .lpuart)) := by decide
theorem witness_CompletedResumeLeavesTheFlagClear :
    ∃ t u, handleFault (handle .usart) = none ∧
      (started (.resume (handle .usart)) bare).seq.busy = true ∧
      exec (.resume (handle .usart)) (started (.resume (handle .usart)) bare) = .next t ∧
      t.seq.busy = false ∧ (started (.resume (handle .usart)) bare).seq.upc.step ≤ 2 ∧
      ((started (.resume (handle .usart)) bare).drv .usart).wasEnabled = false ∧
      exec (.resume (handle .usart)) (atStep 4 (.resume (handle .usart)) bare) = .next u ∧
      u.seq.busy = false :=
  ⟨_, _, by decide, rfl, rfl, rfl, by decide, rfl, rfl, rfl⟩
theorem witness_SuspendThenResumeRestores :
    (started (.suspend (handle .lpuart)) (up .lpuart)).atStart (.suspend (handle .lpuart)) ∧
      handleFault (handle .lpuart) = none ∧
      (started (.suspend (handle .lpuart)) (up .lpuart)).reference ∧
      ((started (.suspend (handle .lpuart)) (up .lpuart)).port (boundPort (handle .lpuart))).pe = true ∧
      ((started (.suspend (handle .lpuart)) (up .lpuart)).drv
        (boundPort (handle .lpuart))).wasEnabled = false ∧
      (started (.suspend (handle .lpuart)) ((up .lpuart).setWasEnabled .lpuart true)).atStart
        (.suspend (handle .lpuart)) ∧
      ((started (.suspend (handle .lpuart)) ((up .lpuart).setWasEnabled .lpuart true)).port
        (boundPort (handle .lpuart))).pe = true := by decide

/-- Each of the seven rows of R162, by the three bits (and the ghost bit) that make it. -/
def inLife (busclk pe flag ghost : Bool) : State :=
  ((bare.modPort .usart fun e => { e with busclk := busclk, pe := pe }).setWasEnabled .usart
    flag).modDrv .usart fun d => { d with deinited := ghost }

/-- The seven rows, in the table's order. -/
def rows : List State :=
  [inLife false false false false, inLife false false false true, inLife true true false false,
    inLife true false true false, inLife true true true false, inLife false false true true,
    inLife false true false true]

/-- Every row and every column. -/
theorem witness_LifecycleTransitionTable :
    (rows.map fun s => s.life .usart) =
      [.uninitialized, .deinitialized, .enabled, .suspended, .enabledStale, .downStale, .irregular] ∧
    handleFault (handle .usart) = none ∧ (9600 : Word) ≠ 0 ∧
    ∀ c ∈ ([.init, .deinit, .suspend, .resume] : List LifeCmd), ∀ s ∈ rows,
      (started (c.instr (handle .usart) 9600) s).atStart (c.instr (handle .usart) 9600) ∧
      (started (c.instr (handle .usart) 9600) s).reference ∧
      (started (c.instr (handle .usart) 9600) s).world.polls =
        true :: true :: true :: List.replicate 9 true ∧
      (lifeAfter c ((started (c.instr (handle .usart) 9600) s).life
        (boundPort (handle .usart)))).isSome = true := by decide

/-- A baud change in flight, at the step that writes the prescaler. -/
def programming : State :=
  (atStep 7 (.setBaudRate (handle .lpuart) 9600) (up .lpuart)).modLoc fun l => { l with presc := 32 }

theorem programming_inFlight :
    programming.inFlight = some (.setBaudRate (handle .lpuart) 9600) := by decide

/-- A command that completes in one burst; a baud change in flight; and an idle block. -/
theorem witness_OtherCommandsKeepLife :
    (∃ t, (Instr.setBaudRate (handle .usart) 9600).op ≠ .init ∧
      (Instr.setBaudRate (handle .usart) 9600).op ≠ .deinit ∧
      (Instr.setBaudRate (handle .usart) 9600).op ≠ .suspend ∧
      (Instr.setBaudRate (handle .usart) 9600).op ≠ .resume ∧
      (started (.setBaudRate (handle .usart) 9600) (up .usart)).atStart
        (.setBaudRate (handle .usart) 9600) ∧
      (started (.setBaudRate (handle .usart) 9600) (up .usart)).reference ∧
      exec (.setBaudRate (handle .usart) 9600)
        (started (.setBaudRate (handle .usart) 9600) (up .usart)) = .next t ∧
      t.seq.busy = false) ∧
    (∃ t, programming.reference ∧ (∀ i, programming.running i → i.op.isLife = false) ∧
      (∀ r, programming.world.turns ≠ .reset :: r) ∧ step programming = .next t) ∧
    bare.seq.busy = false := by
  refine ⟨⟨_, by decide, by decide, by decide, by decide, by decide, by decide, rfl, rfl⟩,
    ⟨_, by decide, fun i hi => ?_, fun r => by simp [show programming.world.turns = [] from rfl], rfl⟩,
    rfl⟩
  rcases hi with hi | ⟨hb, -⟩
  · rw [programming_inFlight] at hi
    cases hi
    rfl
  · cases hb

/-- The two bounds of the query, from inside and from outside. -/
theorem witness_BaudQueryAnswersTheRange :
    (started (.isBaudRateSupported (handle .usart) 9600) bare).atStart
        (.isBaudRateSupported (handle .usart) 9600) ∧
      handleFault (handle .usart) = none ∧
      ([9599, 9600, 4000000, 4000001].map fun b : Word =>
        decide (9600 ≤ b.toNat ∧ b.toNat ≤ 4000000)) = [false, true, true, false] := by decide
theorem witness_SetBaudRateReprograms :
    (started (.setBaudRate (handle .lpuart) 115200) (up .lpuart)).atStart
        (.setBaudRate (handle .lpuart) 115200) ∧
      handleFault (handle .lpuart) = none ∧
      (started (.setBaudRate (handle .lpuart) 115200) (up .lpuart)).reference ∧ (115200 : Word) ≠ 0 ∧
      ((started (.setBaudRate (handle .lpuart) 115200) (up .lpuart)).port
        (boundPort (handle .lpuart))).pe = true ∧
      (started (.setBaudRate (handle .lpuart) 115200) (up .lpuart)).world.polls =
        true :: List.replicate 11 true := by decide
theorem witness_SetBaudRateSkipsSilently :
    (started (.setBaudRate (handle .lpuart) 0) bare).atStart (.setBaudRate (handle .lpuart) 0) ∧
      handleFault (handle .lpuart) = none ∧
      (started (.setBaudRate (handle .lpuart) 0) bare).reference ∧
      ((started (.setBaudRate (handle .lpuart) 0) bare).port (boundPort (handle .lpuart))).pe = false := by
  decide
theorem witness_BaudZeroStopsAtTheCalculation :
    ((started (.setBaudRate (handle .usart) 0) (up .usart)).atStart (.setBaudRate (handle .usart) 0) ∧
      handleFault (handle .usart) = none ∧
      (started (.setBaudRate (handle .usart) 0) (up .usart)).reference ∧
      ((started (.setBaudRate (handle .usart) 0) (up .usart)).port (boundPort (handle .usart))).pe =
        true ∧
      (started (.setBaudRate (handle .usart) 0) (up .usart)).world.polls =
        true :: List.replicate 11 true) ∧
    (atStep 6 (.setBaudRate (handle .usart) 1) bare).seq.upc.step = 6 ∧
    (atStep 15 (.init (handle .usart) 1) bare).seq.upc.step = 15 := by decide

/-- The last ratio of the ×1 path and the first of the ×32 path. -/
theorem witness_PrescalerTestIsTruncating :
    0 < 15626 ∧ prescalerFor .lpuart 64000000 15626 = 1 ∧ prescalerFor .lpuart 64000000 15625 = 32 ∧
      4294967295 < 2 ^ 32 := by decide
theorem witness_DivisorRangeConditions :
    0 < 9600 ∧ 64000000 / 15626 ≤ 4095 ∧ 4096 ≤ 64000000 / 15625 ∧
      (4294967295 < 2 ^ 32 ∧ 32769 ≤ 32769 ∧ 4096 ≤ 4294967295 / 32769) := by decide
/-- A baud change in flight past its wait, at the step that writes the prescaler, with what its steps 3 to 5
have issued. -/
def changing : State :=
  (((programming.modLoc fun l => { l with f := 64000000 }).log .sequencer (.flagTC .lpuart true)).log
    .sequencer (.periphDisable .lpuart)).log .sequencer (.clkFreq .lpuart 64000000)

theorem changing_issued : changing.issued =
    [.flagTC .lpuart true, .periphDisable .lpuart, .clkFreq .lpuart 64000000] := by decide

theorem changing_inFlight : changing.inFlight = some (.setBaudRate (handle .lpuart) 9600) := by decide

theorem changing_inv : changing.baudOrderInv := by
  refine ⟨?_, fun i hi => ?_⟩
  · rw [changing_issued]
    have nil : baudWritesOrdered [] := fun _ l _ _ e => by cases l <;> cases e
    exact baudWritesOrdered_snoc (l := [_, _]) (baudWritesOrdered_snoc (l := [_])
      (baudWritesOrdered_snoc nil fun _ w => False.elim w) fun _ w => False.elim w) fun _ w => False.elim w
  · rw [changing_inFlight] at hi
    cases hi
    exact ⟨nofun, nofun, fun _ => ⟨[], changing_issued.symm⟩, nofun, nofun⟩

/-- From the check, from the wait, and past the wait. -/
theorem witness_DivisorWritesFollowTheWait :
    ∃ t u v, exec (.setBaudRate (handle .lpuart) 9600)
        (started (.setBaudRate (handle .lpuart) 9600) (up .lpuart)) = .next t ∧
      (started (.setBaudRate (handle .lpuart) 9600) (up .lpuart)).seq.upc.step ≤ 3 ∧
      exec (.setBaudRate (handle .lpuart) 9600)
        (atStep 3 (.setBaudRate (handle .lpuart) 9600) (up .lpuart)) = .next u ∧
      (atStep 3 (.setBaudRate (handle .lpuart) 9600) (up .lpuart)).seq.upc.step ≤ 3 ∧
      changing.baudOrderInv ∧ step changing = .next v :=
  ⟨_, _, _, rfl, by decide, rfl, by decide, changing_inv, rfl⟩
theorem witness_UsartPrescalerIsNeverWritten :
    (∃ t, (∀ e ∈ (sending.log .sequencer (.setPrescaler .lpuart 32)).trc.primlog,
        e.isUsartPrescaler = false) ∧
      (sending.port .usart).presc = 1 ∧
      step (sending.log .sequencer (.setPrescaler .lpuart 32)) = .next t) ∧
    sending.reference ∧ (atStep 6 (.init (handle .usart) 1) bare).seq.upc.step = 6 :=
  ⟨⟨_, by decide, by decide, rfl⟩, by decide, by decide⟩
theorem witness_TxSendsEveryByteInOrder :
    (started (.tx (handle .usart) [0x48, 0x69]) (up .usart)).atStart (.tx (handle .usart) [0x48, 0x69]) ∧
      handleFault (handle .usart) = none ∧
      (started (.tx (handle .usart) [0x48, 0x69]) (up .usart)).reference ∧
      ([0x48, 0x69] : List Byte) ≠ [] ∧
      ((started (.tx (handle .usart) [0x48, 0x69]) (up .usart)).port (boundPort (handle .usart))).pe =
        true ∧
      (started (.tx (handle .usart) [0x48, 0x69]) (up .usart)).world.polls =
        List.replicate ([0x48, 0x69] : List Byte).length true ++ List.replicate 10 true := by decide
theorem witness_TxDropsSilently :
    ((started (.tx (handle .usart) [1, 2, 3]) bare).atStart (.tx (handle .usart) [1, 2, 3]) ∧
      handleFault (handle .usart) = none ∧ (started (.tx (handle .usart) [1, 2, 3]) bare).reference ∧
      ((started (.tx (handle .usart) [1, 2, 3]) bare).port (boundPort (handle .usart))).pe = false) ∧
    (started (.tx (handle .usart) []) (up .usart)).atStart (.tx (handle .usart) []) := by decide
/-- Enabled with the answer 1; disabled with no answer, with a 0 and with a 1 listed (T5). -/
theorem witness_TxWaitCompleteWritesNothing :
    handleFault (handle .usart) = none ∧
    ∀ s ∈ [up .usart, polled [] bare, polled [false] bare, bare],
      (started (.txWaitComplete (handle .usart)) s).atStart (.txWaitComplete (handle .usart)) ∧
      (started (.txWaitComplete (handle .usart)) s).reference ∧
      (((started (.txWaitComplete (handle .usart)) s).port (boundPort (handle .usart))).pe = true →
        (started (.txWaitComplete (handle .usart)) s).world.polls =
          true :: List.replicate 11 true) := by decide

/-- The five waits, each with the flag at 0; for the acknowledge flags all three failing pairs. -/
theorem witness_FailedPollChangesNothing :
    handleFault (handle .usart) = none ∧
      (atStep 3 (.txWaitComplete (handle .usart)) (polled [false] bare)).world.polls = false :: [] ∧
      (atStep 3 (.txWaitComplete (handle .usart)) (polled [false] bare)).seq.upc.step = 3 ∧
      (atStep 3 (.tx (handle .usart) [1]) (polled [false] bare)).seq.upc.step = 3 ∧
      (atStep 3 (.setBaudRate (handle .usart) 1) (polled [false] bare)).seq.upc.step = 3 ∧
      (atStep 12 (.init (handle .usart) 1) (polled [false] bare)).seq.upc.step = 12 ∧
      (atStep 10 (.init (handle .usart) 1) (polled [true, false] bare)).world.polls =
        true :: false :: [] ∧
      (true && false) = false ∧ (false && true) = false ∧ (false && false) = false ∧
      (atStep 10 (.init (handle .usart) 1) (polled [true, false] bare)).seq.upc.step = 10 := by decide

theorem witness_RegistrationArms :
    (started (.setRxCallback (handle .usart) 0x20000100 0xCAFE) bare).atStart
        (.setRxCallback (handle .usart) 0x20000100 0xCAFE) ∧
      handleFault (handle .usart) = none ∧
      (started (.setRxCallback (handle .usart) 0x20000100 0xCAFE) bare).reference ∧
      (0x20000100 : Word) ≠ 0 := by decide
theorem witness_UnregistrationDisarms :
    (started (.setRxCallback (handle .usart) 0 0x1234) (armed .usart)).atStart
        (.setRxCallback (handle .usart) 0 0x1234) ∧
      handleFault (handle .usart) = none ∧
      (started (.setRxCallback (handle .usart) 0 0x1234) (armed .usart)).reference := by decide

/-- A handler entry that is due: a byte is there and the port is armed; and one that is not possible. -/
def due : State := ((armed .usart).arrive .usart 0x41).withTurns [.enter .usart]

theorem witness_HandlerEntryCondition :
    due.world.turns = .enter .usart :: [] ∧ due.mayEnter .usart = true ∧
      due.mayEnter .lpuart = false := by decide
theorem witness_HandlerDeliversOneByte :
    due.reference ∧ due.world.turns = .enter .usart :: [] ∧ due.mayEnter .usart = true ∧
      (due.port .usart).rxne = true ∧ (due.drv .usart).cb ≠ 0 := by decide
theorem witness_HandlerWithoutByteInvokesNothing :
    ((armed .usart).withTurns [.enter .usart]).reference ∧
      ((armed .usart).withTurns [.enter .usart]).world.turns = .enter .usart :: [] ∧
      ((armed .usart).withTurns [.enter .usart]).mayEnter .usart = true ∧
      (((armed .usart).withTurns [.enter .usart]).port .usart).rxne = false := by decide
theorem witness_HandlersWriteNothingOfTheBlock :
    ∃ t, due.world.turns = .enter .usart :: [] ∧ step due = .next t := ⟨_, rfl, rfl⟩
theorem witness_ArrivalStoresOrOverruns :
    (bare.withTurns [.arrive .usart 0x41]).world.turns = .arrive .usart 0x41 :: [] ∧
      ((bare.withTurns [.arrive .usart 0x41]).port .usart).rxne = false ∧
      (due.port .usart).rxne = true := by decide
theorem witness_DeliveryProperties :
    ((started (.setRxCallback (handle .lpuart) 0x100 2) bare).atStart
        (.setRxCallback (handle .lpuart) 0x100 2) ∧
      handleFault (handle .lpuart) = none ∧
      (started (.setRxCallback (handle .lpuart) 0x100 2) bare).reference ∧ (0x100 : Word) ≠ 0 ∧
      ((started (.setRxCallback (handle .lpuart) 0x100 2) bare).port
        (boundPort (handle .lpuart))).rxne = false) ∧
    ((started (.setRxCallback (handle .lpuart) 0 2) (armed .lpuart)).atStart
        (.setRxCallback (handle .lpuart) 0 2) ∧
      (started (.setRxCallback (handle .lpuart) 0 2) (armed .lpuart)).reference) := by decide

/-- X6: the second registration is between its two stores when the handler comes. -/
def tearing : State :=
  ((atStep 2 (.setRxCallback (handle .usart) 0x20000200 0xBEEF) (armed .usart)).arrive .usart
    0x50).withTurns [.enter .usart]

theorem witness_HandlerBetweenStoresSeesATornPair :
    handleFault (handle .usart) = none ∧ tearing.reference ∧ (0x20000200 : Word) ≠ 0 ∧
      tearing.blk.fatal = false ∧ tearing.seq.upc.step = 2 ∧
      tearing.world.turns = .enter (boundPort (handle .usart)) :: [] ∧
      tearing.mayEnter (boundPort (handle .usart)) = true ∧
      (tearing.port (boundPort (handle .usart))).rxne = true ∧
      (tearing.drv (boundPort (handle .usart))).cb ≠ 0 := by decide
theorem witness_EnableDirectionTouchesOneDirection :
    (started (.enableDirection ⟨true, 1, 1⟩) bare).atStart (.enableDirection ⟨true, 1, 1⟩) ∧
      handleDirFault ⟨true, 1, 1⟩ = none ∧
      (started (.enableDirection ⟨true, 1, 1⟩) bare).reference := by decide
theorem witness_DisableDirectionTouchesOneDirection :
    (started (.disableDirection ⟨true, 0, 0⟩) (up .usart)).atStart (.disableDirection ⟨true, 0, 0⟩) ∧
      handleDirFault ⟨true, 0, 0⟩ = none ∧
      (started (.disableDirection ⟨true, 0, 0⟩) (up .usart)).reference := by decide
theorem witness_GetGpioPinAnswersTheTable :
    (started (.getGpioPin ⟨true, 0, 1⟩) bare).atStart (.getGpioPin ⟨true, 0, 1⟩) ∧
      handleDirFault ⟨true, 0, 1⟩ = none := by decide
theorem witness_DescriptorsAreDistinct :
    ∃ p q d e, (Config.descOf p).pin.get d = (Config.descOf q).pin.get e :=
  ⟨.usart, .usart, .tx, .tx, rfl⟩

/-- The frames: a command of each kind that answers a next state. -/
theorem witness_DriverStateFrame_InterfaceFrame_SequencerFrame :
    (∃ t, exec (.deinit (handle .usart)) (started (.deinit (handle .usart)) (up .usart)) = .next t) ∧
      (∃ t, exec (.init (handle .lpuart) 9600) (started (.init (handle .lpuart) 9600) bare) = .next t) ∧
      (∃ t, exec (.tx (handle .usart) [1]) (started (.tx (handle .usart) [1]) (up .usart)) = .next t) ∧
      (Instr.tx (handle .usart) [1]).op ≠ .init :=
  ⟨⟨_, rfl⟩, ⟨_, rfl⟩, ⟨_, rfl⟩, by decide⟩
theorem witness_CommandsKeepTheOtherPort :
    ∃ t, exec (.init (handle .lpuart) 9600) (started (.init (handle .lpuart) 9600) bare) = .next t ∧
      boundPort (Instr.init (handle .lpuart) 9600).hdr = .lpuart := ⟨_, rfl, rfl⟩

/-- A registration in flight, at the step that attaches the handler. -/
def registering : State := atStep 4 (.setRxCallback (handle .usart) 5 6) (bare.setCb .usart 5)

theorem registering_inFlight :
    registering.inFlight = some (.setRxCallback (handle .usart) 5 6) := by decide

theorem witness_StepKeepsRegistrationInvariant :
    ∃ t, registering.registrationInv ∧ step registering = .next t := by
  refine ⟨_, ⟨fun p => by cases p <;> decide, fun i hi => ?_⟩, rfl⟩
  rw [registering_inFlight] at hi
  cases hi
  exact fun _ => by decide
theorem witness_StepKeepsUpcInvariant : ∃ t, sending.upcInv ∧ step sending = .next t := by
  refine ⟨_, ⟨fun h => (by cases h), fun _ _ => ⟨by decide, ?_⟩⟩, rfl⟩
  have d : decode (latched sending.seq) = .ok (.tx (handle .usart) [0xAA, 0xBB]) := by decide
  rw [d]
  exact ⟨by decide, by decide, fun _ => by decide, fun h => absurd h (by decide), fun _ => by decide⟩

theorem witness_StepKeepsPrescalerInvariant : ∃ t, programming.prescInv ∧ step programming = .next t := by
  refine ⟨_, ⟨by decide, by decide, fun i hi => ?_⟩, rfl⟩
  rw [programming_inFlight] at hi
  cases hi
  exact fun _ => by decide
theorem witness_StepKeepsTraceInvariant :
    ∃ t, (sending.writeData .usart 0xAA).traceInv ∧ step (sending.writeData .usart 0xAA) = .next t :=
  ⟨_, ⟨fun p => by cases p <;> decide, by decide⟩, rfl⟩

/-- A baud change to 0 in flight, at the calculation step. -/
def dividing : State := atStep 6 (.setBaudRate (handle .usart) 0) bare

theorem dividing_inFlight : dividing.inFlight = some (.setBaudRate (handle .usart) 0) := by decide

theorem witness_OnlyBaudZeroStopsARun :
    dividing.registrationInv ∧ dividing.upcInv ∧ step dividing = .fault .baudZero := by
  refine ⟨⟨fun p => by cases p <;> decide, fun i hi => ?_⟩,
    ⟨fun h => (by cases h), fun _ _ => ⟨by decide, ?_⟩⟩, rfl⟩
  · rw [dividing_inFlight] at hi
    cases hi
    trivial
  · have d : decode (latched dividing.seq) = .ok (.setBaudRate (handle .usart) 0) := by decide
    rw [d]
    exact ⟨by decide, by decide, fun _ => by decide, trivial⟩
theorem witness_OnlyResetClearsTheFatalLatch :
    ∃ t, step (faulted.withTurns [.arrive .usart 1]) = .next t ∧
      (faulted.withTurns [.arrive .usart 1]).blk.fatal = true ∧
      (∀ r, (faulted.withTurns [.arrive .usart 1]).world.turns ≠ .reset :: r) :=
  ⟨_, rfl, rfl, fun r h => by cases h⟩

end Sys2Proof.Tests
end

section
/-!
The scope of a command (00_scope.md R3): a command acts on the port its handle binds and on no other.
-/

namespace Sys2Proof.Machine

/-- Settles O49: a command either raises at its check step, which touches only the fatal latch and its
reason, or is a run of micro-steps of its own port, whose `Effect` names what they leave alone. -/
theorem commandsKeepTheOtherPort : Obligations.CommandsKeepTheOtherPort := by
  intro i s t h
  rcases exec_cases h with ⟨r, -, -, rfl⟩ | ⟨-, e⟩
  · exact ⟨rfl, rfl, rfl, fun _ => rfl⟩
  · exact ⟨e.portOther, e.drvOther, e.txlogOther, e.asyncMode⟩

end Sys2Proof.Machine
end

section
/-!
The reset event (70_reset_and_hazards.md R300) and what holds right after it, the fatal latch, and the
distinct identifiers of the descriptor table (10_state.md R36).
-/

namespace Sys2Proof.Machine

/-- The table of reset values, whatever the draw counter `n` the unspecified elements are drawn with, and
whatever of the outside is kept. -/
theorem atReset_of_resetValues (n d : Nat) (w : World) (b : Build) :
    AtReset ⟨.reset n, .reset n, .reset n, .reset, w, d, b⟩ := by
  constructor
  case ports => intro p; cases p <;> constructor <;> rfl
  case txlog => intro p; cases p <;> rfl
  all_goals rfl

theorem reset_atReset : AtReset State.reset := atReset_of_resetValues ..

theorem resetEvent_atReset (s : State) : AtReset s.resetEvent := atReset_of_resetValues ..

/-- Settles O14: both resets bring every element to the one table of values, with different draws. -/
theorem resetBringsTheTableValues : Obligations.ResetBringsTheTableValues := by
  refine ⟨reset_atReset, fun s r h => ⟨(s.withTurns r).resetEvent, ?_, resetEvent_atReset _⟩⟩
  simp [step, move, h]

/-! ### The invariants right after reset -/

/-- An idle sequencer has no command in flight. -/
theorem inFlight_of_idle {s : State} (h : s.seq.busy = false) : s.inFlight = none := by
  simp [State.inFlight, h]

theorem AtReset.registrationInv {s : State} (h : AtReset s) : s.registrationInv := by
  refine ⟨fun p k => ?_, fun i k => ?_⟩
  · rw [(h.ports p).vec] at k; cases k
  · rw [inFlight_of_idle h.busy] at k; cases k

theorem AtReset.upcInv {s : State} (h : AtReset s) : s.upcInv := by
  refine ⟨fun k => ?_, fun k => ?_⟩
  · rw [h.fatal] at k; cases k
  · rw [h.busy] at k; cases k

theorem AtReset.prescInv {s : State} (h : AtReset s) : s.prescInv := by
  refine ⟨(h.ports _).presc, .inl (h.ports _).presc, fun i k => ?_⟩
  rw [inFlight_of_idle h.busy] at k; cases k

theorem AtReset.traceInv {s : State} (h : AtReset s) : s.traceInv :=
  ⟨fun p => by rw [h.txlog, h.primlog]; rfl, by rw [h.cblog, h.primlog]; rfl⟩

/-- Settles O58: each invariant follows from the table of reset values. -/
theorem resetMeetsTheInvariants : Obligations.ResetMeetsTheInvariants :=
  ⟨reset_atReset.registrationInv, reset_atReset.upcInv, reset_atReset.prescInv, reset_atReset.traceInv⟩

/-! ### The fatal latch -/

theorem sequencerTurn_of_fatal {s : State} (h : s.blk.fatal = true) : sequencerTurn s = .next s := by
  simp [sequencerTurn, h]

theorem enterHandler_of_fatal {s : State} (h : s.blk.fatal = true) (p : Port) :
    enterHandler p s = .next s := by
  simp [enterHandler, State.mayEnter, h]

/-- Settles O60: by the agent whose turn it is. While faulted the sequencer and the handlers answer the same
block state, and an arrival writes none of it. -/
theorem onlyResetClearsTheFatalLatch : Obligations.OnlyResetClearsTheFatalLatch := by
  intro s t h hf noReset
  have blk : t.blk = s.blk := by
    unfold step move at h
    split at h
    · rw [sequencerTurn_of_fatal hf] at h; cases h; rfl
    · rw [sequencerTurn_of_fatal (by exact hf)] at h; cases h; rfl
    · cases h; rfl
    · rw [enterHandler_of_fatal (by exact hf)] at h; cases h; rfl
    · next r turns => exact absurd turns (noReset r)
  exact ⟨by rw [blk, hf], by rw [blk]⟩

/-! ### The descriptor table -/

/-- Where the pin of a port and direction stands in the table's list of the four pins. -/
def pinIndex : Port → Dir → Fin 4
  | .usart, .tx => 0
  | .usart, .rx => 1
  | .lpuart, .tx => 2
  | .lpuart, .rx => 3

theorem pinIndex_inj : ∀ p q d e, pinIndex p d = pinIndex q e → p = q ∧ d = e := by
  intro p q d e
  cases p <;> cases q <;> cases d <;> cases e <;> decide

/-- The four pin identifiers, as the table's type lists them. -/
def pinIds : List Word :=
  [Config.desc.usart.pin.tx, Config.desc.usart.pin.rx, Config.desc.lpuart.pin.tx,
    Config.desc.lpuart.pin.rx]

theorem pin_eq_pinIds (p : Port) (d : Dir) :
    (Config.descOf p).pin.get d = pinIds.get (pinIndex p d) := by
  cases p <;> cases d <;> rfl

theorem pinIds_nodup : pinIds.Nodup := Config.desc.pinsDistinct

/-- An identifier on which the two rows of the table differ names its port. -/
theorem port_eq_of_id_eq {f : Config.PortDesc → Word} (h : f Config.desc.usart ≠ f Config.desc.lpuart)
    {p q : Port} (e : f (Config.descOf p) = f (Config.descOf q)) : p = q := by
  cases p <;> cases q
  · rfl
  · exact absurd e h
  · exact absurd e.symm h
  · rfl

/-- Settles O48: the four requirements of R36 are fields of the table's type. -/
theorem descriptorsAreDistinct : Obligations.DescriptorsAreDistinct := by
  refine ⟨fun p q d e h => ?_, fun p q => ⟨?_, ?_, ?_⟩⟩
  · rw [pin_eq_pinIds, pin_eq_pinIds] at h
    exact pinIndex_inj p q d e (pinIds_nodup.injective_get h)
  · exact port_eq_of_id_eq (f := (·.bus)) Config.desc.busDistinct
  · exact port_eq_of_id_eq (f := (·.vec)) Config.desc.vecDistinct
  · exact port_eq_of_id_eq (f := (·.regs)) Config.desc.regsDistinct

end Sys2Proof.Machine
end

section
/-!
Which operation writes what (10_state.md R27 to R40, 20_memory.md R61). `Frame` lists, for each operation, the
elements none of its micro-steps writes; `Runs` adds where the micro-program counter may be after a
micro-step. Both are kept by composition, so each micro-program needs one lemma, and the induction over a
command carries it to `exec`.
-/

namespace Sys2Proof.Machine

/-! ### The frame of an operation -/

/-- The control fields of one port that the operation does not write, before (`e`) and after (`f`). -/
structure PortFrame (o : Op) (e f : PortEnv) : Prop where
  vec : o ≠ .setRxCallback → o ≠ .deinit → f.vec = e.vec
  rxneIe : o ≠ .setRxCallback → o ≠ .deinit → f.rxneIe = e.rxneIe
  busclk : o ≠ .init → o ≠ .deinit → f.busclk = e.busclk
  clksel : o ≠ .init → f.clksel = e.clksel
  frame : o ≠ .init → f.frame = e.frame
  fifoEn : o ≠ .init → f.fifoEn = e.fifoEn
  errIe : o ≠ .init → f.errIe = e.errIe
  presc : o ≠ .init → o ≠ .setBaudRate → f.presc = e.presc
  div : o ≠ .init → o ≠ .setBaudRate → f.div = e.div
  pe : o ≠ .init → o ≠ .deinit → o ≠ .suspend → o ≠ .resume → o ≠ .setBaudRate → f.pe = e.pe
  dirEn : o ≠ .init → o ≠ .enableDirection → o ≠ .disableDirection → f.dirEn = e.dirEn
  pins : o ≠ .init → o ≠ .deinit → o ≠ .enableDirection → o ≠ .disableDirection → f.pins = e.pins

/-- The parts of one port's DriverState that the operation does not write. -/
structure DriverFrame (o : Op) (d e : Driver) : Prop where
  wasEnabled : o ≠ .suspend → o ≠ .resume → e.wasEnabled = d.wasEnabled
  cb : o ≠ .setRxCallback → o ≠ .deinit → e.cb = d.cb
  ctx : o ≠ .setRxCallback → o ≠ .deinit → e.ctx = d.ctx
  deinited : o ≠ .deinit → e.deinited = d.deinited

/-- The elements that the operation does not write, and that it keeps the trace invariant. -/
structure Frame (o : Op) (s t : State) : Prop where
  port : ∀ q, PortFrame o (s.port q) (t.port q)
  drv : ∀ q, DriverFrame o (s.drv q) (t.drv q)
  asyncMode : o ≠ .init → t.ifc.asyncMode = s.ifc.asyncMode
  resp : o ≠ .isBaudRateSupported → o ≠ .getGpioPin → t.seq.resp = s.seq.resp
  respValid : o ≠ .isBaudRateSupported → o ≠ .getGpioPin → t.seq.respValid = s.seq.respValid
  txlog : o ≠ .tx → t.trc.txlog = s.trc.txlog
  trace : s.traceInv → t.traceInv

theorem PortFrame.refl (o : Op) (e : PortEnv) : PortFrame o e e := by constructor <;> intros <;> rfl

theorem PortFrame.trans {o : Op} {e f g : PortEnv} (h : PortFrame o e f) (k : PortFrame o f g) :
    PortFrame o e g where
  vec a b := (k.vec a b).trans (h.vec a b)
  rxneIe a b := (k.rxneIe a b).trans (h.rxneIe a b)
  busclk a b := (k.busclk a b).trans (h.busclk a b)
  clksel a := (k.clksel a).trans (h.clksel a)
  frame a := (k.frame a).trans (h.frame a)
  fifoEn a := (k.fifoEn a).trans (h.fifoEn a)
  errIe a := (k.errIe a).trans (h.errIe a)
  presc a b := (k.presc a b).trans (h.presc a b)
  div a b := (k.div a b).trans (h.div a b)
  pe a b c d e := (k.pe a b c d e).trans (h.pe a b c d e)
  dirEn a b c := (k.dirEn a b c).trans (h.dirEn a b c)
  pins a b c d := (k.pins a b c d).trans (h.pins a b c d)

theorem DriverFrame.refl (o : Op) (d : Driver) : DriverFrame o d d := by constructor <;> intros <;> rfl

theorem DriverFrame.trans {o : Op} {d e f : Driver} (h : DriverFrame o d e) (k : DriverFrame o e f) :
    DriverFrame o d f where
  wasEnabled a b := (k.wasEnabled a b).trans (h.wasEnabled a b)
  cb a b := (k.cb a b).trans (h.cb a b)
  ctx a b := (k.ctx a b).trans (h.ctx a b)
  deinited a := (k.deinited a).trans (h.deinited a)

theorem Frame.trans {o : Op} {s t u : State} (h : Frame o s t) (k : Frame o t u) : Frame o s u where
  port q := (h.port q).trans (k.port q)
  drv q := (h.drv q).trans (k.drv q)
  asyncMode a := (k.asyncMode a).trans (h.asyncMode a)
  resp a b := (k.resp a b).trans (h.resp a b)
  respValid a b := (k.respValid a b).trans (h.respValid a b)
  txlog a := (k.txlog a).trans (h.txlog a)
  trace a := k.trace (h.trace a)

/-- What moves only the sequencer, the world, the draws or the latch, and does not respond. -/
theorem frame_of_eq (o : Op) {s t : State} (ifc : t.ifc = s.ifc) (drv : t.blk.drv = s.blk.drv)
    (trc : t.trc = s.trc) (resp : t.seq.resp = s.seq.resp)
    (respValid : t.seq.respValid = s.seq.respValid) : Frame o s t where
  port q := by simp only [State.port, ifc]; exact .refl ..
  drv q := by simp only [State.drv, drv]; exact .refl ..
  asyncMode _ := by rw [ifc]
  resp _ _ := resp
  respValid _ _ := respValid
  txlog _ := by rw [trc]
  trace h := by simp only [State.traceInv, trc]; exact h

theorem Frame.refl (o : Op) (s : State) : Frame o s s := frame_of_eq o rfl rfl rfl rfl rfl

theorem raiseFatal_frame (o : Op) (s : State) (r : FatalReason) : Frame o s (s.raiseFatal r) :=
  frame_of_eq o rfl rfl rfl rfl rfl

/-! ### The trace invariant -/

/-- A log that grows by entries that neither write nor call keeps the trace invariant. -/
theorem Issues.traceInv {w : Issuer} {x : List Prim} {f : Iface → Iface} {s t : State}
    (h : Issues w x f s t) (unwritten : ∀ y ∈ x, ∀ p, LogEntry.written p ⟨w, y⟩ = none)
    (uncalled : ∀ y ∈ x, LogEntry.called ⟨w, y⟩ = none) (inv : s.traceInv) : t.traceInv := by
  obtain ⟨tx, cb⟩ := inv
  refine ⟨fun p => ?_, ?_⟩
  · have none : (x.map (⟨w, ·⟩)).filterMap (LogEntry.written p) = [] := by
      simpa [List.filterMap_eq_nil_iff] using fun y hy => unwritten y hy p
    rw [h.txlog, tx, h.primlog, List.filterMap_append, none, List.append_nil]
  · have none : (x.map (⟨w, ·⟩)).filterMap LogEntry.called = [] := by
      simpa [List.filterMap_eq_nil_iff] using uncalled
    rw [h.cblog, cb, h.primlog, List.filterMap_append, none, List.append_nil]

/-- Only handlers call. -/
theorem called_sequencer (x : Prim) : LogEntry.called ⟨.sequencer, x⟩ = none := rfl

theorem writeData_traceInv {s : State} (p : Port) (b : Byte) (inv : s.traceInv) :
    (s.writeData p b).traceInv := by
  obtain ⟨tx, cb⟩ := inv
  refine ⟨fun q => ?_, by simp [cb, called_sequencer]⟩
  obtain rfl | rfl := Port.eq_or_other p q
  · simp [tx, LogEntry.written]
  · simp [tx, LogEntry.written, (Port.other_ne p).symm]

theorem cbInvoke_traceInv {s : State} (p : Port) (c : Word) (b : Byte) (x : Word) (inv : s.traceInv) :
    (s.cbInvoke p c b x).traceInv := by
  obtain ⟨tx, cb⟩ := inv
  exact ⟨fun q => by simp [tx, LogEntry.written], by simp [cb, LogEntry.called]⟩

/-! ### What comes before the move of a micro-step -/

/-- The primitives and DriverState writes of a micro-step: the frame of the operation, and `upc` and `busy`
stay. -/
structure Acts (o : Op) (s t : State) : Prop extends Frame o s t where
  upc : t.seq.upc = s.seq.upc
  busy : t.seq.busy = s.seq.busy

theorem Acts.refl (o : Op) (s : State) : Acts o s s := ⟨.refl o s, rfl, rfl⟩

theorem Acts.trans {o : Op} {s t u : State} (h : Acts o s t) (k : Acts o t u) : Acts o s u :=
  ⟨h.toFrame.trans k.toFrame, k.upc.trans h.upc, k.busy.trans h.busy⟩

/-- A primitive of a port, when the operation may write the field it writes. -/
theorem Issues.acts {o : Op} {x : Prim} {p : Port} {g : PortEnv → PortEnv} {s t : State}
    (h : Issues .sequencer [x] (·.modPort p g) s t)
    (writes : ∀ e, PortFrame o e (g e) := by intro e; constructor <;> simp)
    (unwritten : ∀ q, LogEntry.written q ⟨.sequencer, x⟩ = none := by intro q; rfl) : Acts o s t where
  port q := by
    obtain rfl | rfl := Port.eq_or_other p q
    · rcases h.own with e | e <;> rw [e]
      · exact .refl ..
      · exact writes _
    · rw [h.others.1]; exact .refl ..
  drv q := by rw [h.drv]; exact .refl ..
  asyncMode _ := h.others.2
  resp _ _ := by rw [h.seq]
  respValid _ _ := by rw [h.seq]
  txlog _ := h.txlog
  trace := h.traceInv (by simpa using unwritten) (by simp [called_sequencer])
  upc := by rw [h.seq]
  busy := by rw [h.seq]

/-- A query. -/
theorem Issues.query_acts {o : Op} {x : Prim} {s t : State} (h : Issues .sequencer [x] id s t)
    (unwritten : ∀ q, LogEntry.written q ⟨.sequencer, x⟩ = none := by intro q; rfl) : Acts o s t where
  port q := by simp only [State.port, h.query]; exact .refl ..
  drv q := by rw [h.drv]; exact .refl ..
  asyncMode _ := by rw [h.query]
  resp _ _ := by rw [h.seq]
  respValid _ _ := by rw [h.seq]
  txlog _ := h.txlog
  trace := h.traceInv (by simpa using unwritten) (by simp [called_sequencer])
  upc := by rw [h.seq]
  busy := by rw [h.seq]

theorem DrawKeeps.acts {o : Op} {s d : State} (h : DrawKeeps s d) : Acts o s d :=
  ⟨frame_of_eq o h.ifc (by rw [h.blk]) h.trc (by rw [h.seq]) (by rw [h.seq]), by rw [h.seq],
    by rw [h.seq]⟩

/-- A recorded primitive that changes nothing. -/
theorem log_acts {o : Op} (s : State) (x : Prim)
    (unwritten : ∀ q, LogEntry.written q ⟨.sequencer, x⟩ = none := by intro q; rfl) :
    Acts o s (s.log .sequencer x) :=
  Issues.query_acts ⟨rfl, rfl, rfl, rfl, rfl, rfl, rfl, rfl, .inl rfl⟩ unwritten

theorem asyncModeUsart_acts (s : State) : Acts .init s s.asyncModeUsart := by
  have h := asyncModeUsart_issues s
  have env : s.asyncModeUsart.ifc.env = s.ifc.env := by rcases h.ifc with e | e <;> rw [e]
  exact
    { port := fun q => by simp only [State.port, env]; exact .refl ..
      drv := fun q => by rw [h.drv]; exact .refl ..
      asyncMode := absurd rfl
      resp := fun _ _ => by rw [h.seq]
      respValid := fun _ _ => by rw [h.seq]
      txlog := fun _ => h.txlog
      trace := h.traceInv (by simp [LogEntry.written]) (by simp [called_sequencer])
      upc := by rw [h.seq]
      busy := by rw [h.seq] }

theorem writeData_acts (s : State) (p : Port) (b : Byte) : Acts .tx s (s.writeData p b) where
  port _ := .refl ..
  drv _ := .refl ..
  asyncMode _ := rfl
  resp _ _ := rfl
  respValid _ _ := rfl
  txlog := absurd rfl
  trace := writeData_traceInv p b
  upc := rfl
  busy := rfl

/-- A write of DriverState, when the operation may write the part it writes. -/
theorem modDrv_acts {o : Op} (s : State) (p : Port) {f : Driver → Driver}
    (writes : ∀ d, DriverFrame o d (f d) := by intro d; constructor <;> simp) :
    Acts o s (s.modDrv p f) where
  port _ := .refl ..
  drv q := by
    obtain rfl | rfl := Port.eq_or_other p q
    · rw [State.modDrv_drv]; exact writes _
    · rw [State.modDrv_drv_other]; exact .refl ..
  asyncMode _ := rfl
  resp _ _ := rfl
  respValid _ _ := rfl
  txlog _ := rfl
  trace := id
  upc := rfl
  busy := rfl

theorem modLoc_acts {o : Op} (s : State) (f : Locals → Locals) : Acts o s (s.modLoc f) :=
  ⟨frame_of_eq o rfl rfl rfl rfl rfl, rfl, rfl⟩

theorem tick_acts {o : Op} (s : State) : Acts o s s.tick :=
  ⟨frame_of_eq o rfl rfl rfl rfl rfl, rfl, rfl⟩

/-! ### Micro-steps -/

/-- The micro-program counter names a micro-step of the operation (10_state.md R24). -/
def AtMicroStep (o : Op) (u : Upc) : Prop := 1 ≤ u.step ∧ u.step ≤ lastStep o

/-- What micro-steps of the operation can do: keep its frame; never start a command; and as long as the
command is in flight, keep the micro-program counter on a micro-step. -/
structure Runs (o : Op) (s t : State) : Prop extends Frame o s t where
  busy : t.seq.busy = true → s.seq.busy = true
  upc : t.seq.busy = true → AtMicroStep o s.seq.upc → AtMicroStep o t.seq.upc

theorem Acts.runs {o : Op} {s t : State} (h : Acts o s t) : Runs o s t :=
  ⟨h.toFrame, fun b => by rwa [← h.busy], fun _ a => by rwa [h.upc]⟩

theorem Runs.refl (o : Op) (s : State) : Runs o s s := (Acts.refl o s).runs

theorem Runs.trans {o : Op} {s t u : State} (h : Runs o s t) (k : Runs o t u) : Runs o s u :=
  ⟨h.toFrame.trans k.toFrame, fun b => h.busy (k.busy b), fun b a => k.upc b (h.upc (k.busy b) a)⟩

theorem withTurns_runs (o : Op) (s : State) (r : List Turn) : Runs o s (s.withTurns r) :=
  Acts.runs ⟨frame_of_eq o rfl rfl rfl rfl rfl, rfl, rfl⟩

theorem advance_runs {o : Op} {s : State} (h : s.seq.upc.step < lastStep o) : Runs o s s.advance :=
  ⟨frame_of_eq o rfl rfl rfl rfl rfl, id, fun _ _ => ⟨Nat.le_add_left .., h⟩⟩

theorem jump_runs {o : Op} (s : State) {k : Nat} (h : 1 ≤ k ∧ k ≤ lastStep o) : Runs o s (s.jump k) :=
  ⟨frame_of_eq o rfl rfl rfl rfl rfl, id, fun _ _ => h⟩

theorem nextIdx_runs (o : Op) (s : State) : Runs o s s.nextIdx :=
  ⟨frame_of_eq o rfl rfl rfl rfl rfl, id, fun _ => id⟩

theorem done_runs (o : Op) (s : State) : Runs o s s.done :=
  ⟨frame_of_eq o rfl rfl rfl rfl rfl, nofun, nofun⟩

/-- `done(v)` ends a query. -/
theorem doneWith_runs {o : Op} (s : State) (v : Word) (h : o = .isBaudRateSupported ∨ o = .getGpioPin) :
    Runs o s (s.doneWith v) where
  port _ := .refl ..
  drv _ := .refl ..
  asyncMode _ := rfl
  resp a b := absurd h (by simp [a, b])
  respValid a b := absurd h (by simp [a, b])
  txlog _ := rfl
  trace := id
  busy := nofun
  upc := nofun

theorem Acts.advance {o : Op} {s u : State} (h : Acts o s u) (k : s.seq.upc.step < lastStep o) :
    Runs o s u.advance := h.runs.trans (advance_runs (by rwa [h.upc]))

theorem Acts.next {o : Op} {s t u : State} {more : Bool} (h : Acts o s u)
    (k : s.seq.upc.step < lastStep o) (m : Micro.next u = .run t more) : Runs o s t := by
  rw [(next_run m).1]; exact h.advance k

theorem Acts.done {o : Op} {s t u : State} {more : Bool} (h : Acts o s u)
    (m : Micro.done u = .run t more) : Runs o s t := by
  rw [(done_run m).1]; exact h.runs.trans (done_runs o u)

theorem doneUnless_runs {o : Op} {s t : State} {d : Drawn} {more : Bool} (h : Acts o s d.state)
    (k : s.seq.upc.step < lastStep o) (m : doneUnless d = .run t more) : Runs o s t := by
  rcases doneUnless_run m with ⟨-, rfl⟩ | ⟨-, rfl, -⟩
  · exact h.advance k
  · exact h.runs.trans (done_runs o _)

theorem waitFlag_runs {o : Op} {f : Config.PollFlag} {p : Port} {onSet : State → State} {go more : Bool}
    {s t : State} (on : ∀ a, a.seq.upc = s.seq.upc → Runs o a (onSet a))
    (h : waitFlag f p onSet go s = .run t more) : Runs o s t := by
  obtain ⟨d, k, rfl | ⟨rfl, -⟩⟩ := waitFlag_run h
  · have polled : Acts o s (d.log .sequencer (pollPrim f p true)) :=
      k.acts.trans (log_acts d _ (by cases f <;> intro q <;> rfl))
    exact polled.runs.trans (on _ polled.upc)
  · exact k.acts.runs

/-! ### The micro-programs -/

/-- The fields that the steps of a baud change write. -/
theorem baudFields_frame {o : Op} (ho : o = .init ∨ o = .setBaudRate) (e : PortEnv) (pe : Bool)
    (presc : BitVec 6) (div : Word) :
    PortFrame o e { e with pe := pe, presc := presc, div := div } := by
  rcases ho with rfl | rfl <;> constructor <;> simp

/-- The fields that the steps of a registration write. -/
theorem registrationFields_frame {o : Op} (ho : o = .setRxCallback ∨ o = .deinit) (e : PortEnv)
    (rxneIe : Bool) (vec : Vec) : PortFrame o e { e with rxneIe := rxneIe, vec := vec } := by
  rcases ho with rfl | rfl <;> constructor <;> simp

theorem registration_driverFrame {o : Op} (ho : o = .setRxCallback ∨ o = .deinit) (d : Driver)
    (cb ctx : Word) : DriverFrame o d { d with cb := cb, ctx := ctx } := by
  rcases ho with rfl | rfl <;> constructor <;> simp

/-- The steps shared by `init` and `set_baud_rate` (30_encoding.md R125), before the last of which the
counter can advance. -/
theorem baudSteps_runs {o : Op} (ho : o = .init ∨ o = .setBaudRate) {p : Port} {baud : Word}
    {skip fin : State → State} {go more : Bool} {k : Nat} {s t : State}
    (adv : k < 9 → s.seq.upc.step < lastStep o) (sk : ∀ a, Runs o a (skip a))
    (fi : k = 9 → ∀ a, a.seq.upc = s.seq.upc → Runs o a (fin a))
    (h : baudSteps p baud skip fin go k s = .run t more) : Runs o s t := by
  unfold baudSteps at h
  split at h
  · have q : Acts o s (s.periphIsEnabled p).state := (periphIsEnabled_issues s p).query_acts
    dsimp only at h
    split at h
    · cases h; exact q.advance (adv (by decide))
    · cases h; exact q.runs.trans (sk _)
  · exact waitFlag_runs (fun a e => advance_runs (by rw [e]; exact adv (by decide))) h
  · exact ((periphDisable_issues s p).acts (baudFields_frame ho · ..)).next (adv (by decide)) h
  · exact ((clkFreq_issues s p).query_acts.trans (modLoc_acts _ _)).next (adv (by decide)) h
  · obtain ⟨v, -, -, rfl⟩ := calcStep_run h
    exact ((modLoc_acts s _).trans (tick_acts _)).advance (adv (by decide))
  · unfold prescStep at h
    split at h
    · exact (Acts.refl o s).next (adv (by decide)) h
    · exact ((setPrescaler_issues s _ _).acts (baudFields_frame ho · ..)).next (adv (by decide)) h
  · exact ((setDivisor_issues s p _).acts (baudFields_frame ho · ..)).next (adv (by decide)) h
  · cases h
    have a : Acts o s (s.periphEnable p) := (periphEnable_issues s p).acts (baudFields_frame ho · ..)
    exact a.runs.trans (fi rfl _ a.upc)
  · cases h

/-- The steps shared by `set_rx_callback` and `deinit` (30_encoding.md R125). -/
theorem nullRegSteps_runs {o : Op} (ho : o = .setRxCallback ∨ o = .deinit) {p : Port}
    {fin : State → State} {go more : Bool} {k : Nat} {s t : State}
    (adv : k < 5 → s.seq.upc.step < lastStep o)
    (fi : ∀ a, a.seq.upc = s.seq.upc → Runs o a (fin a))
    (h : nullRegSteps p fin go k s = .run t more) : Runs o s t := by
  unfold nullRegSteps at h
  split at h
  · exact ((rxneIrqDisable_issues s p).acts (registrationFields_frame ho · ..)).next (adv (by decide)) h
  · exact ((vecDetach_issues s p).acts (registrationFields_frame ho · ..)).next (adv (by decide)) h
  · exact (modDrv_acts s p (registration_driverFrame ho · ..)).next (adv (by decide)) h
  · cases h
    have a : Acts o s (s.setCtx p 0) := modDrv_acts s p (registration_driverFrame ho · ..)
    exact a.runs.trans (fi _ a.upc)
  · cases h

theorem regSteps_runs {p : Port} {callback context : Word} {s t : State} {more : Bool}
    (h : regSteps p callback context s.seq.upc.step s = .run t more) : Runs .setRxCallback s t := by
  unfold regSteps at h
  split at h
  · next k => split at h <;> exact (modDrv_acts s p).next (by rw [k]; decide) h
  · next k => split at h <;> exact (modDrv_acts s p).next (by rw [k]; decide) h
  · next k => exact (vecAttach_issues s p).acts.next (by rw [k]; decide) h
  · exact (rxneIrqEnable_issues s p).acts.done h
  · cases h

theorem microInit_runs {p : Port} {baud : Word} {s t : State} {more : Bool}
    (h : microInit baud p s = .run t more) : Runs .init s t := by
  have baudStep : ∀ {j}, s.seq.upc.step < 19 →
      baudSteps p baud (·.jump 19) State.advance true j s = .run t more → Runs .init s t := fun lt =>
    baudSteps_runs (.inl rfl) (fun _ => lt) (fun a => jump_runs a (by decide))
      (fun _ a e => advance_runs (by rw [e]; exact lt))
  unfold microInit at h
  split at h
  · next k => exact (busEnable_issues s p).acts.next (by rw [k]; decide) h
  · next k => exact (clkSrcSelect_issues s p).acts.next (by rw [k]; decide) h
  · next k => exact (pinCfgAF_issues s p _).acts.next (by rw [k]; decide) h
  · next k => exact (pinCfgAF_issues s p _).acts.next (by rw [k]; decide) h
  · next k => exact (periphConfig_issues s p).acts.next (by rw [k]; decide) h
  · next k => exact (fifoEnable_issues s p).acts.next (by rw [k]; decide) h
  · next k =>
    unfold asyncStep at h
    split at h
    · exact (asyncModeUsart_acts s).next (by rw [k]; decide) h
    · exact (Acts.refl _ s).next (by rw [k]; decide) h
  · next k => exact (periphEnable_issues s p).acts.next (by rw [k]; decide) h
  · next k =>
    obtain ⟨d, q, rfl | ⟨rfl, -⟩⟩ := waitAck_run h
    · exact ((q.acts.trans (log_acts d _)).trans (log_acts _ _)).advance (by rw [k]; decide)
    · exact q.acts.runs
  iterate 8 next k => exact baudStep (by rw [k]; decide) h
  · exact (errIrqDisable_issues s p).acts.done h
  · cases h

theorem microIsBaudRateSupported_runs {p : Port} {baud : Word} {s t : State} {more : Bool}
    (h : microIsBaudRateSupported baud p s = .run t more) : Runs .isBaudRateSupported s t := by
  unfold microIsBaudRateSupported at h
  split at h
  · cases h; exact doneWith_runs s _ (.inl rfl)
  · cases h

theorem microSetBaudRate_runs {p : Port} {baud : Word} {s t : State} {more : Bool}
    (h : microSetBaudRate baud p s = .run t more) : Runs .setBaudRate s t :=
  baudSteps_runs (.inr rfl) id (done_runs _) (fun _ a _ => done_runs _ a) h

theorem microDeinit_runs {p : Port} {s t : State} {more : Bool}
    (h : microDeinit p s = .run t more) : Runs .deinit s t := by
  have nullStep : ∀ {j}, s.seq.upc.step < 11 →
      nullRegSteps p State.advance true j s = .run t more → Runs .deinit s t := fun lt =>
    nullRegSteps_runs (.inr rfl) (fun _ => lt) (fun a e => advance_runs (by rw [e]; exact lt))
  unfold microDeinit at h
  split at h
  iterate 4 next k => exact nullStep (by rw [k]; decide) h
  · next k =>
    cases h
    exact ((busIsEnabled_issues s p).query_acts.trans (modLoc_acts _ _)).advance (by rw [k]; decide)
  · next k =>
    split at h
    · exact (busDisable_issues s p).acts.next (by rw [k]; decide) h
    · exact (Acts.refl _ s).next (by rw [k]; decide) h
  · next k =>
    cases h
    exact ((periphIsEnabled_issues s p).query_acts.trans (modLoc_acts _ _)).advance (by rw [k]; decide)
  · next k =>
    split at h
    · exact (periphDisable_issues s p).acts.next (by rw [k]; decide) h
    · exact (Acts.refl _ s).next (by rw [k]; decide) h
  · next k => exact (pinCfgAnalog_issues s p _).acts.next (by rw [k]; decide) h
  · exact ((pinCfgAnalog_issues s p _).acts.trans (modDrv_acts _ p)).done h
  · cases h

theorem microSuspend_runs {p : Port} {s t : State} {more : Bool}
    (h : microSuspend p s = .run t more) : Runs .suspend s t := by
  unfold microSuspend at h
  split at h
  · next k => exact doneUnless_runs (periphIsEnabled_issues s p).query_acts (by rw [k]; decide) h
  · next k => exact (periphDisable_issues s p).acts.next (by rw [k]; decide) h
  · exact (modDrv_acts s p).done h
  · cases h

theorem microResume_runs {p : Port} {s t : State} {more : Bool}
    (h : microResume p s = .run t more) : Runs .resume s t := by
  unfold microResume at h
  split at h
  · next k =>
    split at h
    · exact (Acts.refl _ s).next (by rw [k]; decide) h
    · exact (Acts.refl _ s).done h
  · next k => exact (periphEnable_issues s p).acts.next (by rw [k]; decide) h
  · exact (modDrv_acts s p).done h
  · cases h

theorem microTx_runs {p : Port} {bytes : List Byte} {s t : State} {more : Bool}
    (h : microTx bytes p s = .run t more) : Runs .tx s t := by
  unfold microTx at h
  split at h
  · next k =>
    have q : Acts .tx s (s.periphIsEnabled p).state := (periphIsEnabled_issues s p).query_acts
    dsimp only at h
    split at h
    · cases h; exact q.advance (by rw [k]; decide)
    · cases h; exact q.runs.trans (done_runs _ _)
  · next k => exact waitFlag_runs (fun a e => advance_runs (by rw [e, k]; decide)) h
  · obtain ⟨b, -, ⟨-, rfl, -⟩ | ⟨-, rfl, -⟩⟩ := writeStep_run h
    · exact ((writeData_acts s p b).runs.trans (nextIdx_runs _ _)).trans (jump_runs _ (by decide))
    · exact ((writeData_acts s p b).runs.trans (nextIdx_runs _ _)).trans (done_runs _ _)
  · cases h

theorem microTxWaitComplete_runs {p : Port} {s t : State} {more : Bool}
    (h : microTxWaitComplete p s = .run t more) : Runs .txWaitComplete s t := by
  unfold microTxWaitComplete at h
  split at h
  · next k => exact doneUnless_runs (periphIsEnabled_issues s p).query_acts (by rw [k]; decide) h
  · exact waitFlag_runs (fun a _ => done_runs _ a) h
  · cases h

theorem microSetRxCallback_runs {callback context : Word} {p : Port} {s t : State} {more : Bool}
    (h : microSetRxCallback callback context p s = .run t more) : Runs .setRxCallback s t := by
  unfold microSetRxCallback at h
  split at h
  · exact nullRegSteps_runs (.inl rfl) id (fun a _ => done_runs _ a) h
  · exact regSteps_runs h

theorem microEnableDirection_runs {p : Port} {d : Dir} {s t : State} {more : Bool}
    (h : microEnableDirection p d s = .run t more) : Runs .enableDirection s t := by
  unfold microEnableDirection at h
  split at h
  · next k => exact (dirEnable_issues s p d).acts.next (by rw [k]; decide) h
  · exact (pinCfgAF_issues s p d).acts.done h
  · cases h

theorem microDisableDirection_runs {p : Port} {d : Dir} {s t : State} {more : Bool}
    (h : microDisableDirection p d s = .run t more) : Runs .disableDirection s t := by
  unfold microDisableDirection at h
  split at h
  · next k => exact (dirDisable_issues s p d).acts.next (by rw [k]; decide) h
  · exact (pinCfgAnalog_issues s p d).acts.done h
  · cases h

theorem microGetGpioPin_runs {p : Port} {d : Dir} {s t : State} {more : Bool}
    (h : microGetGpioPin p d s = .run t more) : Runs .getGpioPin s t := by
  unfold microGetGpioPin at h
  split at h
  · cases h; exact doneWith_runs s _ (.inr rfl)
  · cases h

/-- Every micro-step after the check, of every command. -/
theorem bodyOf_runs {i : Instr} {s t : State} {more : Bool} (h : bodyOf i s = .run t more) :
    Runs i.op s t := by
  cases i
  case init => exact microInit_runs h
  case isBaudRateSupported hd baud => exact microIsBaudRateSupported_runs (p := boundPort hd) h
  case setBaudRate => exact microSetBaudRate_runs h
  case deinit => exact microDeinit_runs h
  case suspend => exact microSuspend_runs h
  case resume => exact microResume_runs h
  case tx => exact microTx_runs h
  case txWaitComplete => exact microTxWaitComplete_runs h
  case setRxCallback => exact microSetRxCallback_runs h
  case enableDirection => exact microEnableDirection_runs h
  case disableDirection => exact microDisableDirection_runs h
  case getGpioPin => exact microGetGpioPin_runs h

theorem one_lt_lastStep (o : Op) : 1 < lastStep o := by cases o <;> decide

/-- A command whose check passes. -/
theorem exec_runs {i : Instr} {s t : State} (passes : instrFault i = none) (h : exec i s = .next t) :
    Runs i.op s t :=
  exec_next (R := Runs i.op) (Runs.refl _) Runs.trans
    (fun _ _ k _ => absurd (passes.symm.trans k) nofun)
    (fun _ _ k => advance_runs (by rw [k]; exact one_lt_lastStep _))
    (fun _ _ _ _ _ m => bodyOf_runs m) (withTurns_runs _) h

/-- Every command keeps the frame of its operation. -/
theorem exec_frame {i : Instr} {s t : State} (h : exec i s = .next t) : Frame i.op s t := by
  cases passes : instrFault i with
  | none => exact (exec_runs passes h).toFrame
  | some _ =>
    rcases exec_cases h with ⟨r, -, -, rfl⟩ | ⟨none, -⟩
    · exact raiseFatal_frame ..
    · exact absurd (passes.symm.trans none) nofun

/-! ### The statements on frames -/

/-- Settles O50: the part of the operation's frame that speaks of DriverState. -/
theorem driverStateFrame : Obligations.DriverStateFrame := by
  intro i s t q h
  have d := (exec_frame h).drv q
  exact ⟨d.wasEnabled, fun a b => ⟨d.cb a b, d.ctx a b⟩, d.deinited⟩

/-- Settles O51: the part of the operation's frame that speaks of the interface; that no micro-step of a
command writes the receive side is part of `Effect` for its own port, and of O49 for the other. -/
theorem interfaceFrame : Obligations.InterfaceFrame := by
  intro i s t q h
  have f := exec_frame h
  have p := f.port q
  have receive : (t.port q).rxne = (s.port q).rxne ∧ (t.port q).ore = (s.port q).ore ∧
      (t.port q).rdr = (s.port q).rdr := by
    rcases exec_cases h with ⟨r, -, -, rfl⟩ | ⟨-, e⟩
    · exact ⟨rfl, rfl, rfl⟩
    · obtain rfl | rfl := Port.eq_or_other (boundPort i.hdr) q
      · exact ⟨e.rxne, e.ore, e.rdr⟩
      · rw [e.portOther]; exact ⟨rfl, rfl, rfl⟩
  exact ⟨receive, fun a b => ⟨p.vec a b, p.rxneIe a b⟩, p.busclk,
    fun a => ⟨p.clksel a, p.frame a, p.fifoEn a, p.errIe a, f.asyncMode a⟩,
    fun a b => ⟨p.presc a b, p.div a b⟩, p.pe, p.dirEn, p.pins⟩

/-- Settles O52: what every command leaves of the sequencer is in `Effect`, the response and `txlog` are in
the operation's frame. -/
theorem sequencerFrame : Obligations.SequencerFrame := by
  intro i s t h
  have f := exec_frame h
  have resp := fun a b => And.intro (f.resp a b) (f.respValid a b)
  rcases exec_cases h with ⟨r, -, -, rfl⟩ | ⟨-, e⟩
  · exact ⟨rfl, rfl, rfl, rfl, rfl, rfl, rfl, resp, ⟨[], by simp [sequencerEntries]⟩, f.txlog, rfl⟩
  · exact ⟨e.x0, e.x1, e.x2, e.txbuf, e.op, e.build, e.cmds, resp, e.log, f.txlog, e.cblog⟩

end Sys2Proof.Machine
end

section
/-!
What one step of the machine can do, said once (`KeptByMoves`): another agent moves, the reset event comes, a
packet is accepted, a packet that is no command raises, or a command runs. The trace invariant is the first
use of it.
-/

namespace Sys2Proof.Machine

/-! ### The other agents -/

/-- What an arrival, a handler and a preemption point with no event leave alone: the block, the sequencer,
the build, every vector, and the trace invariant. -/
structure OutsideMove (s t : State) : Prop where
  blk : t.blk = s.blk
  seq : t.seq = s.seq
  build : t.build = s.build
  vec : ∀ q, (t.port q).vec = (s.port q).vec
  trace : s.traceInv → t.traceInv

theorem OutsideMove.trans {s t u : State} (h : OutsideMove s t) (k : OutsideMove t u) :
    OutsideMove s u :=
  ⟨k.blk.trans h.blk, k.seq.trans h.seq, k.build.trans h.build, fun q => (k.vec q).trans (h.vec q),
    fun i => k.trace (h.trace i)⟩

theorem withTurns_outsideMove (s : State) (r : List Turn) : OutsideMove s (s.withTurns r) :=
  ⟨rfl, rfl, rfl, fun _ => rfl, id⟩

theorem arrive_outsideMove (s : State) (p : Port) (b : Byte) : OutsideMove s (s.arrive p b) := by
  refine ⟨rfl, rfl, rfl, fun q => ?_, id⟩
  obtain rfl | rfl := Port.eq_or_other p q
  · simp only [State.arrive, State.modPort_port]; split <;> rfl
  · simp only [State.arrive, State.modPort_port_other]

/-- A primitive of a handler that neither writes a byte nor calls. -/
theorem Issues.outsideMove {p : Port} {x : Prim} {f : Iface → Iface} {s t : State}
    (h : Issues (.handler p) [x] f s t) (vec : ∀ q, (t.port q).vec = (s.port q).vec)
    (unwritten : ∀ q, LogEntry.written q ⟨.handler p, x⟩ = none)
    (uncalled : LogEntry.called ⟨.handler p, x⟩ = none) : OutsideMove s t :=
  ⟨h.blk, h.seq, h.build, vec, h.traceInv (by simpa using unwritten) (by simpa using uncalled)⟩

theorem flagRxne_outsideMove (s : State) (p : Port) : OutsideMove s (s.flagRxne p).state :=
  (flagRxne_issues s p).outsideMove (fun _ => by simp [State.port, (flagRxne_issues s p).query])
    (fun _ => rfl) rfl

theorem flagOre_outsideMove (s : State) (p : Port) : OutsideMove s (s.flagOre p).state :=
  (flagOre_issues s p).outsideMove (fun _ => by simp [State.port, (flagOre_issues s p).query])
    (fun _ => rfl) rfl

/-- A primitive of the port that keeps its own vector keeps every vector. -/
theorem Issues.vec {w : Issuer} {x : List Prim} {p : Port} {g : PortEnv → PortEnv} {s t : State}
    (h : Issues w x (·.modPort p g) s t) (keeps : ∀ e, (g e).vec = e.vec) (q : Port) :
    (t.port q).vec = (s.port q).vec := by
  obtain rfl | rfl := Port.eq_or_other p q
  · rcases h.own with e | e <;> rw [e]
    exact keeps _
  · rw [h.others.1]

theorem readData_outsideMove (s : State) (p : Port) : OutsideMove s (s.readData p) :=
  (readData_issues s p).outsideMove ((readData_issues s p).vec fun _ => rfl) (fun _ => rfl) rfl

theorem clearOre_outsideMove (s : State) (p : Port) : OutsideMove s (s.clearOre p) :=
  (clearOre_issues s p).outsideMove ((clearOre_issues s p).vec fun _ => rfl) (fun _ => rfl) rfl

theorem cbInvoke_outsideMove (s : State) (p : Port) (c : Word) (b : Byte) (x : Word) :
    OutsideMove s (s.cbInvoke p c b x) :=
  ⟨rfl, rfl, rfl, fun _ => rfl, cbInvoke_traceInv p c b x⟩

/-- One run of a handler (43_receive.md R218). -/
theorem handler_outsideMove {p : Port} {s t : State} (h : handler p s = .next t) : OutsideMove s t := by
  unfold handler at h
  refine (flagRxne_outsideMove s p).trans ?_
  dsimp only at h
  split at h
  · unfold handlerDeliver at h
    split at h
    · cases h
    · cases h; exact (readData_outsideMove _ p).trans (cbInvoke_outsideMove ..)
  · cases h
    unfold handlerOverrun
    dsimp only
    split
    · exact (flagOre_outsideMove _ p).trans (clearOre_outsideMove _ p)
    · exact flagOre_outsideMove _ p

/-! ### One step -/

/-- A packet that is no command raises at its check step and does nothing else (30_encoding.md R117). -/
theorem microIllegal_next {s t : State} (h : burst microIllegal straightFuel s = .next t) :
    t = s.raiseFatal .illegalCommand := by
  by_cases h1 : s.seq.upc.step = 1
  · have m : microIllegal s = .run (s.raiseFatal .illegalCommand) false := checked_raises h1
    rw [straightFuel, burst_last m] at h
    cases h; rfl
  · simp [straightFuel, burst, microIllegal, checked, h1] at h

/-- A property that each kind of move keeps: the moves of the other agents, the reset event, acceptance,
raising, and the run of the command in flight. -/
structure KeptByMoves (P : State → Prop) : Prop where
  outside : ∀ s t, OutsideMove s t → P s → P t
  reset : ∀ s, AtReset s → P s
  accept : ∀ s pk rest, s.blk.fatal = false → decode pk ≠ .error .badLength → P s →
    P (acceptPacket pk rest s)
  raise : ∀ s r, s.seq.busy = true → P s → P (s.raiseFatal r)
  command : ∀ i s t, s.inFlight = some i → exec i s = .next t → P s → P t

namespace KeptByMoves

variable {P : State → Prop} (k : KeptByMoves P) {s t : State}
include k

theorem turns (r : List Turn) (hs : P s) : P (s.withTurns r) :=
  k.outside _ _ (withTurns_outsideMove s r) hs

theorem runLatched (live : s.blk.fatal = false) (busy : s.seq.busy = true) (hs : P s)
    (h : runLatched s = .next t) : P t := by
  unfold Machine.runLatched at h
  split at h
  · cases h
  · split at h
    · next i d => exact k.command i s t (by simp [State.inFlight, live, busy, d]) h hs
    · rw [microIllegal_next h]; exact k.raise s _ busy hs
    · cases h

theorem beginAccepted (live : s.blk.fatal = false) (busy : s.seq.busy = true) (hs : P s)
    (h : beginAccepted s = .next t) : P t := by
  unfold Machine.beginAccepted at h
  split at h
  · exact k.runLatched live busy hs h
  · next r _ => exact k.runLatched (s := s.withTurns r) live busy (k.turns r hs) h
  all_goals (cases h; exact hs)

theorem sequencerTurn (hs : P s) (h : sequencerTurn s = .next t) : P t := by
  unfold Machine.sequencerTurn at h
  split at h
  · cases h; exact hs
  next notFatal =>
  have live : s.blk.fatal = false := by simpa using notFatal
  split at h
  · next busy => exact k.runLatched live busy hs h
  split at h
  · cases h; exact hs
  next pk rest _ =>
  have begins : decode pk ≠ .error .badLength →
      Machine.beginAccepted (acceptPacket pk rest s) = .next t → P t := fun d =>
    k.beginAccepted (s := acceptPacket pk rest s) live rfl (k.accept s pk rest live d hs)
  split at h
  · cases h
  · next d => exact begins (by rw [d]; nofun) h
  · next d => exact begins (by rw [d]; nofun) h

/-- Every step keeps it, whoever moves. -/
theorem step (hs : P s) (h : step s = .next t) : P t := by
  unfold Machine.step move at h
  split at h
  · exact k.sequencerTurn hs h
  · exact k.sequencerTurn (k.turns _ hs) h
  · cases h; exact k.outside _ _ (arrive_outsideMove ..) (k.turns _ hs)
  · unfold enterHandler at h
    split at h
    · exact k.outside _ _ (handler_outsideMove h) (k.turns _ hs)
    · cases h; exact k.turns _ hs
  · cases h; exact k.reset _ (resetEvent_atReset _)

end KeptByMoves

theorem traceInv_kept : KeptByMoves State.traceInv where
  outside _ _ m := m.trace
  reset _ a := a.traceInv
  accept _ _ _ _ _ := id
  raise _ _ _ := id
  command _ _ _ _ h := (exec_frame h).trace

/-- Settles O57: commands keep it by their frame, handlers primitive by primitive; acceptance and raising
write no trace. -/
theorem stepKeepsTraceInvariant : Obligations.StepKeepsTraceInvariant :=
  fun _ _ hs h => traceInv_kept.step hs h

end Sys2Proof.Machine
end

section
/-!
The micro-program counter (10_state.md R24): what the latches hold after acceptance, the byte index of `tx`,
and the invariant of every step.
-/

namespace Sys2Proof.Machine

/-! ### The latches -/

/-- The packet has as many operand words and beats as the format (30_encoding.md R110, R111). -/
def Fits (pk : Packet) : Format → Prop
  | .H => pk.args = [] ∧ pk.beats = []
  | .D => pk.args = [] ∧ pk.beats = []
  | .A => ∃ a, pk.args = [a] ∧ pk.beats = []
  | .C => ∃ a b, pk.args = [a, b] ∧ pk.beats = []
  | .S => ∃ n, pk.args = [n]

theorem readNone_fits {pk : Packet} {i : Instr} (h : readNone pk i ≠ .error .badLength) :
    pk.args = [] ∧ pk.beats = [] := by
  unfold readNone at h
  split at h
  · next a b => exact ⟨a, b⟩
  · exact absurd rfl h

theorem readOne_fits {pk : Packet} {mk : Word → Instr} (h : readOne pk mk ≠ .error .badLength) :
    ∃ a, pk.args = [a] ∧ pk.beats = [] := by
  unfold readOne at h
  split at h
  · next x a b => exact ⟨x, a, b⟩
  · exact absurd rfl h

theorem readTwo_fits {pk : Packet} {mk : Word → Word → Instr} (h : readTwo pk mk ≠ .error .badLength) :
    ∃ a b, pk.args = [a, b] ∧ pk.beats = [] := by
  unfold readTwo at h
  split at h
  · next x y a b => exact ⟨x, y, a, b⟩
  · exact absurd rfl h

theorem readBeats_fits {pk : Packet} {mk : List Byte → Instr}
    (h : readBeats pk mk ≠ .error .badLength) : ∃ n, pk.args = [n] := by
  unfold readBeats at h
  split at h
  · next n a => exact ⟨n, a⟩
  · exact absurd rfl h

theorem decodeAs_fits {op : Op} {pk : Packet} (h : decodeAs op pk ≠ .error .badLength) :
    Fits pk op.format := by
  cases op
  case init | isBaudRateSupported | setBaudRate => exact readOne_fits h
  case tx => exact readBeats_fits h
  case setRxCallback => exact readTwo_fits h
  all_goals exact readNone_fits h

/-- A selected row is one of the opcode map, so it has its operation's format. -/
theorem format_of_selectRow {header : Word} {r : OpRow} (h : selectRow header = some r) :
    r.format = r.op.format := by
  have mem : r ∈ opcodeTable := List.mem_of_find?_eq_some h
  rw [opcodeTable_eq] at mem
  obtain ⟨o, -, rfl⟩ := List.mem_map.1 mem
  rfl

/-- The latches of an accepted packet of the selected format hold that packet (30_encoding.md R118). -/
theorem latched_accept_of_fits (s : State) {pk : Packet} {r : OpRow} (row : selectRow pk.header = some r)
    (fits : Fits pk r.format) : latched (s.accept pk).seq = pk := by
  obtain ⟨header, args, beats⟩ := pk
  rw [latched_of_row (by exact row)]
  cases fmt : r.format <;> rw [fmt] at fits
  case H | D =>
    obtain ⟨rfl, rfl⟩ := fits
    rfl
  case A =>
    obtain ⟨a, rfl, rfl⟩ := fits
    rfl
  case C =>
    obtain ⟨a, b, rfl, rfl⟩ := fits
    rfl
  case S =>
    obtain ⟨n, rfl⟩ := fits
    have stream : acceptedBeats ⟨header, [n], beats⟩ s.seq.txbuf = beats := by
      simp only [acceptedBeats, row, Option.map_some, fmt]
    simp only [State.accept_x0, State.accept_x1, State.accept_txbuf, stream, Packet.arg0]

/-- What is accepted is what the latches decode to. -/
theorem decode_latched_accept (s : State) {pk : Packet} (h : decode pk ≠ .error .badLength) :
    decode (latched (s.accept pk).seq) = decode pk := by
  cases row : selectRow pk.header with
  | none =>
    rw [latched_of_none (by exact row)]
    simp only [decode, State.accept_x0, row]
  | some r =>
    have fits : Fits pk r.format := by
      rw [format_of_selectRow row]
      exact decodeAs_fits (by simpa only [decode, row] using h)
    rw [latched_accept_of_fits s row fits]

theorem Effect.latched {p : Port} {s t : State} (h : Effect p s t) : latched t.seq = latched s.seq := by
  simp only [Machine.latched, h.x0, h.x1, h.x2, h.txbuf]

/-- A command in flight: the sequencer is busy, the block is not faulted, and the latches hold it. -/
theorem inFlight_eq_some {s : State} {i : Instr} :
    s.inFlight = some i ↔
      s.seq.busy = true ∧ s.blk.fatal = false ∧ decode (latched s.seq) = .ok i := by
  unfold State.inFlight
  split
  · next b => cases decode (latched s.seq) <;> simp [b]
  · next b => simp only [reduceCtorEq, false_iff]; exact fun ⟨x, y, _⟩ => b ⟨x, y⟩

/-! ### The byte index -/

/-- A micro-step of `tx` (42_transmit.md R200) keeps the index below the length, as long as it does not end
the command. -/
theorem microTx_idxOk {h : Hdr} {bytes : List Byte} {p : Port} {s t : State} {more : Bool}
    (m : microTx bytes p s = .run t more) (busy : t.seq.busy = true)
    (ok : idxOk (.tx h bytes) s.seq.upc) : idxOk (.tx h bytes) t.seq.upc := by
  obtain ⟨start, inLoop⟩ := ok
  unfold microTx at m
  split at m
  · next k =>
    have seq := (periphIsEnabled_issues s p).seq
    dsimp only at m
    split at m
    · next b =>
      cases m
      have nonempty : 0 < bytes.length := by
        simp only [Bool.and_eq_true, decide_eq_true_eq] at b
        exact Nat.pos_of_ne_zero b.2
      simp [idxOk, seq, k, start (by omega), nonempty]
    · cases m; cases busy
  · next k =>
    obtain ⟨d, q, rfl | ⟨rfl, -⟩⟩ := waitFlag_run m
    · simp [idxOk, q.seq, k, inLoop (by omega)]
    · rw [q.seq]; exact ⟨start, inLoop⟩
  · obtain ⟨b, -, ⟨lt, rfl, -⟩ | ⟨-, rfl, -⟩⟩ := writeStep_run m
    · exact ⟨fun le => absurd (show 3 ≤ 2 from le) (by decide), fun _ => lt⟩
    · cases busy
  · cases m

/-- What the micro-steps of `tx` keep: they start no command, and the index stays below the length. -/
def KeepsIdx (i : Instr) (s t : State) : Prop :=
  t.seq.busy = true → s.seq.busy = true ∧ (idxOk i s.seq.upc → idxOk i t.seq.upc)

theorem KeepsIdx.trans {i : Instr} {s t u : State} (h : KeepsIdx i s t) (k : KeepsIdx i t u) :
    KeepsIdx i s u := fun busy =>
  have ⟨b, ok⟩ := k busy
  ⟨(h b).1, ok ∘ (h b).2⟩

/-- A command whose check passes keeps the byte index in range. -/
theorem exec_keepsIdx {i : Instr} {s t : State} (passes : instrFault i = none)
    (h : exec i s = .next t) : KeepsIdx i s t := by
  cases i
  case tx hd bytes =>
    refine exec_next (R := KeepsIdx (.tx hd bytes)) (fun _ b => ⟨b, id⟩) KeepsIdx.trans ?_ ?_ ?_
      (fun _ _ b => ⟨b, id⟩) h
    · exact fun _ _ k _ => absurd (passes.symm.trans k) nofun
    · intro a _ k b
      refine ⟨b, fun ⟨start, _⟩ => ?_⟩
      simp [idxOk, k, start (by omega)]
    · exact fun a b _ _ _ m busy => ⟨(bodyOf_runs m).busy busy, microTx_idxOk m busy⟩
  all_goals exact fun b => ⟨(exec_runs passes h).busy b, fun _ => trivial⟩

/-! ### The invariant -/

/-- An accepted packet starts at its check step. -/
theorem accept_upcInv {s : State} (pk : Packet) (rest : List Packet) (live : s.blk.fatal = false)
    (d : decode pk ≠ .error .badLength) : (acceptPacket pk rest s).upcInv := by
  refine ⟨fun f => absurd (live.symm.trans f) nofun, fun _ _ => ⟨rfl, ?_⟩⟩
  have held : decode (latched (acceptPacket pk rest s).seq) = decode pk := decode_latched_accept _ d
  rw [held]
  split
  · next i _ =>
    refine ⟨Nat.le_refl 1, (one_lt_lastStep i.op).le, fun lt => absurd lt (Nat.lt_irrefl 1), ?_⟩
    cases i
    case tx => exact ⟨fun _ => rfl, fun le => absurd (show 3 ≤ 1 from le) (by decide)⟩
    all_goals trivial
  · rfl
  · next e => exact absurd e d

/-- The command in flight either raises, and the faulted block stays busy, or runs along its micro-steps. -/
theorem command_upcInv {i : Instr} {s t : State} (flight : s.inFlight = some i)
    (h : exec i s = .next t) (inv : s.upcInv) : t.upcInv := by
  obtain ⟨busy, live, held⟩ := inFlight_eq_some.1 flight
  obtain ⟨op, at_⟩ := inv.2 busy live
  rw [held] at at_
  obtain ⟨one, last, -, idx⟩ := at_
  rcases exec_cases h with ⟨r, -, -, rfl⟩ | ⟨passes, e⟩
  · exact ⟨fun _ => busy, fun _ f => nomatch f⟩
  · refine ⟨fun f => absurd (live.symm.trans (e.fatal.symm.trans f)) nofun, fun b _ => ?_⟩
    refine ⟨by rw [e.op, e.x0, op], ?_⟩
    rw [e.latched, held]
    obtain ⟨one', last'⟩ := (exec_runs passes h).upc b ⟨one, last⟩
    exact ⟨one', last', fun _ => passes, (exec_keepsIdx passes h b).2 idx⟩

theorem upcInv_kept : KeptByMoves State.upcInv where
  outside s t m inv := by simpa only [State.upcInv, m.blk, m.seq] using inv
  reset _ a := a.upcInv
  accept _ pk rest live d _ := accept_upcInv pk rest live d
  raise _ _ busy _ := ⟨fun _ => busy, fun _ f => nomatch f⟩
  command _ _ _ flight h := command_upcInv flight h

/-- Settles O55: acceptance puts the counter on the check step, a passing check and the later micro-steps
move it to a micro-step of the same operation (`Runs`), and `tx` keeps its index in range (`KeepsIdx`). -/
theorem stepKeepsUpcInvariant : Obligations.StepKeepsUpcInvariant :=
  fun _ _ hs h => upcInv_kept.step hs h

end Sys2Proof.Machine
end

section
/-!
The registration invariant (10_state.md R32, 43_receive.md R215, R216): an attached handler has a callback.
One rule for each operation that writes a vector or a callback, the two registration paths and `deinit`, and
the invariant of every step.
-/

namespace Sys2Proof.Machine

/-! ### Vectors and callbacks -/

/-- An attached handler has a callback (10_state.md R32). -/
def Armed (s : State) : Prop := ∀ p, (s.port p).vec = .attached → (s.drv p).cb ≠ 0

/-- Vectors and callbacks are as they were. -/
structure SameReg (s t : State) : Prop where
  vec : ∀ q, (t.port q).vec = (s.port q).vec
  cb : ∀ q, (t.drv q).cb = (s.drv q).cb

theorem SameReg.trans {s t u : State} (h : SameReg s t) (k : SameReg t u) : SameReg s u :=
  ⟨fun q => (k.vec q).trans (h.vec q), fun q => (k.cb q).trans (h.cb q)⟩

theorem Armed.of_sameReg {s t : State} (a : Armed s) (h : SameReg s t) : Armed t := by
  intro p v
  rw [h.cb]
  exact a p (by rw [← h.vec, v])

theorem OutsideMove.sameReg {s t : State} (h : OutsideMove s t) : SameReg s t :=
  ⟨h.vec, fun q => by simp only [State.drv, h.blk]⟩

theorem Issues.sameReg {w : Issuer} {x : List Prim} {p : Port} {g : PortEnv → PortEnv} {s t : State}
    (h : Issues w x (·.modPort p g) s t) (keeps : ∀ e, (g e).vec = e.vec) : SameReg s t :=
  ⟨h.vec keeps, fun q => by rw [h.drv]⟩

theorem Issues.query_sameReg {w : Issuer} {x : List Prim} {s t : State} (h : Issues w x id s t) :
    SameReg s t :=
  ⟨fun q => by simp only [State.port, h.query], fun q => by rw [h.drv]⟩

theorem SameReg.refl (s : State) : SameReg s s := ⟨fun _ => rfl, fun _ => rfl⟩

theorem SameReg.advance {s t : State} (h : SameReg s t) : SameReg s t.advance := ⟨h.vec, h.cb⟩

theorem SameReg.done {s t : State} (h : SameReg s t) : SameReg s t.done := ⟨h.vec, h.cb⟩

theorem SameReg.modLoc {s t : State} (h : SameReg s t) (f : Locals → Locals) : SameReg s (t.modLoc f) :=
  ⟨h.vec, h.cb⟩

theorem modDrv_sameReg (s : State) (p : Port) {f : Driver → Driver} (keeps : ∀ d, (f d).cb = d.cb) :
    SameReg s (s.modDrv p f) := by
  refine ⟨fun _ => rfl, fun q => ?_⟩
  obtain rfl | rfl := Port.eq_or_other p q
  · rw [State.modDrv_drv]; exact keeps _
  · rw [State.modDrv_drv_other]

theorem setCtx_sameReg (s : State) (p : Port) (v : Word) : SameReg s (s.setCtx p v) :=
  modDrv_sameReg s p fun _ => rfl

theorem setDeinited_sameReg (s : State) (p : Port) : SameReg s (s.setDeinited p) :=
  modDrv_sameReg s p fun _ => rfl

theorem vecDetach_detached (s : State) (p : Port) : ((s.vecDetach p).port p).vec = .detached := by
  simp [State.vecDetach]

theorem vecDetach_armed {s : State} (p : Port) (a : Armed s) : Armed (s.vecDetach p) := by
  intro q v
  obtain rfl | rfl := Port.eq_or_other p q
  · rw [vecDetach_detached] at v; cases v
  · have h := vecDetach_issues s p
    rw [h.drv]
    exact a _ (by rw [← h.others.1, v])

theorem vecAttach_armed {s : State} {p : Port} (a : Armed s) (cb : (s.drv p).cb ≠ 0) :
    Armed (s.vecAttach p) := by
  intro q v
  have h := vecAttach_issues s p
  rw [h.drv]
  obtain rfl | rfl := Port.eq_or_other p q
  · exact cb
  · exact a _ (by rw [← h.others.1, v])

/-- A callback may be cleared only while the handler is detached. -/
theorem setCb_armed {s : State} {p : Port} {v : Word} (a : Armed s)
    (h : v ≠ 0 ∨ (s.port p).vec = .detached) : Armed (s.setCb p v) := by
  intro q att
  obtain rfl | rfl := Port.eq_or_other p q
  · rw [State.setCb_drv]
    rcases h with nonzero | det
    · exact nonzero
    · rw [State.setCb_port, det] at att; cases att
  · rw [State.setCb_drv_other]; exact a _ att

/-! ### The null registration, and `deinit` -/

/-- From step 4 of a null registration until its end the handler is detached (43_receive.md R216). -/
def Detaching (p : Port) (s : State) : Prop :=
  Armed s ∧ (s.seq.upc.step = 4 ∨ s.seq.upc.step = 5 → (s.port p).vec = .detached)

theorem nullRegSteps_detaching {p : Port} {fin : State → State} {go more : Bool} {k : Nat} {s t : State}
    (fi : ∀ a, SameReg a (fin a)) (step : s.seq.upc.step = k)
    (h : nullRegSteps p fin go k s = .run t more) (inv : Detaching p s) : Detaching p t := by
  obtain ⟨armed, phase⟩ := inv
  unfold nullRegSteps at h
  split at h
  · have q := rxneIrqDisable_issues s p
    cases h
    exact ⟨armed.of_sameReg (q.sameReg fun _ => rfl).advance, by simp [q.seq, step]⟩
  · cases h
    exact ⟨vecDetach_armed p armed, fun _ => vecDetach_detached s p⟩
  · have det := phase (.inl step)
    cases h
    exact ⟨setCb_armed armed (.inr det), fun _ => det⟩
  · have same := (setCtx_sameReg s p 0).trans (fi (s.setCtx p 0))
    cases h
    exact ⟨armed.of_sameReg same, fun _ => by rw [same.vec, phase (.inr step)]⟩
  · cases h

/-- After the inlined registration `deinit` writes no vector and no callback. -/
theorem microDeinit_detaching {p : Port} {s t : State} {more : Bool}
    (h : microDeinit p s = .run t more) (inv : Detaching p s) : Detaching p t := by
  have late : ∀ u, SameReg s u → 6 ≤ u.seq.upc.step → Detaching p u := fun u same le =>
    ⟨inv.1.of_sameReg same, fun early => by omega⟩
  unfold microDeinit at h
  split at h
  iterate 4 next k => exact nullRegSteps_detaching (fun a => (SameReg.refl a).advance) k h inv
  · next k =>
    have q := busIsEnabled_issues s p
    cases h
    exact late _ (q.query_sameReg.modLoc _).advance (by simp [q.seq, k])
  · next k =>
    cases h
    split
    · have q := busDisable_issues s p
      exact late _ (q.sameReg fun _ => rfl).advance (by simp [q.seq, k])
    · exact late _ (SameReg.refl s).advance (by simp [k])
  · next k =>
    have q := periphIsEnabled_issues s p
    cases h
    exact late _ (q.query_sameReg.modLoc _).advance (by simp [q.seq, k])
  · next k =>
    cases h
    split
    · have q := periphDisable_issues s p
      exact late _ (q.sameReg fun _ => rfl).advance (by simp [q.seq, k])
    · exact late _ (SameReg.refl s).advance (by simp [k])
  · next k =>
    have q := pinCfgAnalog_issues s p .tx
    cases h
    exact late _ (q.sameReg fun _ => rfl).advance (by simp [q.seq, k])
  · next k =>
    have q := pinCfgAnalog_issues s p .rx
    cases h
    exact late _ ((q.sameReg fun _ => rfl).trans (setDeinited_sameReg _ p)).done (by simp [q.seq, k])
  · cases h

/-! ### The non-null registration -/

/-- From the store of the callback until the handler is attached the callback is there (43_receive.md
R215). -/
def Attaching (p : Port) (s : State) : Prop :=
  Armed s ∧ (s.seq.upc.step = 4 ∨ (s.seq.upc.step = 3 ∧ s.build.cbStoreOrder = .cbThenCtx) →
    (s.drv p).cb ≠ 0)

theorem regSteps_attaching {p : Port} {callback context : Word} {s t : State} {more : Bool}
    (nonzero : callback ≠ 0) (h : regSteps p callback context s.seq.upc.step s = .run t more)
    (inv : Attaching p s) : Attaching p t := by
  obtain ⟨armed, phase⟩ := inv
  have storeCb : Attaching p (s.setCb p callback).advance :=
    ⟨setCb_armed armed (.inl nonzero), fun _ => by simpa using nonzero⟩
  have storeCtx := (setCtx_sameReg s p context).advance
  unfold regSteps at h
  split at h
  · next k =>
    split at h
    · cases h; exact storeCb
    · next order => cases h; exact ⟨armed.of_sameReg storeCtx, by simp [k, order]⟩
  · next k =>
    split at h
    · next order =>
      cases h
      exact ⟨armed.of_sameReg storeCtx, fun _ => by simpa using phase (.inr ⟨k, order⟩)⟩
    · cases h; exact storeCb
  · next k =>
    have q := vecAttach_issues s p
    cases h
    exact ⟨vecAttach_armed armed (phase (.inl k)), by simp [q.seq, k]⟩
  · next k =>
    have q := rxneIrqEnable_issues s p
    cases h
    exact ⟨armed.of_sameReg (q.sameReg fun _ => rfl).done, by simp [q.seq, k]⟩
  · cases h

/-! ### Commands -/

/-- Only the two commands that register have a phase. -/
theorem regPhase_of_op {i : Instr} (s : State) (a : i.op ≠ .setRxCallback) (b : i.op ≠ .deinit) :
    regPhase i s := by
  cases i
  case setRxCallback => exact absurd rfl a
  case deinit => exact absurd rfl b
  all_goals trivial

/-- No phase begins before step 3. -/
theorem regPhase_of_start (i : Instr) {s : State} (h : s.seq.upc.step ≤ 2) : regPhase i s := by
  cases i
  case setRxCallback => simp only [regPhase]; split <;> (intro; omega)
  case deinit => simp only [regPhase]; intro; omega
  all_goals trivial

theorem regPhase_of_sameReg {i : Instr} {s t : State} (same : SameReg s t) (upc : t.seq.upc = s.seq.upc)
    (build : t.build = s.build) (h : regPhase i s) : regPhase i t := by
  cases i
  case setRxCallback => simpa only [regPhase, upc, build, same.vec, same.cb] using h
  case deinit => simpa only [regPhase, upc, same.vec] using h
  all_goals trivial

/-- A micro-step keeps both parts of the registration invariant: by one of the three paths above, or because
the operation writes neither vector nor callback. -/
theorem bodyOf_registers {i : Instr} {s t : State} {more : Bool} (h : bodyOf i s = .run t more)
    (inv : Armed s ∧ regPhase i s) : Armed t ∧ regPhase i t := by
  have frame := (bodyOf_runs h).toFrame
  have others : i.op ≠ .setRxCallback → i.op ≠ .deinit → Armed t ∧ regPhase i t := fun a b =>
    ⟨inv.1.of_sameReg ⟨fun q => (frame.port q).vec a b, fun q => (frame.drv q).cb a b⟩,
      regPhase_of_op t a b⟩
  cases i
  case setRxCallback hd callback context =>
    change microSetRxCallback callback context (boundPort hd) s = _ at h
    unfold microSetRxCallback at h
    by_cases null : callback = 0
    · simp only [regPhase, null, if_true] at inv h ⊢
      exact nullRegSteps_detaching (fun a => (SameReg.refl a).done) rfl h inv
    · simp only [regPhase, null, if_false] at inv h ⊢
      exact regSteps_attaching null h inv
  case deinit => exact microDeinit_detaching h inv
  all_goals exact others nofun nofun

theorem exec_registers {i : Instr} {s t : State} (h : exec i s = .next t)
    (inv : Armed s ∧ regPhase i s) : Armed t ∧ regPhase i t := by
  refine exec_next (R := fun a b => Armed a ∧ regPhase i a → Armed b ∧ regPhase i b) (fun _ => id)
    (fun f g => g ∘ f) ?_ ?_ (fun a b _ _ _ m => bodyOf_registers m) ?_ h inv
  · exact fun a r _ _ ⟨armed, phase⟩ =>
      ⟨armed, regPhase_of_sameReg ⟨fun _ => rfl, fun _ => rfl⟩ rfl rfl phase⟩
  · exact fun a _ k ⟨armed, _⟩ => ⟨armed, regPhase_of_start i (by simp [k])⟩
  · exact fun a r ⟨armed, phase⟩ =>
      ⟨armed, regPhase_of_sameReg (withTurns_outsideMove a r).sameReg rfl rfl phase⟩

/-! ### The invariant -/

theorem outside_registrationInv {s t : State} (m : OutsideMove s t) (inv : s.registrationInv) :
    t.registrationInv := by
  obtain ⟨armed, phase⟩ := inv
  have flight : t.inFlight = s.inFlight := by simp only [State.inFlight, m.seq, m.blk]
  exact ⟨Armed.of_sameReg armed m.sameReg, fun i k =>
    regPhase_of_sameReg m.sameReg (by rw [m.seq]) m.build (phase i (flight ▸ k))⟩

/-- A command leaves itself in flight, or none. -/
theorem exec_inFlight {i j : Instr} {s t : State} (flight : s.inFlight = some i)
    (h : exec i s = .next t) (after : t.inFlight = some j) : j = i := by
  obtain ⟨-, -, held⟩ := inFlight_eq_some.1 flight
  obtain ⟨-, live, held'⟩ := inFlight_eq_some.1 after
  rcases exec_cases h with ⟨r, -, -, rfl⟩ | ⟨-, e⟩
  · cases live
  · rw [e.latched, held] at held'
    cases held'; rfl

theorem registrationInv_kept : KeptByMoves State.registrationInv where
  outside _ _ := outside_registrationInv
  reset _ a := a.registrationInv
  accept _ _ _ _ _ inv := ⟨inv.1, fun i _ => regPhase_of_start i (show 1 ≤ 2 by decide)⟩
  raise s r _ inv := by
    refine ⟨inv.1, fun i k => ?_⟩
    obtain ⟨-, live, -⟩ := inFlight_eq_some.1 k
    cases live
  command i s t flight h inv := by
    obtain ⟨armed, phase⟩ := exec_registers h ⟨inv.1, inv.2 i flight⟩
    refine ⟨armed, fun j after => ?_⟩
    rw [exec_inFlight flight h after]
    exact phase

/-- Settles O54: a registration stores a non-null callback before it attaches, an unregistration detaches
before it clears the callback, and no other move writes a vector or a callback. -/
theorem stepKeepsRegistrationInvariant : Obligations.StepKeepsRegistrationInvariant :=
  fun _ _ hs h => registrationInv_kept.step hs h

end Sys2Proof.Machine
end

section
/-!
The primitive interface (20_memory.md): the wait micro-steps when a flag reads 0 (R78), the arrival of a byte
(R93), and the control writes issued twice (R91).
-/

namespace Sys2Proof

@[simp] theorem PerDir.set_set {α : Type} (t : PerDir α) (d : Dir) (a b : α) :
    (t.set d a).set d b = t.set d b := by cases d <;> rfl

end Sys2Proof

namespace Sys2Proof.Machine

/-! ### Waits -/

/-- The state with its listed poll answers replaced. -/
def State.withPolls (s : State) (r : List Bool) : State := { s with world := { s.world with polls := r } }

/-- A wait whose flag reads 0 spends the answer, does nothing else and ends the burst (R78). -/
theorem waitFlag_unset {s : State} {rest : List Bool} (h : s.world.polls = false :: rest)
    (f : Config.PollFlag) (p : Port) (onSet : State → State) (more : Bool) :
    waitFlag f p onSet more s = .run (s.withPolls rest) false := by
  rw [waitFlag, drawBit_listed h]; rfl

/-- The same for the wait on both acknowledge flags, when either reads 0: one poll spends two answers. -/
theorem waitAck_unset {s : State} {a b : Bool} {rest : List Bool} (h : s.world.polls = a :: b :: rest)
    (unset : (a && b) = false) (p : Port) : waitAck p s = .run (s.withPolls rest) false := by
  rw [waitAck, drawBit_listed h, drawBit_listed rfl]
  simp only [unset]; rfl

/-- A command past its check step whose next micro-step ends the burst answers that micro-step's state. -/
theorem exec_of_body_last {i : Instr} {s t : State} (passes : instrFault i = none)
    (later : s.seq.upc.step ≠ 1) (h : bodyOf i s = .run t false) : exec i s = .next t := by
  obtain ⟨k, fuel⟩ := fuelOf_eq i
  rw [exec_eq_burst, microOf_eq_checked, passes, fuel]
  exact burst_last ((checked_body later).trans h)

/-- Settles O35: each of the five micro-steps is a wait, and a wait that fails ends the burst where it
began. -/
theorem failedPollChangesNothing : Obligations.FailedPollChangesNothing := by
  intro s h rest valid
  refine ⟨fun polls => ⟨fun k => ?_, fun bytes k => ?_, fun baud k => ?_, fun baud k => ?_⟩,
    fun a b baud polls unset k => ?_⟩ <;> refine exec_of_body_last valid (by simp [k]) ?_
  · simp only [bodyOf, microTxWaitComplete, k, waitFlag_unset polls]; rfl
  · simp only [bodyOf, microTx, k, waitFlag_unset polls]; rfl
  · simp only [bodyOf, microSetBaudRate, baudSteps, k, waitFlag_unset polls]; rfl
  · simp only [bodyOf, microInit, baudSteps, k, waitFlag_unset polls]; rfl
  · simp only [bodyOf, microInit, k, waitAck_unset polls unset]; rfl

/-! ### Arrivals -/

theorem step_arrive {s : State} {p : Port} {b : Byte} {r : List Turn}
    (h : s.world.turns = .arrive p b :: r) : step s = .next ((s.withTurns r).arrive p b) := by
  simp [step, move, h]

/-- A free receive register takes the byte. -/
theorem arrive_port_of_free {s : State} {p : Port} (b : Byte) (free : (s.port p).rxne = false) :
    (s.arrive p b).port p = { s.port p with rdr := b, rxne := true } := by
  simp [State.arrive, free]

/-- An occupied one keeps its byte, and the arrival is an overrun. -/
theorem arrive_port_of_full {s : State} {p : Port} (b : Byte) (full : (s.port p).rxne = true) :
    (s.arrive p b).port p = { s.port p with ore := true } := by
  simp [State.arrive, full]

@[simp] theorem arrive_port_other (s : State) (p : Port) (b : Byte) :
    (s.arrive p b).port p.other = s.port p.other := State.modPort_port_other ..

/-- Settles O42: by whether the receive register is free; the flag queries read the
registers as they stand. -/
theorem arrivalStoresOrOverruns : Obligations.ArrivalStoresOrOverruns := by
  refine ⟨fun s p b r turns => ⟨_, step_arrive turns, arrive_port_of_free b, arrive_port_of_full b,
    arrive_port_other .., rfl, rfl, rfl, rfl⟩, fun s p ref => ?_⟩
  obtain ⟨ungated, -⟩ := ref
  rw [flagRxne_reference ungated, flagOre_reference ungated]
  exact ⟨rfl, rfl⟩

/-! ### Control writes -/

/-- In the reference settings `op` changes the interface state exactly as `f` says, and keeps the settings. -/
def ControlWrite (op : State → State) (f : Iface → Iface) : Prop :=
  ∀ s : State, s.reference → (op s).ifc = f s.ifc ∧ (op s).reference

/-- A control write whose effect on the interface state is idempotent may be issued twice. -/
theorem ControlWrite.twice {op : State → State} {f : Iface → Iface} (write : ControlWrite op f)
    (idem : ∀ i, f (f i) = f i) {s : State} (ref : s.reference) : (op s).ifc = (op (op s)).ifc := by
  obtain ⟨once, kept⟩ := write s ref
  rw [(write _ kept).1, once, idem]

/-- An effect on one port's fields is idempotent if it is on those fields. -/
theorem ControlWrite.port_twice {op : State → State} {p : Port} {g : PortEnv → PortEnv}
    (write : ControlWrite op (·.modPort p g)) (idem : ∀ e, g (g e) = g e) {s : State}
    (ref : s.reference) : (op s).ifc = (op (op s)).ifc :=
  write.twice (fun i => by simp [Iface.modPort, idem]) ref

/-- A recorded write that no bus clock gates. -/
theorem modPort_log_controlWrite (p : Port) (g : PortEnv → PortEnv) (w : Issuer) (x : Prim) :
    ControlWrite (fun s => (s.modPort p g).log w x) (·.modPort p g) := fun _ ref => ⟨rfl, ref⟩

/-- A recorded register write. -/
theorem regWrite_log_controlWrite (p : Port) (f : Iface → Iface) (w : Issuer) (x : Prim) :
    ControlWrite (fun s => (s.regWrite p f).log w x) f := fun s ref => by
  simp only [regWrite_reference ref.1]; exact ⟨rfl, ref⟩

theorem periphConfig_controlWrite (p : Port) :
    ControlWrite (·.periphConfig p)
      (·.modPort p fun e => { e with frame := true, dirEn := ⟨true, true⟩ }) := fun s ref => by
  simp only [State.periphConfig, regWrite_reference ref.1, configured_reference ref.2]
  exact ⟨rfl, ref⟩

theorem fifoEnable_controlWrite (p : Port) :
    ControlWrite (·.fifoEnable p) (·.modPort p fun e => { e with fifoEn := true }) := fun s ref => by
  simp only [State.fifoEnable, regWrite_reference ref.1, configured_reference ref.2]
  exact ⟨rfl, ref⟩

theorem asyncModeUsart_controlWrite :
    ControlWrite State.asyncModeUsart (fun i => { i with asyncMode := true }) := fun s ref => by
  simp only [State.asyncModeUsart, regWrite_reference ref.1, configured_reference ref.2]
  exact ⟨rfl, ref⟩

/-- Settles O53: each control write puts constants into some fields, whatever they held. -/
theorem controlWritesAreIdempotent : Obligations.ControlWritesAreIdempotent := by
  intro s ref
  refine ⟨fun p => ⟨?busEnable, ?busDisable, ?clkSrcSelect, ?vecAttach, ?vecDetach, ?periphConfig,
    ?fifoEnable, ?periphEnable, ?periphDisable, ?rxneIrqEnable, ?rxneIrqDisable, ?errIrqDisable⟩,
    ?asyncMode, fun p d => ⟨?pinCfgAF, ?pinCfgAnalog, ?dirEnable, ?dirDisable⟩, fun p v => ?prescaler,
    fun p v => ?divisor⟩
  case busEnable | busDisable | clkSrcSelect | vecAttach | vecDetach =>
    exact (modPort_log_controlWrite p _ _ _).port_twice (fun _ => by rfl) ref
  case pinCfgAF | pinCfgAnalog =>
    exact (modPort_log_controlWrite p _ _ _).port_twice (fun _ => by simp) ref
  case periphConfig => exact (periphConfig_controlWrite p).port_twice (fun _ => rfl) ref
  case fifoEnable => exact (fifoEnable_controlWrite p).port_twice (fun _ => rfl) ref
  case asyncMode => exact asyncModeUsart_controlWrite.twice (fun _ => rfl) ref
  case dirEnable | dirDisable =>
    exact (regWrite_log_controlWrite p _ _ _).port_twice (fun _ => by simp) ref
  all_goals exact (regWrite_log_controlWrite p _ _ _).port_twice (fun _ => by rfl) ref

end Sys2Proof.Machine
end

section
/-!
The encoding (30_encoding.md R110 to R117): the row a header selects, said through its fields `op` and `rsv`;
what a packet holds that decodes; and from both the two directions of the round trip.
-/

namespace Sys2Proof

/-! ### The row a header selects -/

/-- The mask keeps `op`. -/
theorem opField_masked (header : Word) : opField (header &&& 0xFFFFFE0F) = opField header := by
  have ones : (0xFFFFFE0F : Word).extractLsb' 0 4 = BitVec.allOnes 4 := by decide
  rw [opField, BitVec.extractLsb'_and, ones, BitVec.and_allOnes, opField]

/-- The mask keeps `rsv`. -/
theorem rsvField_masked (header : Word) : rsvField (header &&& 0xFFFFFE0F) = rsvField header := by
  have ones : (0xFFFFFE0F : Word).extractLsb' 9 23 = BitVec.allOnes 23 := by decide
  rw [rsvField, BitVec.extractLsb'_and, ones, BitVec.and_allOnes, rsvField]

/-- A row's pattern is the header of its operation with every operand bit 0. -/
theorem row_pattern (op : Op) : op.row.pattern = encodeHeader op ⟨false, 0, 0⟩ := by
  cases op <;> decide

/-- A header with `rsv` 0 is the header of its operation, whatever its operand bits. -/
theorem encodeHeader_hdrOf {header : Word} {op : Op} (rsv : rsvField header = 0)
    (code : opField header = op.code) : encodeHeader op (hdrOf header) = header := by
  conv_rhs => rw [header_eq header, rsv, code]
  rfl

/-- A header has a row's pattern under its mask exactly when `rsv` is 0 and `op` is the row's code. -/
theorem masked_eq_pattern_iff (header : Word) (op : Op) :
    header &&& op.row.mask = op.row.pattern ↔ rsvField header = 0 ∧ opField header = op.code := by
  change header &&& 0xFFFFFE0F = _ ↔ _
  constructor
  · intro h
    rw [row_pattern] at h
    rw [← rsvField_masked, ← opField_masked, h]
    exact ⟨rsvField_encodeHeader .., opField_encodeHeader ..⟩
  · rintro ⟨rsv, code⟩
    rw [← encodeHeader_hdrOf rsv code]
    exact encodeHeader_masked ..

theorem selectRow_eq_row_iff (header : Word) (op : Op) :
    selectRow header = some op.row ↔ rsvField header = 0 ∧ opField header = op.code := by
  constructor
  · intro h
    exact (masked_eq_pattern_iff header op).1 (by simpa using List.find?_some h)
  · rintro ⟨rsv, code⟩
    rw [← encodeHeader_hdrOf rsv code]
    exact selectRow_encodeHeader ..

/-- The rows of the opcode map are those of the operations. -/
theorem eq_row_of_mem {r : OpRow} (h : r ∈ opcodeTable) : r = r.op.row := by
  rw [opcodeTable_eq] at h
  obtain ⟨op, -, rfl⟩ := List.mem_map.1 h
  rfl

theorem eq_row_of_selectRow {header : Word} {r : OpRow} (h : selectRow header = some r) :
    r = r.op.row := eq_row_of_mem (List.mem_of_find?_eq_some h)

/-- The codes in use are 0 to 11 (R113). -/
theorem exists_code_eq_iff (c : BitVec 4) : (∃ op : Op, c = op.code) ↔ c.toNat < 12 := by
  constructor
  · rintro ⟨op, rfl⟩
    cases op <;> decide
  · intro h
    have listed : ∀ c : BitVec 4, c.toNat < 12 → c ∈ opcodeTable.map (·.op.code) := by decide
    obtain ⟨r, -, code⟩ := List.mem_map.1 (listed c h)
    exact ⟨r.op, code.symm⟩

/-- Settles O4: a row is its operation's, and both sides say that `rsv` is 0 and `op` is its code. -/
theorem headerSelectsItsRow : Obligations.HeaderSelectsItsRow := by
  intro header r mem
  rw [eq_row_of_mem mem]
  exact (selectRow_eq_row_iff ..).trans (masked_eq_pattern_iff ..).symm

theorem selectRow_isSome_iff (header : Word) :
    (selectRow header).isSome ↔ rsvField header = 0 ∧ (opField header).toNat < 12 := by
  rw [Option.isSome_iff_exists, ← exists_code_eq_iff, ← exists_and_left]
  constructor
  · rintro ⟨r, h⟩
    exact ⟨r.op, (selectRow_eq_row_iff ..).1 (h.trans (congrArg some (eq_row_of_selectRow h)))⟩
  · rintro ⟨op, h⟩
    exact ⟨op.row, (selectRow_eq_row_iff ..).2 h⟩

/-- Settles O5: a row is selected when `rsv` is 0 and `op` is one of the codes 0 to 11. -/
theorem reservedHeadersSelectNothing : Obligations.ReservedHeadersSelectNothing := by
  intro header
  rw [← Option.not_isSome_iff_eq_none, selectRow_isSome_iff, not_and_or, Nat.not_lt, or_comm]

/-! ### What a packet that decodes holds -/

/-- The packet holds the operands of the command: the handle and direction bits in its header, the operand
words and the beats. -/
structure Holds (pk : Packet) (i : Instr) : Prop where
  hdr : hdrOf pk.header = i.hdr
  args : pk.args = i.args
  beats : pk.beats = i.beats

theorem readNone_eq_ok {pk : Packet} {i j : Instr} :
    readNone pk j = .ok i ↔ i = j ∧ pk.args = [] ∧ pk.beats = [] := by
  unfold readNone
  split
  · next a b => simp [a, b, eq_comm]
  · next no => simp only [reduceCtorEq, false_iff]; exact fun ⟨_, a, b⟩ => no a b

theorem readOne_eq_ok {pk : Packet} {mk : Word → Instr} {i : Instr} :
    readOne pk mk = .ok i ↔ ∃ a, i = mk a ∧ pk.args = [a] ∧ pk.beats = [] := by
  unfold readOne
  split
  · next x a b => simp [a, b, eq_comm]
  · next no => simp only [reduceCtorEq, false_iff]; exact fun ⟨x, _, a, b⟩ => no x a b

theorem readTwo_eq_ok {pk : Packet} {mk : Word → Word → Instr} {i : Instr} :
    readTwo pk mk = .ok i ↔ ∃ a b, i = mk a b ∧ pk.args = [a, b] ∧ pk.beats = [] := by
  unfold readTwo
  split
  · next x y a b => simp [a, b, eq_comm]
  · next no => simp only [reduceCtorEq, false_iff]; exact fun ⟨x, y, _, a, b⟩ => no x y a b

theorem readBeats_eq_ok {pk : Packet} {mk : List Byte → Instr} {i : Instr} :
    readBeats pk mk = .ok i ↔ i = mk pk.beats ∧ ∃ n, pk.args = [n] ∧ n.toNat = pk.beats.length := by
  unfold readBeats
  split
  · next n a => rw [a]; split <;> simp_all [eq_comm]
  · next no => simp only [reduceCtorEq, false_iff]; exact fun ⟨_, n, a, _⟩ => no n a

/-- A number of beats and the 32-bit operand word that says it (R115). -/
theorem toNat_eq_length_iff {n : Word} {bytes : List Byte} :
    n.toNat = bytes.length ↔ bytes.length < 2 ^ 32 ∧ n = BitVec.ofNat 32 bytes.length := by
  rw [← BitVec.toNat_inj, BitVec.toNat_ofNat]
  have := n.isLt
  constructor
  · intro h; rw [← h, Nat.mod_eq_of_lt this]; exact ⟨this, rfl⟩
  · rintro ⟨lt, h⟩; rw [h, Nat.mod_eq_of_lt lt]

/-- A packet that holds the operands of a well-formed command is read as that command. -/
theorem decodeAs_of_holds {pk : Packet} {i : Instr} (wf : i.wf = true) (h : Holds pk i) :
    decodeAs i.op pk = .ok i := by
  obtain ⟨hdr, args, beats⟩ := h
  cases i
  case init | isBaudRateSupported | setBaudRate =>
    exact readOne_eq_ok.2 ⟨_, by rw [hdr]; rfl, args, beats⟩
  case tx =>
    exact readBeats_eq_ok.2 ⟨by rw [hdr, beats]; rfl, _, args,
      toNat_eq_length_iff.2 ⟨by rw [beats]; exact of_decide_eq_true wf, by rw [beats]; rfl⟩⟩
  case setRxCallback => exact readTwo_eq_ok.2 ⟨_, _, by rw [hdr]; rfl, args, beats⟩
  all_goals exact readNone_eq_ok.2 ⟨by rw [hdr]; rfl, args, beats⟩

/-- A packet read as a command of an operation holds the operands of that command, which is well formed. -/
theorem holds_of_decodeAs {op : Op} {pk : Packet} {i : Instr} (h : decodeAs op pk = .ok i) :
    i.op = op ∧ i.wf = true ∧ Holds pk i := by
  cases op
  case init | isBaudRateSupported | setBaudRate =>
    obtain ⟨a, rfl, args, beats⟩ := readOne_eq_ok.1 h
    exact ⟨rfl, rfl, rfl, args, beats⟩
  case tx =>
    obtain ⟨rfl, n, args, length⟩ := readBeats_eq_ok.1 h
    obtain ⟨lt, rfl⟩ := toNat_eq_length_iff.1 length
    exact ⟨rfl, decide_eq_true lt, rfl, args, rfl⟩
  case setRxCallback =>
    obtain ⟨a, b, rfl, args, beats⟩ := readTwo_eq_ok.1 h
    exact ⟨rfl, rfl, rfl, args, beats⟩
  all_goals
    obtain ⟨rfl, args, beats⟩ := readNone_eq_ok.1 h
    exact ⟨rfl, rfl, rfl, args, beats⟩

/-! ### The round trip -/

theorem encode_holds (i : Instr) : Holds (encode i) i := ⟨hdrOf_encodeHeader .., rfl, rfl⟩

/-- Settles O2: the header selects the row of the command's operation, and the packet holds its operands. -/
theorem decodeOfEncodeIsTheCommand : Obligations.DecodeOfEncodeIsTheCommand := by
  intro i wf
  have row : selectRow (encode i).header = some i.op.row := selectRow_encodeHeader ..
  unfold decode
  rw [row]
  exact decodeAs_of_holds wf (encode_holds i)

/-- A header that selects a row is rebuilt from the row's operation and the operand bits. -/
theorem encodeHeader_of_selectRow {header : Word} {r : OpRow} (h : selectRow header = some r) :
    encodeHeader r.op (hdrOf header) = header := by
  obtain ⟨rsv, code⟩ := (selectRow_eq_row_iff header r.op).1 (by rw [h, ← eq_row_of_selectRow h])
  exact encodeHeader_hdrOf rsv code

/-- Settles O3: the header is rebuilt from the selected operation and its operand bits, the operand words and
the beats are those of the command. -/
theorem encodeOfDecodeIsThePacket : Obligations.EncodeOfDecodeIsThePacket := by
  intro pk i d
  unfold decode at d
  split at d
  · cases d
  · next r row =>
    obtain ⟨op, wf, hdr, args, beats⟩ := holds_of_decodeAs d
    refine ⟨wf, ?_⟩
    rw [encode, op, ← hdr, encodeHeader_of_selectRow row, ← args, ← beats]

/-- Settles O1: each header is evaluated against the opcode map. -/
theorem writtenOutPacketsDecode : Obligations.WrittenOutPacketsDecode := by
  unfold Obligations.WrittenOutPacketsDecode
  decide

end Sys2Proof
end

section
/-!
The sequencer's turn (30_encoding.md R117 to R124): a command in flight goes on from its latches; an idle
block accepts the next packet, and what that writes; while busy or faulted, no packet is taken.
-/

namespace Sys2Proof.Machine

/-! ### Whose turn it is -/

theorem step_of_no_turns {s : State} (h : s.world.turns = []) : step s = sequencerTurn s := by
  simp [step, move, h]

theorem step_quiet {s : State} {r : List Turn} (h : s.world.turns = .quiet :: r) :
    step s = sequencerTurn (s.withTurns r) := by
  simp [step, move, h]

theorem sequencerTurn_of_busy {s : State} (live : s.blk.fatal = false) (busy : s.seq.busy = true) :
    sequencerTurn s = runLatched s := by
  simp [sequencerTurn, live, busy]

/-- An idle block takes the next packet if its length is its format's. -/
theorem sequencerTurn_of_idle {s : State} {pk : Packet} {rest : List Packet}
    (live : s.blk.fatal = false) (idle : s.seq.busy = false) (cmds : s.world.cmds = pk :: rest)
    (d : decode pk ≠ .error .badLength) :
    sequencerTurn s = beginAccepted (acceptPacket pk rest s) := by
  unfold sequencerTurn
  rw [cmds]
  simp only [live, idle, Bool.false_eq_true, if_false]
  split
  · next bad => exact absurd bad d
  · rfl
  · rfl

theorem beginAccepted_of_no_turns {s : State} (h : s.world.turns = []) :
    beginAccepted s = runLatched s := by
  simp [beginAccepted, h]

/-- Another agent moves right after acceptance: the step ends there. -/
theorem beginAccepted_of_other {s : State} {a : Turn} {r : List Turn} (h : s.world.turns = a :: r)
    (other : a ≠ .quiet) : beginAccepted s = .next s := by
  cases a with
  | quiet => exact absurd rfl other
  | arrive | enter | reset => simp [beginAccepted, h]

/-! ### The command in the latches -/

theorem runLatched_eq_exec {s : State} {i : Instr} (op : s.seq.upc.op = opField s.seq.x0)
    (d : decode (latched s.seq) = .ok i) : runLatched s = exec i s := by
  simp [runLatched, op, d]

/-- Latches that hold no command raise at the check step. -/
theorem runLatched_raises {s : State} (op : s.seq.upc.op = opField s.seq.x0)
    (one : s.seq.upc.step = 1) (d : decode (latched s.seq) = .error .illegalCommand) :
    runLatched s = .next (s.raiseFatal .illegalCommand) := by
  have raises : burst microIllegal straightFuel s = .next (s.raiseFatal .illegalCommand) :=
    burst_last (checked_raises one)
  simpa [runLatched, op, d] using raises

/-- Settles O7: the latches decode to the command, and the preemption point leaves them alone. -/
theorem stepResumesTheLatchedCommand : Obligations.StepResumesTheLatchedCommand := by
  intro s i live busy op d
  constructor
  · intro turns
    rw [step_of_no_turns turns, sequencerTurn_of_busy live busy, runLatched_eq_exec op d]
  · intro r turns
    rw [step_quiet turns, sequencerTurn_of_busy (s := s.withTurns r) live busy]
    exact runLatched_eq_exec (s := s.withTurns r) op d

/-! ### Acceptance -/

theorem decode_latched_acceptPacket (s : State) {pk : Packet} (rest : List Packet)
    (h : decode pk ≠ .error .badLength) :
    decode (latched (acceptPacket pk rest s).seq) = decode pk := decode_latched_accept _ h

/-- The header of a packet that decodes to a command is that command's. -/
theorem header_of_decode {pk : Packet} {i : Instr} (d : decode pk = .ok i) :
    pk.header = encodeHeader i.op i.hdr := by
  rw [← (encodeOfDecodeIsThePacket pk i d).2]; rfl

/-- Settles O6: the latches decode to what was accepted, and `upc` names its operation and step 1. -/
theorem stepRunsTheAcceptedCommand : Obligations.StepRunsTheAcceptedCommand := by
  intro s pk rest i live idle turns cmds d
  have fits : decode pk ≠ .error .badLength := by rw [d]; nofun
  have held := (decode_latched_acceptPacket s rest fits).trans d
  refine ⟨?_, held, rfl, live, ?_, turns⟩
  · rw [step_of_no_turns turns, sequencerTurn_of_idle live idle cmds fits,
      beginAccepted_of_no_turns (s := acceptPacket pk rest s) turns, runLatched_eq_exec rfl held]
  · change (⟨opField pk.header, 1, 0⟩ : Upc) = _
    rw [header_of_decode d, opField_encodeHeader]

/-- Settles O8: when another agent moves, the state after acceptance is the step's; its latches are the
packet's words, and the byte stream that of format S. -/
theorem acceptanceWritesOnlyTheLatches : Obligations.AcceptanceWritesOnlyTheLatches := by
  intro s pk rest i a r live idle turns other cmds d
  have fits : decode pk ≠ .error .badLength := by rw [d]; nofun
  refine ⟨acceptPacket pk rest (s.withTurns (a :: r)), ?_, rfl, ?x1, ?x2, ?txbuf, rfl, rfl, rfl, rfl,
    rfl, rfl, rfl⟩
  · rw [step_quiet turns, sequencerTurn_of_idle (s := s.withTurns (a :: r)) live idle cmds fits]
    exact beginAccepted_of_other rfl other
  case x1 =>
    intro w head
    change Packet.arg0 pk s.draws = w
    obtain ⟨l, args⟩ := List.head?_eq_some_iff.1 head
    rw [Packet.arg0, args]
  case x2 =>
    intro v w args
    change Packet.arg1 pk s.draws = w
    rw [Packet.arg1, args]
  case txbuf =>
    intro format
    change acceptedBeats pk s.seq.txbuf = pk.beats
    have row : (selectRow pk.header).map OpRow.format = some .S := by
      rw [header_of_decode d, selectRow_encodeHeader, Option.map_some, ← format]; rfl
    rw [acceptedBeats, row]

/-- Settles O12: no row is selected, so the accepted packet is no command and its check step raises. -/
theorem illegalPacketRaisesIllegalCommand : Obligations.IllegalPacketRaisesIllegalCommand := by
  intro s pk rest live idle turns cmds reserved
  have illegal : decode pk = .error .illegalCommand := by
    rw [decode, (reservedHeadersSelectNothing _).2 reserved]
  have fits : decode pk ≠ .error .badLength := by rw [illegal]; nofun
  have held := (decode_latched_acceptPacket s rest fits).trans illegal
  refine ⟨?_, rfl, rfl, rfl⟩
  rw [step_of_no_turns turns, sequencerTurn_of_idle live idle cmds fits,
    beginAccepted_of_no_turns (s := acceptPacket pk rest s) turns, runLatched_raises rfl rfl held]

/-! ### The caller's packets -/

theorem exec_cmds {i : Instr} {s t : State} (h : exec i s = .next t) :
    t.world.cmds = s.world.cmds := by
  rcases exec_cases h with ⟨r, -, -, rfl⟩ | ⟨-, e⟩
  · rfl
  · exact e.cmds

theorem runLatched_cmds {s t : State} (h : runLatched s = .next t) : t.world.cmds = s.world.cmds := by
  unfold runLatched at h
  split at h
  · cases h
  · split at h
    · exact exec_cmds h
    · rw [microIllegal_next h]; rfl
    · cases h

/-- A handler takes no packet: each of its primitives leaves the caller alone. -/
theorem enterHandler_cmds {p : Port} {s t : State} (h : enterHandler p s = .next t) :
    t.world.cmds = s.world.cmds := by
  unfold enterHandler at h
  split at h
  · refine Eq.trans ?_ (flagRxne_issues s p).cmds
    unfold handler at h
    dsimp only at h
    split at h
    · unfold handlerDeliver at h
      split at h
      · cases h
      · cases h; exact (readData_issues _ p).cmds
    · cases h
      unfold handlerOverrun
      dsimp only
      split
      · exact (clearOre_issues _ p).cmds.trans (flagOre_issues _ p).cmds
      · exact (flagOre_issues _ p).cmds
  · cases h; rfl

/-- The sequencer takes a packet only when it is idle and the block is not faulted (R120). -/
theorem sequencerTurn_cmds {s t : State} (taken : s.seq.busy = true ∨ s.blk.fatal = true)
    (h : sequencerTurn s = .next t) : t.world.cmds = s.world.cmds := by
  cases live : s.blk.fatal with
  | true => rw [sequencerTurn_of_fatal live] at h; cases h; rfl
  | false =>
    have busy : s.seq.busy = true := taken.resolve_right (by simp [live])
    rw [sequencerTurn_of_busy live busy] at h
    exact runLatched_cmds h

/-- Settles O9: by the agent whose turn it is; none but an idle sequencer takes a packet. -/
theorem busyOrFaultedPortTakesNothing : Obligations.BusyOrFaultedPortTakesNothing := by
  intro s t taken h
  unfold step move at h
  split at h
  · exact sequencerTurn_cmds taken h
  · next r _ => exact sequencerTurn_cmds (s := s.withTurns r) taken h
  · cases h; rfl
  · next p r _ => exact enterHandler_cmds (s := s.withTurns r) h
  · cases h; rfl

end Sys2Proof.Machine
end

section
/-!
Straight runs: the micro-steps of a command without a loop, taken one after the other while nobody else
moves (`Leads`), and what they change of their port (`Makes`); and the register writes in the reference
settings of U6 and U9, where each has exactly its effect (20_memory.md R85 to R90).
-/

namespace Sys2Proof.Machine

/-! ### Runs of micro-steps -/

/-- Micro-steps of `i` lead from `s`, with step `k` next, to `t`, with step `l` next: none of them ends the
burst, and they leave the preemption points alone. Each goes on at a later step, so `l` bounds how many there
are. -/
inductive Leads (i : Instr) : Nat → State → Nat → State → Prop
  | refl (k : Nat) (s : State) : Leads i k s k s
  | step {k l m : Nat} {s t u : State} (later : 1 < k) (up : k < l)
      (micro : bodyOf i (s.jump k) = .run (t.jump l) true) (turns : t.world.turns = s.world.turns)
      (rest : Leads i l t m u) : Leads i k s m u

/-- One micro-step that goes on at step `l`. -/
theorem Leads.one {i : Instr} {k l : Nat} {s t : State}
    (micro : bodyOf i (s.jump k) = .run (t.jump l) true) (turns : t.world.turns = s.world.turns)
    (later : 1 < k := by omega) (up : k < l := by omega) : Leads i k s l t :=
  .step later up micro turns (.refl l t)

theorem Leads.trans {i : Instr} {k l m : Nat} {s t u : State} (a : Leads i k s l t)
    (b : Leads i l t m u) : Leads i k s m u := by
  induction a with
  | refl => exact b
  | step later up micro turns _ ih => exact .step later up micro turns (ih b)

theorem Leads.le {i : Instr} {k l : Nat} {s t : State} (a : Leads i k s l t) : k ≤ l := by
  induction a with
  | refl => exact Nat.le_refl _
  | step _ up _ _ _ ih => omega

/-- A burst with enough fuel takes the micro-steps of a straight run and the one that ends it. -/
theorem burst_of_leads {i : Instr} {k l : Nat} {s t u : State} (passes : instrFault i = none)
    (path : Leads i k s l t) (later : 1 < k) (last : bodyOf i (t.jump l) = .run u false)
    (quiet : s.world.turns = []) {fuel : Nat} (enough : l < k + fuel) :
    burst (microOf i) fuel (s.jump k) = .next u := by
  have body : ∀ (a : State) (j : Nat), 1 < j → microOf i (a.jump j) = bodyOf i (a.jump j) :=
    fun a j lt => by
      rw [microOf_eq_checked, passes]
      exact checked_body (s := a.jump j) (Nat.ne_of_gt lt)
  induction path generalizing fuel with
  | refl k s =>
    obtain ⟨n, rfl⟩ : ∃ n, fuel = n + 1 := ⟨fuel - 1, by omega⟩
    exact burst_last ((body s k later).trans last)
  | @step k j l s a t _ up micro turns rest ih =>
    have le := rest.le
    obtain ⟨n, rfl⟩ : ∃ n, fuel = n + 1 := ⟨fuel - 1, by omega⟩
    have still := turns.trans quiet
    exact burst_step ((body s k later).trans micro) still (ih (by omega) last still (by omega))

theorem advance_eq_jump {s : State} {k : Nat} (h : s.seq.upc.step = k) : s.advance = s.jump (k + 1) := by
  subst h; rfl

/-- A command that has been accepted and whose check passes: its micro-steps from step 2 on lead to the one
that ends it. -/
theorem exec_of_leads {i : Instr} {l : Nat} {s t u : State} (start : s.atStart i)
    (passes : instrFault i = none) (path : Leads i 2 s l t)
    (last : bodyOf i (t.jump l) = .run u false) (short : l ≤ 20) : exec i s = .next u := by
  obtain ⟨-, -, upc, turns⟩ := start
  obtain ⟨n, fuel⟩ := fuelOf_eq i
  have one : s.seq.upc.step = 1 := by rw [upc]
  have check : microOf i s = .run (s.jump 2) true := by
    rw [microOf_eq_checked, passes, checked_passes one, advance_eq_jump one]
  rw [exec_eq_burst, fuel]
  exact burst_step check turns (burst_of_leads passes path (by decide) last turns (by omega))

/-- The packet of a command, accepted, puts the command at its start. -/
theorem accept_atStart (i : Instr) {s : State} (live : s.blk.fatal = false)
    (turns : s.world.turns = []) : (s.accept (encode i)).atStart i :=
  ⟨rfl, live, by simp [encode], turns⟩

/-! ### What a stretch of micro-steps changes -/

/-- A change of one port: the primitives issued, what becomes of the port's fields, of its DriverState and of
`async_mode`, and how many listed answers of the status flags are spent. -/
structure Change where
  prims : List Prim := []
  port : PortEnv → PortEnv := id
  drv : Driver → Driver := id
  async : Bool → Bool := id
  polls : Nat := 0

/-- One change, then another. -/
def Change.andThen (c d : Change) : Change :=
  ⟨c.prims ++ d.prims, d.port ∘ c.port, d.drv ∘ c.drv, d.async ∘ c.async, c.polls + d.polls⟩

/-- From `s` to `t` exactly this changes of port `p`, and nothing of the other port, of the latch or of the
byte and callback traces. -/
structure Makes (p : Port) (c : Change) (s t : State) : Prop where
  blk : t.blk = { s.blk with drv := s.blk.drv.set p (c.drv (s.drv p)) }
  ifc : t.ifc = ⟨s.ifc.env.set p (c.port (s.port p)), c.async s.ifc.asyncMode⟩
  primlog : t.trc.primlog = s.trc.primlog ++ sequencerEntries c.prims
  txlog : t.trc.txlog = s.trc.txlog
  cblog : t.trc.cblog = s.trc.cblog
  build : t.build = s.build
  turns : t.world.turns = s.world.turns
  polls : t.world.polls = s.world.polls.drop c.polls

namespace Makes

variable {p : Port} {c d : Change} {s t u : State}

theorem refl (p : Port) (s : State) : Makes p {} s s where
  blk := by simp [State.drv]
  ifc := by simp [State.port]
  primlog := by simp [sequencerEntries]
  txlog := rfl
  cblog := rfl
  build := rfl
  turns := rfl
  polls := rfl

theorem port (m : Makes p c s t) : t.port p = c.port (s.port p) := by simp [State.port, m.ifc]

theorem port_other (m : Makes p c s t) : t.port p.other = s.port p.other := by simp [State.port, m.ifc]

theorem drv (m : Makes p c s t) : t.drv p = c.drv (s.drv p) := by simp [State.drv, m.blk]

theorem drv_other (m : Makes p c s t) : t.drv p.other = s.drv p.other := by simp [State.drv, m.blk]

theorem asyncMode (m : Makes p c s t) : t.ifc.asyncMode = c.async s.ifc.asyncMode := by rw [m.ifc]

theorem fatal (m : Makes p c s t) : t.blk.fatal = s.blk.fatal := by rw [m.blk]

/-- A change that writes no DriverState keeps the block state. -/
theorem blk_of_drv_id (m : Makes p c s t) (h : c.drv = id) : t.blk = s.blk := by
  simp [m.blk, h, State.drv]

theorem trans (m : Makes p c s t) (n : Makes p d t u) : Makes p (c.andThen d) s u where
  blk := by simp [n.blk, m.drv, m.blk, Change.andThen]
  ifc := by simp [n.ifc, m.port, m.ifc, Change.andThen]
  primlog := by simp [n.primlog, m.primlog, Change.andThen, sequencerEntries]
  txlog := n.txlog.trans m.txlog
  cblog := n.cblog.trans m.cblog
  build := n.build.trans m.build
  turns := n.turns.trans m.turns
  polls := by rw [n.polls, m.polls, List.drop_drop]; rfl

/-- A move of the sequencer changes nothing of this. -/
theorem modSeq (m : Makes p c s t) (f : Seq → Seq) : Makes p c s (t.modSeq f) := { m with }

/-- Nor does a draw. -/
theorem tick (m : Makes p c s t) : Makes p c s t.tick := { m with }

end Makes

theorem log_makes (p : Port) (s : State) (x : Prim) :
    Makes p { prims := [x] } s (s.log .sequencer x) := { Makes.refl p s with primlog := rfl }

theorem modPort_makes (p : Port) (s : State) (g : PortEnv → PortEnv) :
    Makes p { port := g } s (s.modPort p g) := { Makes.refl p s with ifc := rfl }

theorem modDrv_makes (p : Port) (s : State) (f : Driver → Driver) :
    Makes p { drv := f } s (s.modDrv p f) := { Makes.refl p s with blk := rfl }

theorem asyncMode_makes (p : Port) (s : State) : Makes p { async := fun _ => true } s
    { s with ifc := { s.ifc with asyncMode := true } } :=
  { Makes.refl p s with ifc := by simp [State.port] }

/-- A recorded write of the port's fields. -/
theorem write_makes (p : Port) (s : State) (g : PortEnv → PortEnv) (x : Prim) :
    Makes p { prims := [x], port := g } s ((s.modPort p g).log .sequencer x) :=
  (modPort_makes p s g).trans (log_makes p _ x)

/-- Micro-steps of `i` from `s` at step `k` to `t` at step `l`, which make the change `c` of port `p`. -/
structure Does (i : Instr) (p : Port) (k : Nat) (s : State) (l : Nat) (t : State) (c : Change) : Prop where
  leads : Leads i k s l t
  makes : Makes p c s t

namespace Does

variable {i : Instr} {p : Port} {k l m : Nat} {s t u : State} {c d : Change}

theorem trans (a : Does i p k s l t c) (b : Does i p l t m u d) : Does i p k s m u (c.andThen d) :=
  ⟨a.leads.trans b.leads, a.makes.trans b.makes⟩

/-- One micro-step that goes on at step `l`. -/
theorem one (micro : bodyOf i (s.jump k) = .run (t.jump l) true) (makes : Makes p c s t)
    (later : 1 < k := by omega) (up : k < l := by omega) : Does i p k s l t c :=
  ⟨.one micro makes.turns later up, makes⟩

/-- One micro-step that falls through. -/
theorem next (makes : Makes p c s t) (micro : bodyOf i (s.jump k) = .next (t.jump k))
    (later : 1 < k := by omega) : Does i p k s (k + 1) t c :=
  one micro makes later (Nat.lt_succ_self k)

/-- One micro-step that writes the port's fields, as in the reference settings. -/
theorem write (g : PortEnv → PortEnv) (x : Prim)
    (micro : bodyOf i (s.jump k) = .next (((s.jump k).modPort p g).log .sequencer x))
    (later : 1 < k := by omega) :
    Does i p k s (k + 1) ((s.modPort p g).log .sequencer x) { prims := [x], port := g } :=
  next (write_makes p s g x) micro later

/-- One micro-step that is a recorded register write, in the reference setting of U6. -/
theorem regWrite (g : PortEnv → PortEnv) (x : Prim) (ungated : s.build.gatedSafe = false)
    (micro : bodyOf i (s.jump k) =
      .next (((s.jump k).regWrite p fun j => j.modPort p g).log .sequencer x))
    (later : 1 < k := by omega) :
    Does i p k s (k + 1) ((s.modPort p g).log .sequencer x) { prims := [x], port := g } :=
  write g x (by rw [micro, regWrite_reference (s := s.jump k) ungated]; rfl) later

end Does

/-- A command that has been accepted and whose check passes, by the change `c` of its micro-steps and the
change `d` of the one that ends it. -/
theorem exec_of_does {i : Instr} {p : Port} {l : Nat} {s t v : State} {c d : Change}
    (start : s.atStart i) (passes : instrFault i = none) (path : Does i p 2 s l t c)
    (last : bodyOf i (t.jump l) = .done (v.jump l)) (makes : Makes p d t v)
    (short : l ≤ 20 := by decide) :
    ∃ u, exec i s = .next u ∧ u.seq.busy = false ∧ Makes p (c.andThen d) s u :=
  ⟨_, exec_of_leads start passes path.leads last short, rfl,
    ((path.makes.trans makes).modSeq _).modSeq _⟩

/-! ### Register writes in the reference settings -/

section
variable {s : State} (ungated : s.build.gatedSafe = false)
include ungated

theorem periphEnable_reference (p : Port) : s.periphEnable p =
    (s.modPort p fun e => { e with pe := true }).log .sequencer (.periphEnable p) := by
  rw [State.periphEnable, regWrite_reference ungated]; rfl

theorem periphDisable_reference (p : Port) : s.periphDisable p =
    (s.modPort p fun e => { e with pe := false }).log .sequencer (.periphDisable p) := by
  rw [State.periphDisable, regWrite_reference ungated]; rfl

theorem errIrqDisable_reference (p : Port) : s.errIrqDisable p =
    (s.modPort p fun e => { e with errIe := false }).log .sequencer (.errIrqDisable p) := by
  rw [State.errIrqDisable, regWrite_reference ungated]; rfl

variable (uncautious : s.build.reinitCautious = false)
include uncautious

theorem periphConfig_reference (p : Port) : s.periphConfig p =
    (s.modPort p fun e => { e with frame := true, dirEn := ⟨true, true⟩ }).tick.log .sequencer
      (.periphConfig p) := by
  rw [State.periphConfig, regWrite_reference ungated, configured_reference uncautious]; rfl

theorem fifoEnable_reference (p : Port) : s.fifoEnable p =
    (s.modPort p fun e => { e with fifoEn := true }).tick.log .sequencer (.fifoEnable p) := by
  rw [State.fifoEnable, regWrite_reference ungated, configured_reference uncautious]; rfl

theorem asyncModeUsart_reference : s.asyncModeUsart =
    ({ s with ifc := { s.ifc with asyncMode := true } } : State).tick.log .sequencer
      (.asyncMode .usart) := by
  rw [State.asyncModeUsart, regWrite_reference ungated, configured_reference uncautious]

end

end Sys2Proof.Machine
end

section
/-!
`suspend` and `resume` (40_lifecycle.md R144 to R148): each has two paths, and from where each path ends
follows what two of them, one after the other, do.
-/

namespace Sys2Proof.Machine

/-! ### Changes of a port's fields -/

theorem Iface.modPort_modPort (i : Iface) (p : Port) (f g : PortEnv → PortEnv) :
    (i.modPort p f).modPort p g = i.modPort p (g ∘ f) := by simp [Iface.modPort]

/-- A change of a port's fields that changes none is no change of the interface state. -/
theorem Iface.modPort_of_fixed {i : Iface} {p : Port} {f : PortEnv → PortEnv}
    (h : f (i.env.get p) = i.env.get p) : i.modPort p f = i := by simp [Iface.modPort, h]

/-! ### `suspend` -/

/-- What `suspend` leaves when it finds the peripheral of `p` enabled (40_lifecycle.md R144), in the reference
settings. -/
def State.suspended (s : State) (p : Port) : State :=
  (((((s.log .sequencer (.periphIsEnabled p true)).modPort p fun e => { e with pe := false }).log
    .sequencer (.periphDisable p)).setWasEnabled p true).jump 4).done

theorem suspended_ifc (s : State) (p : Port) :
    (s.suspended p).ifc = s.ifc.modPort p fun e => { e with pe := false } := rfl

section
variable {s : State} {h : Hdr}

theorem exec_suspend_enabled (start : s.atStart (.suspend h)) (valid : handleFault h = none)
    (ungated : s.build.gatedSafe = false) (on : (s.port (boundPort h)).pe = true) :
    exec (.suspend h) s = .next (s.suspended (boundPort h)) := by
  have query : bodyOf (.suspend h) (s.jump 2) = .run
      ((s.log .sequencer (.periphIsEnabled (boundPort h) true)).jump 3) true := by
    simp [bodyOf, microSuspend, doneUnless, periphIsEnabled_reference, ungated, on]; rfl
  have path := (Does.one query (log_makes (boundPort h) s _)).trans
    (.regWrite _ (.periphDisable _) ungated rfl)
  exact exec_of_leads start valid path.leads rfl (by decide)

/-- When it finds the peripheral disabled, `suspend` ends at its step 2. -/
theorem exec_suspend_disabled (start : s.atStart (.suspend h)) (valid : handleFault h = none)
    (ungated : s.build.gatedSafe = false) (off : (s.port (boundPort h)).pe = false) :
    exec (.suspend h) s = .next
      ((s.log .sequencer (.periphIsEnabled (boundPort h) false)).jump 2).done := by
  refine exec_of_leads start valid (.refl 2 s) ?_ (by decide)
  simp [bodyOf, microSuspend, doneUnless, periphIsEnabled_reference, ungated, off]; rfl

end

/-- Settles O17: by whether the query reads 1. -/
theorem suspendDisablesAndRemembers : Obligations.SuspendDisablesAndRemembers := by
  intro s h start valid ⟨ungated, _⟩ p
  cases on : (s.port p).pe
  · have kept : { s.port p with pe := false } = s.port p := by rw [← on]
    refine ⟨_, exec_suspend_disabled start valid ungated on, ?_⟩
    simp [kept, start.2.1, sequencerEntries, p]
  · refine ⟨_, exec_suspend_enabled start valid ungated on, ?_⟩
    simp [State.suspended, start.2.1, sequencerEntries, p]

/-- Settles O18: the first leaves the peripheral disabled on either path, so the second ends at its query. -/
theorem suspendTwiceDisablesOnce : Obligations.SuspendTwiceDisablesOnce := by
  intro s t h start valid ⟨ungated, _⟩ first
  have ⟨_, live, _, turns⟩ := start
  have again : ∀ a : State, a.blk.fatal = false → a.world.turns = [] → a.build.gatedSafe = false →
      (a.port (boundPort h)).pe = false → exec (.suspend h) (a.accept (encode (.suspend h))) = .next
        (((a.accept (encode (.suspend h))).log .sequencer
          (.periphIsEnabled (boundPort h) false)).jump 2).done :=
    fun a live turns => exec_suspend_disabled (accept_atStart _ live turns) valid
  cases on : (s.port (boundPort h)).pe
  · rw [exec_suspend_disabled start valid ungated on] at first
    cases first
    exact ⟨_, again _ live turns ungated on, rfl, rfl, rfl, rfl, nofun, rfl⟩
  · rw [exec_suspend_enabled start valid ungated on] at first
    cases first
    exact ⟨_, again _ live turns ungated (by simp [State.suspended]), rfl, rfl, rfl, rfl,
      fun _ => by simp [State.suspended], rfl⟩

/-! ### `resume` -/

/-- What `resume` leaves when it finds the flag of `p` set (40_lifecycle.md R145), in the reference
settings. -/
def State.resumed (s : State) (p : Port) : State :=
  ((((s.modPort p fun e => { e with pe := true }).log .sequencer (.periphEnable p)).setWasEnabled p
    false).jump 4).done

theorem resumed_ifc (s : State) (p : Port) :
    (s.resumed p).ifc = s.ifc.modPort p fun e => { e with pe := true } := rfl

section
variable {s : State} {h : Hdr}

theorem exec_resume_flagged (start : s.atStart (.resume h)) (valid : handleFault h = none)
    (ungated : s.build.gatedSafe = false) (flag : (s.drv (boundPort h)).wasEnabled = true) :
    exec (.resume h) s = .next (s.resumed (boundPort h)) := by
  have test : bodyOf (.resume h) (s.jump 2) = .run (s.jump 3) true := by
    simp [bodyOf, microResume, flag]; rfl
  have path := (Leads.one test rfl).trans
    (Does.regWrite _ (.periphEnable (boundPort h)) ungated rfl).leads
  exact exec_of_leads start valid path rfl (by decide)

/-- When it finds the flag clear, `resume` ends at its step 2, in every build. -/
theorem exec_resume_unflagged (start : s.atStart (.resume h)) (valid : handleFault h = none)
    (flag : (s.drv (boundPort h)).wasEnabled = false) :
    exec (.resume h) s = .next (s.jump 2).done := by
  refine exec_of_leads start valid (.refl 2 s) ?_ (by decide)
  simp [bodyOf, microResume, flag]; rfl

end

/-- Settles O19: by the flag. -/
theorem resumeEnablesAndClearsTheFlag : Obligations.ResumeEnablesAndClearsTheFlag := by
  intro s h start valid ⟨ungated, _⟩ p
  cases flag : (s.drv p).wasEnabled
  · have kept : { s.drv p with wasEnabled := false } = s.drv p := by rw [← flag]
    refine ⟨_, exec_resume_unflagged start valid flag, ?_⟩
    simp [kept, start.2.1, sequencerEntries]
  · refine ⟨_, exec_resume_flagged start valid ungated flag, ?_⟩
    simp [State.resumed, start.2.1, sequencerEntries, p]

/-- A property that the check step, every later micro-step and every quiet preemption point keep, a command
whose check passes keeps. -/
theorem exec_keeps {i : Instr} {P : State → Prop} (passes : instrFault i = none)
    (pass : ∀ s, s.seq.upc.step = 1 → P s → P s.advance)
    (body : ∀ s t more, bodyOf i s = .run t more → P s → P t)
    (turns : ∀ s r, P s → P (s.withTurns r)) {s t : State} (h : exec i s = .next t) (hs : P s) : P t :=
  exec_next (R := fun a b => P a → P b) (fun _ => id) (fun f g => g ∘ f)
    (fun _ _ k _ => absurd (passes.symm.trans k) nofun) (fun a _ => pass a)
    (fun a b more _ _ => body a b more) turns h hs

/-- What a later micro-step of `resume` can do: go on with the flag as it was, or end the command with the
flag clear. -/
theorem microResume_flag {p : Port} {s t : State} {more : Bool} (h : microResume p s = .run t more) :
    (t.seq.busy = s.seq.busy ∧ t.drv p = s.drv p) ∨ (t.drv p).wasEnabled = false := by
  unfold microResume at h
  split at h
  · split at h
    · cases h; exact .inl ⟨rfl, rfl⟩
    · next clear => cases h; exact .inr (by simpa using clear)
  · have q := periphEnable_issues s p
    cases h
    exact .inl ⟨by simp [q.seq], q.drv p⟩
  · cases h; exact .inr (by simp)
  · cases h

/-- No later than the test of step 2, with the flag clear, a micro-step of `resume` can only end the command
there. -/
theorem microResume_unflagged {p : Port} {s t : State} {more : Bool}
    (h : microResume p s = .run t more) (early : s.seq.upc.step ≤ 2)
    (clear : (s.drv p).wasEnabled = false) : s.seq.upc.step = 2 ∧ t = s.done := by
  unfold microResume at h
  split at h
  · next two => rw [clear] at h; exact ⟨two, (done_run h).1⟩
  · omega
  · omega
  · cases h

/-- A `resume` that has found the flag clear, before its step 3: it has issued nothing, and it ends at step
2. -/
structure Unflagged (p : Port) (s t : State) : Prop where
  ifc : t.ifc = s.ifc
  trc : t.trc = s.trc
  flag : (t.drv p).wasEnabled = false
  early : t.seq.upc.step ≤ 2
  ended : t.seq.busy = false → t.seq.upc.step = 2

/-- Settles O20. The flag of an ended `resume` is clear, since it ends at the test of step 2 or by clearing
it; and with the flag clear from the start no micro-step comes after the test. -/
theorem completedResumeLeavesTheFlagClear : Obligations.CompletedResumeLeavesTheFlagClear := by
  intro s t h valid busy run idle
  have passes : instrFault (.resume h) = none := valid
  have running : s.seq.busy ≠ false := by simp [busy]
  refine ⟨?_, fun early clear => ?_⟩
  · refine exec_keeps (P := fun a => a.seq.busy = false → (a.drv (boundPort h)).wasEnabled = false)
      passes (fun _ _ => id) (fun a b more m ended done => ?_) (fun _ _ => id) run
      (fun done => absurd done running) idle
    obtain ⟨same, drv⟩ | cleared := microResume_flag m
    · rw [drv]; exact ended (same ▸ done)
    · exact cleared
  · have kept : Unflagged (boundPort h) s t := by
      refine exec_keeps (P := Unflagged (boundPort h) s) passes (fun a one inv => ?_)
        (fun a b more m inv => ?_) (fun a r inv => ⟨inv.ifc, inv.trc, inv.flag, inv.early, inv.ended⟩)
        run ⟨rfl, rfl, clear, early, fun done => absurd done running⟩
      · exact ⟨inv.ifc, inv.trc, inv.flag, by simp [one], fun _ => by simp [one]⟩
      · obtain ⟨two, rfl⟩ := microResume_unflagged m inv.early inv.flag
        exact ⟨inv.ifc, inv.trc, inv.flag, inv.early, fun _ => two⟩
    exact ⟨kept.ifc, kept.trc, kept.ended idle⟩

/-! ### `suspend`, then `resume` -/

/-- Settles O21: `suspend` sets the flag, so `resume` enables what `suspend` disabled. -/
theorem suspendThenResumeRestores : Obligations.SuspendThenResumeRestores := by
  intro s h start valid ⟨ungated, _⟩ on
  have ⟨_, live, _, turns⟩ := start
  refine ⟨s.suspended (boundPort h), _, exec_suspend_enabled start valid ungated on,
    exec_resume_flagged (accept_atStart (.resume h) live turns) valid ungated
      (by simp [State.suspended]), ?ifc, rfl, by simp [State.suspended, State.resumed],
    by simp [State.suspended, State.resumed], fun clear => ?blk,
    by simp [State.suspended, State.resumed, sequencerEntries]⟩
  case ifc =>
    rw [resumed_ifc, State.accept_ifc, suspended_ifc, Iface.modPort_modPort]
    refine Iface.modPort_of_fixed ?_
    change { s.port (boundPort h) with pe := true } = s.port (boundPort h)
    rw [← on]
  case blk =>
    have kept : { s.drv (boundPort h) with wasEnabled := false } = s.drv (boundPort h) := by
      rw [← clear]
    simp only [State.drv] at kept
    simp [State.suspended, State.resumed, kept]

end Sys2Proof.Machine
end

section
/-!
`deinit` (40_lifecycle.md R143): the inlined null registration, the two switches that are taken only where
their query reads 1, and the pins.
-/

namespace Sys2Proof.Machine

/-- A recorded write taken only where `b` is 1, when elsewhere the field it writes already holds the value. -/
theorem writeWhere_makes {p : Port} {s : State} (g : PortEnv → PortEnv) (b : Bool) (x : Prim)
    (held : b = false → g (s.port p) = s.port p) :
    Makes p { prims := if b then [x] else [], port := g } s
      (if b then (s.modPort p g).log .sequencer x else s) := by
  cases b
  · have kept : s.modPort p g = s := by simp [State.modPort, Iface.modPort_of_fixed (held rfl)]
    simpa [kept] using modPort_makes p s g
  · exact write_makes p s g x

section
variable {s : State} (h : Hdr)

/-- Steps 2 to 5: the null registration (43_receive.md R216). -/
theorem deinit_unregisters (ungated : s.build.gatedSafe = false) :
    let p := boundPort h
    ∃ t, Does (.deinit h) p 2 s 6 t
      { prims := [.rxneIrqDisable p, .vecDetach p]
        port := fun e => { e with rxneIe := false, vec := .detached }
        drv := fun d => { d with cb := 0, ctx := 0 } } := by
  intro p
  have mask : Does (.deinit h) p 2 s 3 _ _ :=
    .regWrite (fun e => { e with rxneIe := false }) (.rxneIrqDisable p) ungated rfl
  have detach := mask.trans (.write (fun e => { e with vec := .detached }) (.vecDetach p) rfl)
  have clearCb := detach.trans (.next (modDrv_makes p _ fun d => { d with cb := 0 }) rfl)
  have clearCtx := clearCb.trans (.next (modDrv_makes p _ fun d => { d with ctx := 0 }) rfl)
  exact ⟨_, clearCtx⟩

/-- Steps 6 and 7: the bus clock is switched off where it is found on. -/
theorem deinit_stops_bus {b : Bool} (bus : (s.port (boundPort h)).busclk = b) :
    let p := boundPort h
    ∃ t, Does (.deinit h) p 6 s 8 t
      { prims := .busIsEnabled p b :: if b then [.busDisable p] else []
        port := fun e => { e with busclk := false } } := by
  intro p
  have query : Does (.deinit h) p 6 s 7 _ _ :=
    .next ((log_makes p s (.busIsEnabled p b)).modSeq fun q => { q with loc := { q.loc with g := b } })
      (by rw [← bus]; rfl)
  refine ⟨_, query.trans (.next
    (writeWhere_makes (fun e => { e with busclk := false }) b (.busDisable p) fun off => ?_) ?_)⟩
  · change { s.port p with busclk := false } = s.port p
    rw [← off, ← bus]
  · cases b <;> rfl

/-- Steps 8 and 9: the peripheral is disabled where it is found enabled. -/
theorem deinit_stops_periph {b : Bool} (ungated : s.build.gatedSafe = false)
    (on : (s.port (boundPort h)).pe = b) :
    let p := boundPort h
    ∃ t, Does (.deinit h) p 8 s 10 t
      { prims := .periphIsEnabled p b :: if b then [.periphDisable p] else []
        port := fun e => { e with pe := false } } := by
  intro p
  have query : Does (.deinit h) p 8 s 9 _ _ :=
    .next ((log_makes p s (.periphIsEnabled p b)).modSeq fun q => { q with loc := { q.loc with e := b } })
      (by
        change keepQuery (State.periphIsEnabled (s.jump 8) p) _ = _
        rw [periphIsEnabled_reference (s := s.jump 8) ungated, ← on]; rfl)
  refine ⟨_, query.trans (.next
    (writeWhere_makes (fun e => { e with pe := false }) b (.periphDisable p) fun off => ?_) ?_)⟩
  · change { s.port p with pe := false } = s.port p
    rw [← off, ← on]
  · cases b
    · rfl
    · exact congrArg Micro.next (periphDisable_reference (by exact ungated) p)

end

/-- Settles O16: the changes of the three stretches, and then of the two pins and the ghost bit. -/
theorem deinitTearsThePortDown : Obligations.DeinitTearsThePortDown := by
  intro s h start valid ⟨ungated, _⟩ p
  obtain ⟨a, unregister⟩ := deinit_unregisters h ungated
  obtain ⟨b, stopBus⟩ := deinit_stops_bus (b := (s.port p).busclk) h (by rw [unregister.makes.port])
  have upToBus := unregister.trans stopBus
  obtain ⟨c, stopPeriph⟩ := deinit_stops_periph (b := (s.port p).pe) h
    (by rw [upToBus.makes.build]; exact ungated) (by rw [upToBus.makes.port]; rfl)
  have parkTx := (upToBus.trans stopPeriph).trans
    (.write (fun e => { e with pins := e.pins.set .tx .analog }) _ rfl)
  obtain ⟨u, run, idle, made⟩ := exec_of_does start valid parkTx rfl
    ((write_makes p _ (fun e => { e with pins := e.pins.set .rx .analog }) _).trans
      (modDrv_makes p _ fun d => { d with deinited := true }))
  have ⟨_, live, _⟩ := start
  refine ⟨u, run, idle, made.fatal.trans live, made.port, made.drv, made.port_other, made.drv_other,
    made.asyncMode, made.txlog, made.cblog, ?_⟩
  simpa [Change.andThen] using made.primlog

end Sys2Proof.Machine
end

section
/-!
A baud change (41_baud.md R171), steps 2 to 8, which `init` inlines (30_encoding.md R125), in the reference
settings.
-/

namespace Sys2Proof.Machine

/-! ### Draws -/

/-- A wait whose flag reads 1 spends the answer, records the poll and completes (20_memory.md R78). -/
theorem waitFlag_set {s : State} {rest : List Bool} (h : s.world.polls = true :: rest)
    (f : Config.PollFlag) (p : Port) (onSet : State → State) (more : Bool) :
    waitFlag f p onSet more s =
      .run (onSet ((s.withPolls rest).log .sequencer (pollPrim f p true))) more := by
  rw [waitFlag, drawBit_listed h]; rfl

theorem withPolls_makes (p : Port) {s : State} {n : Nat} {rest : List Bool}
    (h : s.world.polls.drop n = rest) : Makes p { polls := n } s (s.withPolls rest) :=
  { Makes.refl p s with polls := h.symm }

theorem drawFreq_jump (s : State) (p : Port) (k : Nat) : (s.jump k).drawFreq p =
    ⟨(s.drawFreq p).freq, (s.drawFreq p).state.jump k⟩ := by
  cases constant : s.build.fClk.get p with
  | some f => simp only [State.drawFreq, State.jump_build, constant]
  | none =>
    cases listed : s.world.freqs <;>
      simp only [State.drawFreq, State.jump_build, State.jump_world, constant, listed] <;> rfl

/-- What is said of the read depends on the build and the listed frequencies only. -/
theorem FreqGiven.of_same {s t : State} {p : Port} {f : Word} (given : FreqGiven t p f)
    (build : t.build = s.build) (freqs : t.world.freqs = s.world.freqs) : FreqGiven s p f := by
  obtain ⟨constant, listed⟩ := given
  rw [build] at constant listed
  rw [freqs] at listed
  exact ⟨constant, listed⟩

/-- The frequency read is what the build or the environment says, where either does (R82). -/
theorem drawFreq_given (s : State) (p : Port) : FreqGiven s p (s.drawFreq p).freq where
  constant c h := by simp [State.drawFreq, h]
  listed none c r h := by simp [State.drawFreq, none, h]

theorem drawFreq_makes (s : State) (p : Port) : Makes p {} s (s.drawFreq p).state := by
  unfold State.drawFreq
  split
  · exact .refl p s
  · exact { Makes.refl p s with }
  · exact (Makes.refl p s).tick

/-! ### The steps -/

/-- Steps `off + 2` to `off + 8` of `i` are the steps 2 to 8 of a baud change of port `p`. -/
def ChangesBaud (i : Instr) (p : Port) (baud : Word) (off : Nat) : Prop :=
  ∃ skip fin goOn, ∀ (a : State) (k : Nat), 2 ≤ k → k ≤ 8 →
    bodyOf i (a.jump (off + k)) = baudSteps p baud skip fin goOn k (a.jump (off + k))

section
variable {i : Instr} {p : Port} {baud : Word} {off : Nat} {s : State}

/-- Steps 2 to 4: the port is enabled, TC reads 1, and the peripheral is disabled. -/
theorem baudChange_disables (inlines : ChangesBaud i p baud off) (ungated : s.build.gatedSafe = false)
    (on : (s.port p).pe = true) {rest : List Bool} (polls : s.world.polls = true :: rest) :
    ∃ t, Does i p (off + 2) s (off + 5) t
      { prims := [.periphIsEnabled p true, .flagTC p true, .periphDisable p]
        port := fun e => { e with pe := false }
        polls := 1 } ∧ t.world.freqs = s.world.freqs := by
  obtain ⟨skip, fin, goOn, body⟩ := inlines
  have query : Does i p (off + 2) s (off + 3) _ _ :=
    .next (log_makes p s (.periphIsEnabled p true)) (by
      rw [body s 2 (by decide) (by decide), baudSteps,
        periphIsEnabled_reference (s := s.jump (off + 2)) ungated]
      simp [on]; rfl)
  have spent := withPolls_makes p (n := 1) (s := s.log .sequencer (.periphIsEnabled p true))
    (congrArg (List.drop 1) polls)
  have wait := query.trans (.next (spent.trans (log_makes p _ (.flagTC p true))) (by
    rw [body _ 3 (by decide) (by decide), baudSteps, waitFlag_set (by exact polls)]; rfl))
  have disable := wait.trans (.regWrite (fun e => { e with pe := false }) (.periphDisable p) ungated
    (body _ 4 (by decide) (by decide)))
  exact ⟨_, disable, rfl⟩

/-- Step 5: the frequency is read and kept. -/
theorem baudChange_reads (inlines : ChangesBaud i p baud off) :
    ∃ t, Does i p (off + 5) s (off + 6) t { prims := [.clkFreq p t.seq.loc.f] } ∧
      FreqGiven s p t.seq.loc.f := by
  obtain ⟨skip, fin, goOn, body⟩ := inlines
  have read : Does i p (off + 5) s (off + 6) _ _ :=
    .next (((drawFreq_makes s p).trans (log_makes p _ (.clkFreq p (s.drawFreq p).freq))).modSeq
      fun q => { q with loc := { q.loc with f := (s.drawFreq p).freq } }) (by
      rw [body s 5 (by decide) (by decide), baudSteps, freqStep, State.clkFreq, drawFreq_jump]; rfl)
  exact ⟨_, read, drawFreq_given s p⟩

/-- Step 6: prescaler and divisor are calculated from the frequency held, and kept (41_baud.md R172). -/
theorem baudChange_calculates (inlines : ChangesBaud i p baud off) (nonzero : baud ≠ 0) :
    ∃ t, Does i p (off + 6) s (off + 7) t {} ∧
      t.seq.loc.presc = prescalerFor p s.seq.loc.f.toNat baud.toNat ∧
      DivisorGiven p s.seq.loc.f baud t.seq.loc.div := by
  obtain ⟨skip, fin, goOn, body⟩ := inlines
  obtain ⟨v, result, given⟩ := baudCalc_given p s.seq.loc.f (Config.freeWord (.divisor p) s.draws) nonzero
  have calculate : Does i p (off + 6) s (off + 7) _ _ :=
    .next (((Makes.refl p s).modSeq fun q =>
      { q with loc :=
        { q.loc with presc := prescalerFor p s.seq.loc.f.toNat baud.toNat, div := v } }).tick) (by
      simp only [body s 6 (by decide) (by decide), baudSteps, calcStep, State.jump_seq, State.jump_draws,
        result]
      rfl)
  exact ⟨_, calculate, rfl, given⟩

/-- Steps 7 and 8: the Lpuart's prescaler, and the divisor, as they are held. -/
theorem baudChange_programs (inlines : ChangesBaud i p baud off) (ungated : s.build.gatedSafe = false) :
    ∃ t, Does i p (off + 7) s (off + 9) t
      { prims := (if p = .lpuart then [.setPrescaler p s.seq.loc.presc] else []) ++
          [.setDivisor p s.seq.loc.div]
        port := fun e =>
          { e with
            presc := if p = .lpuart then s.seq.loc.presc else e.presc
            div := s.seq.loc.div } } := by
  obtain ⟨skip, fin, goOn, body⟩ := inlines
  have divide : ∀ a : State, a.seq.loc = s.seq.loc → a.build.gatedSafe = false →
      Does i p (off + 8) a (off + 9) _ _ := fun a same ungated =>
    .regWrite (fun e => { e with div := s.seq.loc.div }) (.setDivisor p s.seq.loc.div) ungated (by
      rw [body a 8 (by decide) (by decide), baudSteps, State.jump_seq, same]; rfl)
  cases p
  · have skipped : Does i .usart (off + 7) s (off + 8) s {} :=
      .next (.refl .usart s) (body s 7 (by decide) (by decide))
    exact ⟨_, skipped.trans (divide s rfl ungated)⟩
  · have prescale : Does i .lpuart (off + 7) s (off + 8) _ _ :=
      .regWrite (fun e => { e with presc := s.seq.loc.presc }) (.setPrescaler .lpuart s.seq.loc.presc)
        ungated (body s 7 (by decide) (by decide))
    exact ⟨_, prescale.trans (divide _ rfl ungated)⟩

/-- Steps 2 to 8 of a baud change: the peripheral stays disabled for step 9. -/
theorem baudChange_does (inlines : ChangesBaud i p baud off) (nonzero : baud ≠ 0)
    (ungated : s.build.gatedSafe = false) (on : (s.port p).pe = true) {rest : List Bool}
    (polls : s.world.polls = true :: rest) :
    ∃ t f v, FreqGiven s p f ∧ DivisorGiven p f baud v ∧ Does i p (off + 2) s (off + 9) t
      { prims := [.periphIsEnabled p true, .flagTC p true, .periphDisable p, .clkFreq p f] ++
          (if p = .lpuart then [.setPrescaler p (prescalerFor p f.toNat baud.toNat)] else []) ++
          [.setDivisor p v]
        port := fun e =>
          { e with
            pe := false
            presc := if p = .lpuart then prescalerFor p f.toNat baud.toNat else e.presc
            div := v }
        polls := 1 } := by
  obtain ⟨a, disable, freqs⟩ := baudChange_disables inlines ungated on polls
  obtain ⟨b, read, freq⟩ := baudChange_reads (s := a) inlines
  obtain ⟨c, calculate, presc, div⟩ := baudChange_calculates (s := b) inlines nonzero
  have upToCalc := (disable.trans read).trans calculate
  obtain ⟨d, program⟩ := baudChange_programs (s := c) inlines (by rw [upToCalc.makes.build, ungated])
  rw [presc] at program
  exact ⟨d, b.seq.loc.f, c.seq.loc.div, freq.of_same disable.makes.build freqs, div,
    upToCalc.trans program⟩

end

end Sys2Proof.Machine
end

section
/-!
`init` (40_lifecycle.md R141): the port is brought up and acknowledged, its baud rate is changed, and the
error interrupt is masked.
-/

namespace Sys2Proof.Machine

/-- Steps 11 to 17 of `init` are steps 2 to 8 of a baud change (30_encoding.md R125). -/
theorem init_changesBaud (h : Hdr) (baud : Word) : ChangesBaud (.init h baud) (boundPort h) baud 9 :=
  ⟨(·.jump 19), State.advance, true, fun a k lo hi => by interval_cases k <;> rfl⟩

/-- A wait for both acknowledge flags when they read 1 (20_memory.md R78). -/
theorem waitAck_set {s : State} {rest : List Bool} (h : s.world.polls = true :: true :: rest) (p : Port) :
    waitAck p s = .next (((s.withPolls rest).log .sequencer (.flagTEACK p true)).log .sequencer
      (.flagREACK p true)) := by
  rw [waitAck, drawBit_listed h, drawBit_listed rfl]; rfl

section
variable {s : State} (h : Hdr) (baud : Word)

/-- Steps 2 to 7: clocks, pins, frame and FIFO. -/
theorem init_configures (ref : s.reference) :
    let p := boundPort h
    let af := (Config.descOf p).af
    ∃ t, Does (.init h baud) p 2 s 8 t
      { prims := [.busEnable p, .clkSrcSelect p, .pinCfgAF ((Config.descOf p).pin.get .tx) af,
          .pinCfgAF ((Config.descOf p).pin.get .rx) af, .periphConfig p, .fifoEnable p]
        port := fun e =>
          { e with
            busclk := true, clksel := true, pins := ⟨.altFn af, .altFn af⟩, frame := true
            dirEn := ⟨true, true⟩, fifoEn := true } } ∧ t.world.freqs = s.world.freqs := by
  intro p af
  obtain ⟨ungated, uncautious⟩ := ref
  have bus : Does (.init h baud) p 2 s 3 _ _ :=
    .write (fun e => { e with busclk := true }) (.busEnable p) rfl
  have clock := bus.trans (.write (fun e => { e with clksel := true }) (.clkSrcSelect p) rfl)
  have pinTx := clock.trans (.write (fun e => { e with pins := e.pins.set .tx (.altFn af) }) _ rfl)
  have pinRx := pinTx.trans (.write (fun e => { e with pins := e.pins.set .rx (.altFn af) }) _ rfl)
  have frame := pinRx.trans (.next
    ((modPort_makes p _ fun e => { e with frame := true, dirEn := ⟨true, true⟩ }).tick.trans
      (log_makes p _ (.periphConfig p)))
    (congrArg Micro.next (periphConfig_reference (by exact ungated) (by exact uncautious) p)))
  have fifo := frame.trans (.next
    ((modPort_makes p _ fun e => { e with fifoEn := true }).tick.trans (log_makes p _ (.fifoEnable p)))
    (congrArg Micro.next (fifoEnable_reference (by exact ungated) (by exact uncautious) p)))
  exact ⟨_, fifo, rfl⟩

/-- Step 8: the Usart's asynchronous mode. -/
theorem init_setsAsyncMode (ref : s.reference) :
    let p := boundPort h
    ∃ t, Does (.init h baud) p 8 s 9 t
      { prims := if p = .usart then [.asyncMode p] else []
        async := fun a => if p = .usart then true else a } ∧ t.world.freqs = s.world.freqs := by
  intro p
  obtain ⟨ungated, uncautious⟩ := ref
  have step : bodyOf (.init h baud) (s.jump 8) = asyncStep p (s.jump 8) := rfl
  clear_value p
  cases p
  · have write := step.trans
      (congrArg Micro.next (asyncModeUsart_reference (s := s.jump 8) ungated uncautious))
    exact ⟨_, .next ((asyncMode_makes .usart s).tick.trans (log_makes .usart _ (.asyncMode .usart)))
      write, rfl⟩
  · exact ⟨s, .next (.refl .lpuart s) step, rfl⟩

/-- Steps 9 and 10: the peripheral is enabled and acknowledges. -/
theorem init_enables (ungated : s.build.gatedSafe = false) {rest : List Bool}
    (polls : s.world.polls = true :: true :: rest) :
    let p := boundPort h
    ∃ t, Does (.init h baud) p 9 s 11 t
      { prims := [.periphEnable p, .flagTEACK p true, .flagREACK p true]
        port := fun e => { e with pe := true }
        polls := 2 } ∧ t.world.freqs = s.world.freqs := by
  intro p
  have enable : Does (.init h baud) p 9 s 10 _ _ :=
    .regWrite (fun e => { e with pe := true }) (.periphEnable p) ungated rfl
  have spent := withPolls_makes p (n := 2) (s := (s.modPort p fun e => { e with pe := true }).log
    .sequencer (.periphEnable p)) (congrArg (List.drop 2) polls)
  have wait := enable.trans (.next ((spent.trans (log_makes p _ (.flagTEACK p true))).trans
    (log_makes p _ (.flagREACK p true))) (waitAck_set (by exact polls) p))
  exact ⟨_, wait, rfl⟩

/-- Steps 2 to 10, in that order. -/
theorem init_bringsUp (ref : s.reference) {rest : List Bool}
    (polls : s.world.polls = true :: true :: rest) :
    let p := boundPort h
    let af := (Config.descOf p).af
    ∃ t, Does (.init h baud) p 2 s 11 t
      { prims := [.busEnable p, .clkSrcSelect p, .pinCfgAF ((Config.descOf p).pin.get .tx) af,
          .pinCfgAF ((Config.descOf p).pin.get .rx) af, .periphConfig p, .fifoEnable p] ++
          (if p = .usart then [.asyncMode p] else []) ++
          [.periphEnable p, .flagTEACK p true, .flagREACK p true]
        port := fun e =>
          { e with
            busclk := true, clksel := true, pins := ⟨.altFn af, .altFn af⟩, frame := true
            dirEn := ⟨true, true⟩, fifoEn := true, pe := true }
        async := fun a => if p = .usart then true else a
        polls := 2 } ∧ t.world.freqs = s.world.freqs := by
  obtain ⟨a, configure, freqsA⟩ := init_configures h baud ref
  obtain ⟨b, async, freqsB⟩ := init_setsAsyncMode (s := a) h baud
    (by rw [State.reference, configure.makes.build]; exact ref)
  have upToAsync := configure.trans async
  obtain ⟨c, enable, freqsC⟩ := init_enables (s := b) h baud
    (by rw [upToAsync.makes.build]; exact ref.1) (by rw [upToAsync.makes.polls]; exact polls)
  exact ⟨c, upToAsync.trans enable, freqsC.trans (freqsB.trans freqsA)⟩

end

/-- Settles O15: the port is brought up, its baud rate is changed, and the last two steps enable it again and
mask the error interrupt. -/
theorem initBringsThePortUp : Obligations.InitBringsThePortUp := by
  intro s h baud rest start valid ref nonzero polls p af
  obtain ⟨a, up, freqs⟩ := init_bringsUp h baud ref polls
  obtain ⟨b, f, v, given, divisor, change⟩ := baudChange_does (s := a) (init_changesBaud h baud) nonzero
    (by rw [up.makes.build]; exact ref.1) (by rw [up.makes.port]) (by rw [up.makes.polls, polls]; rfl)
  have changed := up.trans change
  have ungated : b.build.gatedSafe = false := by rw [changed.makes.build]; exact ref.1
  have enabled := changed.trans (.regWrite (fun e => { e with pe := true }) (.periphEnable p) ungated rfl)
  obtain ⟨u, run, idle, made⟩ := exec_of_does start valid enabled
    (congrArg Micro.done (errIrqDisable_reference (by exact ungated) p))
    (write_makes p _ (fun e => { e with errIe := false }) (.errIrqDisable p))
  refine ⟨u, f, v, run, given.of_same up.makes.build freqs, divisor, idle, made.blk_of_drv_id rfl, ?_,
    made.port, made.port_other, made.asyncMode, made.txlog, made.cblog, ?_⟩
  · rw [made.polls, polls]; rfl
  · simpa [Change.andThen] using made.primlog

end Sys2Proof.Machine
end

section
/-!
The transition table of the lifecycle commands (40_lifecycle.md R160, R162): each command sets some of the
four bits that `Life` is computed from, and the table is what follows.
-/

namespace Sys2Proof.Machine

/-- `Life` after a lifecycle command that completes, from the bus clock, the enable, the flag and the ghost
bit before it (R141, R143 to R145). -/
def lifeFrom : LifeCmd → (busclk pe wasEnabled deinited : Bool) → Life
  | .init, _, _, w, d => lifeOf true true w d
  | .deinit, _, _, w, _ => lifeOf false false w true
  | .suspend, b, e, w, d => lifeOf b false (e || w) d
  | .resume, b, e, w, d => lifeOf b (w || e) false d

/-- The table of R162 says the same, wherever it has a row. -/
theorem lifeAfter_eq_lifeFrom (c : LifeCmd) (b e w d : Bool) :
    lifeAfter c (lifeOf b e w d) = none ∨ lifeAfter c (lifeOf b e w d) = some (lifeFrom c b e w d) := by
  revert b e w d
  cases c <;> decide

/-- `Life` of a port depends on its fields and its DriverState only. -/
theorem life_congr {s t : State} {p : Port} (port : t.port p = s.port p) (drv : t.drv p = s.drv p) :
    t.life p = s.life p := by rw [State.life, State.life, port, drv]

/-- What each lifecycle command does to `Life` of its port. -/
theorem lifeCmd_completes {c : LifeCmd} {s : State} {h : Hdr} {baud : Word} {rest : List Bool}
    (start : s.atStart (c.instr h baud)) (valid : handleFault h = none) (ref : s.reference)
    (nonzero : baud ≠ 0) (polls : s.world.polls = true :: true :: true :: rest) :
    let p := boundPort h
    ∃ t, exec (c.instr h baud) s = .next t ∧ t.seq.busy = false ∧
      t.life p = lifeFrom c (s.port p).busclk (s.port p).pe (s.drv p).wasEnabled (s.drv p).deinited ∧
      t.life p.other = s.life p.other ∧ (c = .deinit → (t.drv p).deinited = true) := by
  intro p
  cases c
  case init =>
    obtain ⟨t, f, v, run, -, -, idle, blk, -, port, other, -⟩ :=
      initBringsThePortUp s h baud rest start valid ref nonzero polls
    have drv : ∀ q, t.drv q = s.drv q := fun q => by rw [State.drv, blk]; rfl
    exact ⟨t, run, idle, by rw [State.life, port, drv]; rfl, life_congr other (drv _), nofun⟩
  case deinit =>
    obtain ⟨t, run, idle, -, port, drv, portOther, drvOther, -⟩ :=
      deinitTearsThePortDown s h start valid ref
    exact ⟨t, run, idle, by rw [State.life, port, drv]; rfl, life_congr portOther drvOther,
      fun _ => by rw [drv]⟩
  case suspend =>
    obtain ⟨t, run, idle, -, port, drv, portOther, drvOther, -⟩ :=
      suspendDisablesAndRemembers s h start valid ref
    refine ⟨t, run, idle, ?_, life_congr portOther drvOther, nofun⟩
    rw [State.life, port, drv]
    cases on : (s.port p).pe <;> simp [lifeFrom, p]
  case resume =>
    obtain ⟨t, run, idle, -, port, drv, portOther, drvOther, -⟩ :=
      resumeEnablesAndClearsTheFlag s h start valid ref
    refine ⟨t, run, idle, ?_, life_congr portOther drvOther, nofun⟩
    rw [State.life, port, drv]
    cases flag : (s.drv p).wasEnabled <;> simp [lifeFrom, p]

/-- Settles O22: what the commands do, read through the table. -/
theorem lifecycleTransitionTable : Obligations.LifecycleTransitionTable := by
  intro c s h baud rest l start valid ref nonzero polls entry
  obtain ⟨t, run, idle, life, other, ghost⟩ := lifeCmd_completes start valid ref nonzero polls
  refine ⟨t, run, idle, ?_, other, ghost⟩
  rcases lifeAfter_eq_lifeFrom c (s.port (boundPort h)).busclk (s.port (boundPort h)).pe
    (s.drv (boundPort h)).wasEnabled (s.drv (boundPort h)).deinited with row | row
  · exact absurd (row.symm.trans entry) nofun
  · rw [life]; exact Option.some.inj (row.symm.trans entry)

end Sys2Proof.Machine
end

section
/-!
The other commands and `Life` (40_lifecycle.md R161): only a baud change writes one of the four bits `Life` is
computed from, the enable, and it gives back what it found (41_baud.md R171); what the other agents do touches
none of them.
-/

namespace Sys2Proof.Machine

/-! ### The other agents -/

/-- A primitive of the port that keeps a field of its own port keeps it of every port. -/
theorem Issues.field {α : Type} {F : PortEnv → α} {w : Issuer} {x : List Prim} {p : Port}
    {g : PortEnv → PortEnv} {s t : State} (h : Issues w x (·.modPort p g) s t)
    (keeps : ∀ e, F (g e) = F e) (q : Port) : F (t.port q) = F (s.port q) := by
  obtain rfl | rfl := Port.eq_or_other p q
  · rcases h.own with e | e <;> rw [e]
    exact keeps _
  · rw [h.others.1]

/-- A part of a port's fields that says nothing of the receive side (20_memory.md R93, R94). -/
def ControlOnly {α : Type} (F : PortEnv → α) : Prop :=
  ∀ e rxne ore rdr, F { e with rxne := rxne, ore := ore, rdr := rdr } = F e

section
variable {α : Type} {F : PortEnv → α} (control : ControlOnly F) {p : Port} {s t : State}
include control

theorem arrive_control (s : State) (b : Byte) (q : Port) : F ((s.arrive p b).port q) = F (s.port q) := by
  obtain rfl | rfl := Port.eq_or_other p q
  · rw [State.arrive, State.modPort_port]
    split
    · exact control _ _ _ _
    · exact control _ _ _ _
  · rw [arrive_port_other]

/-- A handler writes nothing but its port's receive side (43_receive.md R218). -/
theorem handler_control (h : handler p s = .next t) (q : Port) : F (t.port q) = F (s.port q) := by
  have polled : ∀ a : State, F ((a.flagRxne p).state.port q) = F (a.port q) := fun a => by
    simp only [State.port, (flagRxne_issues a p).query]
  have polledOre : ∀ a : State, F ((a.flagOre p).state.port q) = F (a.port q) := fun a => by
    simp only [State.port, (flagOre_issues a p).query]
  refine Eq.trans ?_ (polled s)
  unfold handler at h
  dsimp only at h
  split at h
  · unfold handlerDeliver at h
    split at h
    · cases h
    · cases h; exact (readData_issues _ p).field (fun e => control e _ _ _) q
  · cases h
    unfold handlerOverrun
    dsimp only
    split
    · exact ((clearOre_issues _ p).field (fun e => control e _ _ _) q).trans (polledOre _)
    · exact polledOre _

end

/-! ### A baud change in flight -/

/-- The enable of port `q` as it stands between commands, with `i` in flight. -/
def restingWith (i : Instr) (s : State) (q : Port) : Bool :=
  match i with
  | .setBaudRate h _ =>
    if boundPort h = q ∧ 3 ≤ s.seq.upc.step ∧ s.seq.upc.step ≤ 9 then true else (s.port q).pe
  | _ => (s.port q).pe

theorem restingPe_of_inFlight {s : State} {i : Instr} (h : s.inFlight = some i) (q : Port) :
    s.restingPe q = restingWith i s q := by
  rw [State.restingPe, h]; cases i <;> rfl

theorem restingPe_of_none {s : State} (h : s.inFlight = none) (q : Port) :
    s.restingPe q = (s.port q).pe := by
  rw [State.restingPe, h]

/-- No baud change has found anything before its step 3. -/
theorem restingWith_of_start (i : Instr) {s : State} (early : s.seq.upc.step ≤ 2) (q : Port) :
    restingWith i s q = (s.port q).pe := by
  cases i
  case setBaudRate => exact if_neg fun ⟨_, le, _⟩ => by omega
  all_goals rfl

theorem restingWith_of_op {i : Instr} (h : i.op ≠ .setBaudRate) (s : State) (q : Port) :
    restingWith i s q = (s.port q).pe := by
  cases i
  case setBaudRate => exact absurd rfl h
  all_goals rfl

/-- What a later micro-step of a baud change can do with the enable of its port (41_baud.md R171): find it 1
and go on; go on between finding and giving back; end at the query, which found it 0; or end by giving it
back. -/
inductive BaudMove (p : Port) (s t : State) (more : Bool) : Prop
  | finds (before : s.seq.upc.step = 2) (on : (s.port p).pe = true) (after : t.seq.upc.step = 3)
      (busy : t.seq.busy = s.seq.busy)
  | holds (before : 3 ≤ s.seq.upc.step ∧ s.seq.upc.step ≤ 8)
      (after : 3 ≤ t.seq.upc.step ∧ t.seq.upc.step ≤ 9) (busy : t.seq.busy = s.seq.busy)
  | skips (before : s.seq.upc.step = 2) (after : t.seq.upc.step = 2)
      (same : (t.port p).pe = (s.port p).pe) (last : more = false)
  | givesBack (before : s.seq.upc.step = 9) (after : t.seq.upc.step = 9) (on : (t.port p).pe = true)
      (last : more = false)

theorem microSetBaudRate_move {p : Port} {baud : Word} {s t : State} {more : Bool}
    (ungated : s.build.gatedSafe = false) (h : microSetBaudRate baud p s = .run t more) :
    BaudMove p s t more := by
  unfold microSetBaudRate baudSteps at h
  have holds : ∀ a, a.seq.upc = s.seq.upc → a.seq.busy = s.seq.busy → 3 ≤ s.seq.upc.step →
      s.seq.upc.step ≤ 8 → Micro.next a = .run t more → BaudMove p s t more := by
    intro a upc busy lo hi m
    rw [(next_run m).1]
    exact .holds ⟨lo, hi⟩ (by simp [upc]; omega) busy
  split at h
  · next k =>
    rw [periphIsEnabled_reference ungated] at h
    cases on : (s.port p).pe <;> simp [on] at h
    · obtain ⟨rfl, rfl⟩ := h
      exact .skips k (by simp [k]) rfl rfl
    · obtain ⟨rfl, rfl⟩ := h
      exact .finds k on (by simp [k]) rfl
  · next k =>
    obtain ⟨d, keeps, rfl | ⟨rfl, -⟩⟩ := waitFlag_run h
    · exact .holds (by omega) (by simp [keeps.seq, k]) (by simp [keeps.seq])
    · exact .holds (by omega) (by simp [keeps.seq, k]) (by simp [keeps.seq])
  · next k =>
    have seq := (periphDisable_issues s p).seq
    exact holds _ (by rw [seq]) (by rw [seq]) (by omega) (by omega) h
  · next k =>
    have seq := (clkFreq_issues s p).seq
    exact holds _ (by simp [seq]) (by simp [seq]) (by omega) (by omega) h
  · next k =>
    obtain ⟨v, -, -, rfl⟩ := calcStep_run h
    exact .holds (by omega) (by simp [k]) rfl
  · next k =>
    unfold prescStep at h
    split at h
    · exact holds _ rfl rfl (by omega) (by omega) h
    · have seq := (setPrescaler_issues s .lpuart s.seq.loc.presc).seq
      exact holds _ (by rw [seq]) (by rw [seq]) (by omega) (by omega) h
  · next k =>
    have seq := (setDivisor_issues s p s.seq.loc.div).seq
    exact holds _ (by rw [seq]) (by rw [seq]) (by omega) (by omega) h
  · next k =>
    rw [periphEnable_reference ungated] at h
    cases h
    exact .givesBack k (by simp [k]) (by simp) rfl
  · cases h

/-- What a burst leads to: micro-steps that go on keep `P`, one that ends the burst brings `Q`, and so does
leaving off where `P` holds. -/
theorem burst_reaches {m : State → Micro} {P Q : State → Prop}
    (goes : ∀ s t, P s → m s = .run t true → P t) (ends : ∀ s t, P s → m s = .run t false → Q t)
    (leaves : ∀ s, P s → Q s) (turns : ∀ s r, P s → P (s.withTurns r)) :
    ∀ {k s t}, P s → burst m k s = .next t → Q t := by
  intro k
  induction k with
  | zero => intro s t hs h; cases h; exact leaves s hs
  | succ k ih =>
    intro s t hs h
    have yield : ∀ a b, P a → P b → orYield a (burst m k b) = .next t → Q t := by
      intro a b ha hb ho
      cases rest : burst m k b with
      | next c => rw [rest] at ho; cases ho; exact ih hb rest
      | fault f => rw [rest] at ho; cases ho; exact leaves _ ha
      | refused f => rw [rest] at ho; cases ho; exact leaves _ ha
    unfold burst at h
    split at h
    · cases h
    · next a hm => cases h; exact ends s _ hs hm
    · next a hm =>
      have ha := goes s a hs hm
      split at h
      · exact yield a a ha ha h
      · exact yield a _ ha (turns a _ ha) h
      all_goals (cases h; exact leaves _ ha)

/-- A baud change in flight, with the resting enable of `q` at `b`. -/
structure Resting (i : Instr) (q : Port) (b : Bool) (s : State) : Prop where
  ungated : s.build.gatedSafe = false
  busy : s.seq.busy = true
  resting : restingWith i s q = b

/-- A micro-step of a baud change keeps the resting enable, and leaves it as the enable if it ends the
command. -/
theorem bodyOf_setBaudRate_rests {h : Hdr} {baud : Word} {q : Port} {b : Bool} {s t : State} {more : Bool}
    (hs : Resting (.setBaudRate h baud) q b s) (m : bodyOf (.setBaudRate h baud) s = .run t more) :
    restingWith (.setBaudRate h baud) t q = b ∧
      (t.seq.busy = true ∨ (more = false ∧ (t.port q).pe = b)) := by
  obtain ⟨ungated, busy, resting⟩ := hs
  have move := microSetBaudRate_move ungated m
  obtain rfl | rfl := Port.eq_or_other (boundPort h) q
  · simp only [restingWith, true_and] at resting ⊢
    cases move with
    | finds before on after same =>
      rw [if_neg (by omega)] at resting
      exact ⟨by rw [if_pos (by omega), ← resting, on], .inl (same.trans busy)⟩
    | holds before after same =>
      rw [if_pos (by omega)] at resting
      exact ⟨by rw [if_pos after, resting], .inl (same.trans busy)⟩
    | skips before after same last =>
      rw [if_neg (by omega)] at resting
      exact ⟨by rw [if_neg (by omega), same, resting], .inr ⟨last, same.trans resting⟩⟩
    | givesBack before after on last =>
      rw [if_pos (by omega)] at resting
      exact ⟨by rw [if_pos (by omega), resting], .inr ⟨last, on.trans resting⟩⟩
  · have other : ∀ a, restingWith (.setBaudRate h baud) a (boundPort h).other =
        (a.port (boundPort h).other).pe := fun a => if_neg fun e => Port.other_ne _ e.1.symm
    have kept : t.port (boundPort h).other = s.port (boundPort h).other := (bodyOf_effect m).portOther
    have same : (t.port (boundPort h).other).pe = b := by rw [kept, ← other, resting]
    refine ⟨(other t).trans same, ?_⟩
    cases move with
    | finds _ _ _ keeps | holds _ _ keeps => exact .inl (keeps.trans busy)
    | skips _ _ _ last | givesBack _ _ _ last => exact .inr ⟨last, same⟩

/-- The check step, which finds nothing yet, does so too. -/
theorem microOf_setBaudRate_rests {h : Hdr} {baud : Word} {q : Port} {b : Bool} {s t : State} {more : Bool}
    (hs : Resting (.setBaudRate h baud) q b s) (m : microOf (.setBaudRate h baud) s = .run t more) :
    t.build.gatedSafe = false ∧ restingWith (.setBaudRate h baud) t q = b ∧
      (t.seq.busy = true ∨ (more = false ∧ (t.port q).pe = b)) := by
  rw [microOf_eq_checked] at m
  rcases checked_cases m with ⟨r, -, -, rfl, -⟩ | ⟨-, one, rfl, -⟩ | ⟨-, -, body⟩
  · exact ⟨hs.ungated, hs.resting, .inl hs.busy⟩
  · refine ⟨hs.ungated, ?_, .inl hs.busy⟩
    have found := hs.resting
    rw [restingWith_of_start _ (by omega)] at found
    rw [restingWith_of_start _ (by simp [one])]
    exact found
  · exact ⟨by rw [(bodyOf_effect body).build, hs.ungated], bodyOf_setBaudRate_rests hs body⟩

/-- A baud change keeps the resting enable, and leaves it as the enable when it ends. -/
theorem setBaudRate_rests {h : Hdr} {baud : Word} {s t : State} (q : Port)
    (ungated : s.build.gatedSafe = false) (busy : s.seq.busy = true)
    (run : exec (.setBaudRate h baud) s = .next t) :
    restingWith (.setBaudRate h baud) t q = restingWith (.setBaudRate h baud) s q ∧
      (t.seq.busy = false → (t.port q).pe = restingWith (.setBaudRate h baud) s q) := by
  generalize before : restingWith (.setBaudRate h baud) s q = b
  rw [exec_eq_burst] at run
  refine burst_reaches (P := Resting (.setBaudRate h baud) q b)
    (Q := fun a => restingWith (.setBaudRate h baud) a q = b ∧ (a.seq.busy = false → (a.port q).pe = b))
    (fun a c ha m => ?goes) (fun a c ha m => ?ends)
    (fun a ha => ⟨ha.resting, fun ended => absurd (ha.busy.symm.trans ended) nofun⟩)
    (fun a r ha => ⟨ha.ungated, ha.busy, ha.resting⟩) ⟨ungated, busy, before⟩ run
  case goes =>
    obtain ⟨ungated, resting, busy | ⟨last, -⟩⟩ := microOf_setBaudRate_rests ha m
    · exact ⟨ungated, busy, resting⟩
    · cases last
  case ends =>
    obtain ⟨-, resting, busy | ⟨-, pe⟩⟩ := microOf_setBaudRate_rests ha m
    · exact ⟨resting, fun ended => absurd (busy.symm.trans ended) nofun⟩
    · exact ⟨resting, fun _ => pe⟩

/-! ### Commands that are no lifecycle command -/

section
variable {i : Instr} {s t : State} (other : i.op.isLife = false)
include other

theorem op_ne_of_not_life {o : Op} (life : o.isLife = true) : i.op ≠ o := fun is => by
  rw [is, life] at other; cases other

/-- Such a command keeps the resting enable, and leaves it as the enable when it ends. -/
theorem exec_rests (q : Port) (ungated : s.build.gatedSafe = false) (busy : s.seq.busy = true)
    (run : exec i s = .next t) : restingWith i t q = restingWith i s q ∧
      (t.seq.busy = false → (t.port q).pe = restingWith i s q) := by
  by_cases change : i.op = .setBaudRate
  · cases i
    case setBaudRate => exact setBaudRate_rests q ungated busy run
    all_goals cases change
  · have same : (t.port q).pe = (s.port q).pe :=
      ((exec_frame run).port q).pe (op_ne_of_not_life other rfl) (op_ne_of_not_life other rfl)
        (op_ne_of_not_life other rfl) (op_ne_of_not_life other rfl) change
    rw [restingWith_of_op change, restingWith_of_op change]
    exact ⟨same, fun _ => same⟩

/-- It keeps the other three bits: `Life` is the same as far as the enable is. -/
theorem exec_lifeOf (q : Port) (pe : Bool) (run : exec i s = .next t) :
    lifeOf (t.port q).busclk pe (t.drv q).wasEnabled (t.drv q).deinited =
      lifeOf (s.port q).busclk pe (s.drv q).wasEnabled (s.drv q).deinited := by
  have port := (exec_frame run).port q
  have drv := (exec_frame run).drv q
  rw [port.busclk (op_ne_of_not_life other rfl) (op_ne_of_not_life other rfl),
    drv.wasEnabled (op_ne_of_not_life other rfl) (op_ne_of_not_life other rfl),
    drv.deinited (op_ne_of_not_life other rfl)]

end

/-! ### One step -/

theorem inFlight_of_fatal {s : State} (h : s.blk.fatal = true) : s.inFlight = none := by
  simp [State.inFlight, h]

/-- Before step 3 the resting enable is the enable, whatever the latches hold. -/
theorem restingPe_of_start {s : State} (early : s.seq.upc.step ≤ 2) (q : Port) :
    s.restingPe q = (s.port q).pe := by
  cases flight : s.inFlight with
  | none => exact restingPe_of_none flight q
  | some i => rw [restingPe_of_inFlight flight, restingWith_of_start i early]

/-- The command in flight keeps the resting enable of every port. -/
theorem exec_restingPe {i : Instr} {s t : State} (flight : s.inFlight = some i)
    (other : i.op.isLife = false) (q : Port) (ungated : s.build.gatedSafe = false)
    (run : exec i s = .next t) : t.restingPe q = s.restingPe q := by
  obtain ⟨busy, live, held⟩ := inFlight_eq_some.1 flight
  obtain ⟨resting, ended⟩ := exec_rests other q ungated busy run
  rw [restingPe_of_inFlight flight]
  rcases exec_cases run with ⟨r, -, one, rfl⟩ | ⟨-, effect⟩
  · rw [restingPe_of_none (inFlight_of_fatal rfl), restingWith_of_start i (by omega)]; rfl
  · cases after : t.seq.busy with
    | false => rw [restingPe_of_none (inFlight_of_idle after), ended after]
    | true =>
      have flight' : t.inFlight = some i :=
        inFlight_eq_some.2 ⟨after, effect.fatal.trans live, by rw [effect.latched, held]⟩
      rw [restingPe_of_inFlight flight', resting]

theorem runLatched_restingLife {s t : State} (q : Port) (ungated : s.build.gatedSafe = false)
    (busy : s.seq.busy = true) (live : s.blk.fatal = false)
    (others : ∀ i, s.inFlight = some i → i.op.isLife = false) (h : runLatched s = .next t) :
    t.restingLife q = s.restingLife q := by
  unfold runLatched at h
  split at h
  · cases h
  · split at h
    · next i d =>
      have flight := inFlight_eq_some.2 ⟨busy, live, d⟩
      have other := others i flight
      rw [State.restingLife, State.restingLife, exec_restingPe flight other q ungated h]
      exact exec_lifeOf other q _ h
    · next d =>
      have none : s.inFlight = none := by simp [State.inFlight, d]
      rw [microIllegal_next h, State.restingLife, State.restingLife, restingPe_of_none none,
        restingPe_of_none (inFlight_of_fatal rfl)]
      rfl
    · cases h

/-- Acceptance starts a command at its step 1, on an idle block (30_encoding.md R118). -/
theorem acceptPacket_restingLife {s : State} (pk : Packet) (rest : List Packet) (idle : s.seq.busy = false)
    (q : Port) : (acceptPacket pk rest s).restingLife q = s.restingLife q := by
  rw [State.restingLife, State.restingLife, restingPe_of_none (inFlight_of_idle idle),
    restingPe_of_start (show 1 ≤ 2 by decide)]
  rfl

/-- After acceptance the step ends, or the accepted command begins. -/
theorem beginAccepted_next {s t : State} (h : beginAccepted s = .next t) :
    t = s ∨ ∃ r, runLatched (s.withTurns r) = .next t := by
  unfold beginAccepted at h
  split at h
  · exact .inr ⟨s.world.turns, h⟩
  · next r _ => exact .inr ⟨r, h⟩
  all_goals (cases h; exact .inl rfl)

theorem sequencerTurn_restingLife {s t : State} (q : Port) (ungated : s.build.gatedSafe = false)
    (others : ∀ i, s.running i → i.op.isLife = false) (h : sequencerTurn s = .next t) :
    t.restingLife q = s.restingLife q := by
  cases live : s.blk.fatal with
  | true => rw [sequencerTurn_of_fatal live] at h; cases h; rfl
  | false =>
  cases busy : s.seq.busy with
  | true =>
    rw [sequencerTurn_of_busy live busy] at h
    exact runLatched_restingLife q ungated busy live (fun i flight => others i (.inl flight)) h
  | false =>
  cases cmds : s.world.cmds with
  | nil => simp [sequencerTurn, live, busy, cmds] at h; rw [h]
  | cons pk rest =>
    by_cases fits : decode pk = .error .badLength
    · simp [sequencerTurn, live, busy, cmds, fits] at h
    rw [sequencerTurn_of_idle live busy cmds fits] at h
    refine Eq.trans ?_ (acceptPacket_restingLife pk rest busy q)
    rcases beginAccepted_next h with rfl | ⟨r, run⟩
    · rfl
    · refine runLatched_restingLife (s := (acceptPacket pk rest s).withTurns r) q ungated rfl live
        (fun i flight => others i (.inr ⟨busy, pk, rest, cmds, ?_⟩)) run
      obtain ⟨-, -, held⟩ := inFlight_eq_some.1 flight
      rw [← decode_latched_acceptPacket s rest fits]; exact held

/-- The moves of the other agents keep it, since they keep every port's bus clock and enable. -/
theorem OutsideMove.restingLife {s t : State} {q : Port} (m : OutsideMove s t)
    (control : ∀ F : PortEnv → Bool, ControlOnly F → F (t.port q) = F (s.port q)) :
    t.restingLife q = s.restingLife q := by
  have busclk := control PortEnv.busclk fun _ _ _ _ => rfl
  have pe := control PortEnv.pe fun _ _ _ _ => rfl
  have flight : t.inFlight = s.inFlight := by simp only [State.inFlight, m.seq, m.blk]
  simp only [State.restingLife, State.restingPe, State.drv, flight, m.seq, m.blk, busclk, pe]

theorem isLife_eq_false {o : Op} (a : o ≠ .init) (b : o ≠ .deinit) (c : o ≠ .suspend)
    (d : o ≠ .resume) : o.isLife = false := by
  cases o
  case init | deinit | suspend | resume => contradiction
  all_goals rfl

/-- Settles O23: a command that is no lifecycle command keeps the resting enable and the three other bits of
`Life`, however its micro-steps are spread, and so does every other agent's move but reset. -/
theorem otherCommandsKeepLife : Obligations.OtherCommandsKeepLife := by
  refine ⟨fun i s t q a b c d start ref run idle => ?_, fun s t q ref others noReset h => ?_,
    fun s q idle => ?_⟩
  · obtain ⟨busy, -, upc, -⟩ := start
    have other := isLife_eq_false a b c d
    have pe := (exec_rests other q ref.1 busy run).2 idle
    rw [restingWith_of_start i (by simp [upc])] at pe
    rw [State.life, State.life, pe]
    exact exec_lifeOf other q _ run
  · unfold step move at h
    split at h
    · exact sequencerTurn_restingLife q ref.1 others h
    · next r _ => exact sequencerTurn_restingLife (s := s.withTurns r) q ref.1 others h
    · next p b r _ =>
      cases h
      exact (arrive_outsideMove (s.withTurns r) p b).restingLife fun F control => arrive_control control _ b q
    · next p r _ =>
      unfold enterHandler at h
      split at h
      · exact (handler_outsideMove h).restingLife fun F control => handler_control control h q
      · cases h; rfl
    · next r turns => exact absurd turns (noReset r)
  · rw [State.restingLife, restingPe_of_none (inFlight_of_idle idle)]; rfl

end Sys2Proof.Machine
end

section
/-!
The baud calculation (41_baud.md R170 to R177): the truth value of the query, the truncating test of the
prescaler, and the divisor's range as inequalities on the frequency and the baud.
-/

namespace Sys2Proof.Machine

theorem baudSupported_iff (baud : Word) :
    baudSupported baud = true ↔ 9600 ≤ baud.toNat ∧ baud.toNat ≤ 4000000 := by
  rw [baudSupported, Bool.and_eq_true, decide_eq_true_iff, decide_eq_true_iff]; rfl

/-- Settles O24: the one micro-step after the check responds and ends. -/
theorem baudQueryAnswersTheRange : Obligations.BaudQueryAnswersTheRange := by
  intro s h baud start valid
  refine ⟨_, exec_of_leads start valid (.refl 2 s) rfl (by decide), rfl, rfl, ?_, rfl, rfl, rfl⟩
  simp only [← baudSupported_iff]
  rfl

/-! ### The calculator -/

/-- The Lpuart's test on the truncated quotient (R172) without the quotient. -/
theorem ratioMax_lt_div_iff {f baud : Nat} (pos : 0 < baud) :
    Config.ratioMax < f / baud ↔ 4096 * baud ≤ f := Nat.le_div_iff_mul_le pos

/-- Every intermediate of the default formula lies below what a prescaler of 1 gives (R174). -/
theorem divisor_intermediate_lt {f baud : Nat} (hf : f < 2 ^ 32) (hb : baud < 2 ^ 32) (presc : Nat) :
    f / presc * 256 + baud / 2 < 2 ^ 41 := by
  have quotient : f / presc ≤ f := Nat.div_le_self ..
  omega

/-- Settles O28: the test is `4096 * baud ≤ f`, and its two outcomes differ. -/
theorem prescalerTestIsTruncating : Obligations.PrescalerTestIsTruncating := by
  intro f baud pos
  have test := ratioMax_lt_div_iff (f := f) pos
  have ne : Config.prescHigh ≠ 1 ∧ Config.prescLow ≠ 32 := by decide
  refine ⟨?_, ?_, rfl, fun hf hb p => divisor_intermediate_lt hf hb _⟩ <;> simp only [prescalerFor, test]
  · split
    · next low => exact iff_of_true rfl low
    · next high => exact iff_of_false ne.2 high
  · split
    · next low => exact iff_of_false ne.1 (by omega)
    · next high => exact iff_of_true rfl (by omega)

section
variable {f presc baud m : Nat} (pos : 0 < baud)
include pos

/-- A lower bound on the Usart's divisor (R176) is one on the dividend. -/
theorem le_divisorFn_usart_iff :
    m ≤ divisorFn .usart f presc baud ↔ m * baud ≤ f / presc + baud / 2 := Nat.le_div_iff_mul_le pos

/-- The same for the Lpuart, whose dividend is scaled by 256. -/
theorem le_divisorFn_lpuart_iff :
    m ≤ divisorFn .lpuart f presc baud ↔ m * baud ≤ f / presc * 256 + baud / 2 :=
  Nat.le_div_iff_mul_le pos

/-- An upper bound is the failure of the next lower one. -/
theorem divisorFn_usart_le_iff :
    divisorFn .usart f presc baud ≤ m ↔ f / presc + baud / 2 < (m + 1) * baud := by
  rw [← Nat.lt_succ_iff, ← Nat.not_le, le_divisorFn_usart_iff pos, Nat.not_le]

theorem divisorFn_lpuart_le_iff :
    divisorFn .lpuart f presc baud ≤ m ↔ f / presc * 256 + baud / 2 < (m + 1) * baud := by
  rw [← Nat.lt_succ_iff, ← Nat.not_le, le_divisorFn_lpuart_iff pos, Nat.not_le]

end

/-- Settles O29: each bound on the divisor is one on the dividend. -/
theorem divisorRangeConditions : Obligations.DivisorRangeConditions := by
  intro f baud pos
  simp only [Config.divMin, Config.divMax, le_divisorFn_usart_iff pos, le_divisorFn_lpuart_iff pos,
    divisorFn_usart_le_iff pos, divisorFn_lpuart_le_iff pos, Nat.div_one]
  refine ⟨trivial, trivial, fun _ => ⟨by omega, by omega⟩, fun high => ?_⟩
  have ratio : 4096 * baud ≤ f := (Nat.le_div_iff_mul_le pos).1 high
  exact ⟨by omega, trivial, fun hf hb => by omega⟩

end Sys2Proof.Machine
end

section
/-!
`set_baud_rate` (41_baud.md R171): its steps 2 to 9 on an enabled port, the silent end on a disabled one, and
the calculation step at which baud 0 stops the run (R178).
-/

namespace Sys2Proof.Machine

/-- The steps of `set_baud_rate` are those of a baud change, by their own numbers. -/
theorem setBaudRate_changesBaud (h : Hdr) (baud : Word) :
    ChangesBaud (.setBaudRate h baud) (boundPort h) baud 0 :=
  ⟨State.done, State.done, false, fun a k _ _ => by rw [Nat.zero_add]; rfl⟩

/-- Settles O25: steps 2 to 8, which `init` inlines too, and the last step, which enables the peripheral
again. -/
theorem setBaudRateReprograms : Obligations.SetBaudRateReprograms := by
  intro s h baud rest start valid ref nonzero on polls p
  obtain ⟨a, f, v, given, divisor, change⟩ :=
    baudChange_does (setBaudRate_changesBaud h baud) nonzero ref.1 on polls
  have ungated : a.build.gatedSafe = false := by rw [change.makes.build]; exact ref.1
  obtain ⟨u, run, idle, made⟩ := exec_of_does start valid change
    (congrArg Micro.done (periphEnable_reference (by exact ungated) p))
    (write_makes p _ (fun e => { e with pe := true }) (.periphEnable p))
  refine ⟨u, f, v, run, given, divisor, idle, made.blk_of_drv_id rfl, ?_, ?_, made.port_other,
    made.asyncMode, made.txlog, made.cblog, ?_⟩
  · rw [made.polls, polls]; rfl
  · rw [made.port, ← on]; rfl
  · simpa [Change.andThen] using made.primlog

/-- Settles O26: the query reads 0 and the command ends there. -/
theorem setBaudRateSkipsSilently : Obligations.SetBaudRateSkipsSilently := by
  intro s h baud start valid ref off
  have query : bodyOf (.setBaudRate h baud) (s.jump 2) = .run
      ((s.log .sequencer (.periphIsEnabled (boundPort h) false)).jump 2).done false := by
    simp [bodyOf, microSetBaudRate, baudSteps, periphIsEnabled_reference, ref.1, off]; rfl
  exact ⟨_, exec_of_leads start valid (.refl 2 s) query (by decide), rfl, rfl, rfl, rfl, rfl, rfl, rfl, rfl⟩

/-! ### Baud 0 -/

/-- A command stops exactly when its next micro-step does. -/
theorem exec_fault_iff {i : Instr} {s : State} {f : Fault} :
    exec i s = .fault f ↔ microOf i s = .stop f := by
  refine ⟨exec_fault, fun stop => ?_⟩
  obtain ⟨k, fuel⟩ := fuelOf_eq i
  rw [exec_eq_burst, fuel, burst, stop]

theorem calcStep_stop_iff {p : Port} {baud : Word} {s : State} :
    calcStep p baud s = .stop .baudZero ↔ baud = 0 := by
  refine ⟨fun stop => (calcStep_stop stop).1, ?_⟩
  rintro rfl
  simp [calcStep, baudCalc]

/-- A command whose next micro-step is the calculation stops there exactly for baud 0. -/
theorem exec_baudZero_iff {i : Instr} {p : Port} {baud : Word} {s : State} (passes : instrFault i = none)
    (later : s.seq.upc.step ≠ 1) (body : bodyOf i s = calcStep p baud s) :
    exec i s = .fault .baudZero ↔ baud = 0 := by
  rw [exec_fault_iff, microOf_eq_checked, passes, checked_body later, body, calcStep_stop_iff]

/-- A straight run up to a micro-step that the model stops on: the burst ends right before it (log 12). -/
theorem burst_before_stop_of_leads {i : Instr} {k l : Nat} {s t : State} {f : Fault}
    (passes : instrFault i = none) (path : Leads i k s l t) (later : 1 < k) (moves : k < l)
    (stop : microOf i (t.jump l) = .stop f) (quiet : s.world.turns = []) {fuel : Nat}
    (enough : l ≤ k + fuel) : burst (microOf i) fuel (s.jump k) = .next (t.jump l) := by
  induction path generalizing fuel with
  | refl k s => omega
  | @step k j l s a t _ up micro turns rest ih =>
    obtain ⟨n, rfl⟩ : ∃ n, fuel = n + 1 := ⟨fuel - 1, by omega⟩
    have goes : microOf i (s.jump k) = .run (a.jump j) true := by
      rw [microOf_eq_checked, passes, checked_body (s := s.jump k) (Nat.ne_of_gt later), micro]
    have still := turns.trans quiet
    rcases rest.le.eq_or_lt with rfl | lt
    · cases rest with
      | refl => exact burst_before_stop goes still stop
      | step _ up _ _ rest => have := rest.le; omega
    · exact burst_step goes still (ih (by omega) lt stop still (by omega))

/-- Settles O27: the run up to the calculation is that of every baud; the command is still in flight there,
since one that had ended would have given the enable back. -/
theorem baudZeroStopsAtTheCalculation : Obligations.BaudZeroStopsAtTheCalculation := by
  refine ⟨fun s h rest start valid ref on polls => ?_, fun s h baud valid => ⟨fun k => ?_, fun k => ?_⟩⟩
  · obtain ⟨busy, live, upc, turns⟩ := start
    have passes : instrFault (.setBaudRate h 0) = none := valid
    have inlines := setBaudRate_changesBaud h 0
    obtain ⟨a, disable, -⟩ := baudChange_disables inlines ref.1 on polls
    obtain ⟨b, read, -⟩ := baudChange_reads (s := a) inlines
    have path := disable.trans read
    have stop : exec (.setBaudRate h 0) (b.jump 6) = .fault .baudZero :=
      (exec_baudZero_iff (p := boundPort h) passes (show 6 ≠ 1 by decide) rfl).2 rfl
    have one : s.seq.upc.step = 1 := by rw [upc]
    have check : microOf (.setBaudRate h 0) s = .run (s.jump 2) true := by
      rw [microOf_eq_checked, passes, checked_passes one, advance_eq_jump one]
    have run : exec (.setBaudRate h 0) s = .next (b.jump 6) := by
      rw [exec_eq_burst]
      exact burst_step check turns (burst_before_stop_of_leads passes path.leads (by decide) (by decide)
        (exec_fault_iff.1 stop) turns (by decide))
    have off : (b.port (boundPort h)).pe = false := by rw [path.makes.port]; rfl
    refine ⟨_, run, ?_, rfl, off, path.makes.fatal.trans live, stop⟩
    have ended := (setBaudRate_rests (boundPort h) ref.1 busy run).2
    rw [restingWith_of_start _ (by omega), on] at ended
    by_contra idle
    exact absurd (off.symm.trans (ended (by simpa using idle))) nofun
  · exact exec_baudZero_iff (p := boundPort h) valid (by omega)
      (by simp only [bodyOf, microSetBaudRate, baudSteps, k])
  · exact exec_baudZero_iff (p := boundPort h) valid (by omega)
      (by simp only [bodyOf, microInit, baudSteps, k])

end Sys2Proof.Machine
end

section
/-!
Invariants of the block that also speak of what the command in flight has done so far (its phase): what the
moves that are no micro-steps leave alone (`Aside`), and the induction over a step for such an invariant
(`PhasedInv`). It is finer than `KeptByMoves` in what it knows of the other agents: they keep every prescaler,
and what they log is none of the sequencer's primitives.
-/

namespace Sys2Proof.Machine

/-! ### Moves that are no micro-steps -/

/-- Every prescaler is kept, and the log grows at most by primitives of handlers, which write none. -/
structure Aside (s t : State) : Prop where
  presc : ∀ q, (t.port q).presc = (s.port q).presc
  log : ∃ l, t.trc.primlog = s.trc.primlog ++ l ∧
    ∀ e ∈ l, e.issuer ≠ .sequencer ∧ e.isUsartPrescaler = false

theorem Aside.of_same {s t : State} (ifc : t.ifc = s.ifc) (trc : t.trc = s.trc) : Aside s t :=
  ⟨fun q => by simp only [State.port, ifc], [], by simp [trc], by simp⟩

theorem Aside.trans {s t u : State} (h : Aside s t) (k : Aside t u) : Aside s u := by
  obtain ⟨l, hl, plain⟩ := h.log
  obtain ⟨m, hm, plain'⟩ := k.log
  refine ⟨fun q => (k.presc q).trans (h.presc q), l ++ m, by rw [hm, hl, List.append_assoc], ?_⟩
  exact fun e mem => (List.mem_append.1 mem).elim (plain e) (plain' e)

/-- Nothing of it is the sequencer's. -/
theorem Aside.issued {s t : State} (h : Aside s t) : t.issued = s.issued := by
  obtain ⟨l, log, plain⟩ := h.log
  simp only [State.issued, log, List.filterMap_append]
  rw [List.append_right_eq_self, List.filterMap_eq_nil_iff]
  intro e mem
  split
  · next own => exact absurd own (plain e mem).1
  · rfl

theorem arrive_aside (s : State) (p : Port) (b : Byte) : Aside s (s.arrive p b) :=
  ⟨arrive_control (F := PortEnv.presc) (fun _ _ _ _ => rfl) s b, [], by simp, by simp⟩

/-- A handler's primitive, when it writes no prescaler. -/
theorem Issues.aside {p : Port} {x : Prim} {f : Iface → Iface} {s t : State}
    (h : Issues (.handler p) [x] f s t) (presc : ∀ q, (t.port q).presc = (s.port q).presc)
    (plain : LogEntry.isUsartPrescaler ⟨.handler p, x⟩ = false := by rfl) : Aside s t :=
  ⟨presc, [⟨.handler p, x⟩], h.primlog, by simpa using plain⟩

theorem flagRxne_aside (s : State) (p : Port) : Aside s (s.flagRxne p).state :=
  (flagRxne_issues s p).aside fun _ => by simp only [State.port, (flagRxne_issues s p).query]

theorem flagOre_aside (s : State) (p : Port) : Aside s (s.flagOre p).state :=
  (flagOre_issues s p).aside fun _ => by simp only [State.port, (flagOre_issues s p).query]

theorem readData_aside (s : State) (p : Port) : Aside s (s.readData p) :=
  (readData_issues s p).aside ((readData_issues s p).field fun _ => rfl)

theorem clearOre_aside (s : State) (p : Port) : Aside s (s.clearOre p) :=
  (clearOre_issues s p).aside ((clearOre_issues s p).field fun _ => rfl)

theorem cbInvoke_aside (s : State) (p : Port) (c : Word) (b : Byte) (x : Word) :
    Aside s (s.cbInvoke p c b x) :=
  ⟨fun _ => rfl, [⟨.handler p, .cbInvoke c b x⟩], rfl, by simp [LogEntry.isUsartPrescaler]⟩

/-- One run of a handler (43_receive.md R218). -/
theorem handler_aside {p : Port} {s t : State} (h : handler p s = .next t) : Aside s t := by
  unfold handler at h
  refine (flagRxne_aside s p).trans ?_
  dsimp only at h
  split at h
  · unfold handlerDeliver at h
    split at h
    · cases h
    · cases h; exact (readData_aside _ p).trans (cbInvoke_aside ..)
  · cases h
    unfold handlerOverrun
    dsimp only
    split
    · exact (flagOre_aside _ p).trans (clearOre_aside _ p)
    · exact flagOre_aside _ p

/-! ### Invariants with a phase -/

/-- What must be known of an invariant `I` with the phase of the command in flight: no move but a micro-step
touches either; a command starts without having done anything; and a micro-step keeps both, or ends the
command. -/
structure PhasedInv (I : State → Prop) (phase : Instr → State → Prop) : Prop where
  aside : ∀ s t, Aside s t → I s → I t
  phase_aside : ∀ i s t, Aside s t → t.seq = s.seq → phase i s → phase i t
  reset : ∀ s, AtReset s → I s
  start : ∀ i s, s.seq.upc.step ≤ 2 → phase i s
  body : ∀ i s t more, bodyOf i s = .run t more → I s → phase i s →
    I t ∧ (phase i t ∨ (more = false ∧ t.seq.busy = false))

/-- The invariant, with the phase of the command in flight. -/
def Phased (I : State → Prop) (phase : Instr → State → Prop) (s : State) : Prop :=
  I s ∧ ∀ i, s.inFlight = some i → phase i s

/-- With no command in flight nothing is said of a phase. -/
theorem Phased.of_idle {I : State → Prop} {phase : Instr → State → Prop} {s : State} (hs : I s)
    (idle : s.inFlight = none) : Phased I phase s :=
  ⟨hs, fun _ flight => absurd (idle.symm.trans flight) nofun⟩

namespace PhasedInv

variable {I : State → Prop} {phase : Instr → State → Prop} (k : PhasedInv I phase) {s t : State}
include k

/-- The moves of the other agents. -/
theorem agent (m : Aside s t) (seq : t.seq = s.seq) (blk : t.blk = s.blk) (hs : Phased I phase s) :
    Phased I phase t := by
  have flight : t.inFlight = s.inFlight := by simp only [State.inFlight, seq, blk]
  exact ⟨k.aside s t m hs.1, fun i j => k.phase_aside i s t m seq (hs.2 i (flight ▸ j))⟩

theorem turns (r : List Turn) (hs : Phased I phase s) : Phased I phase (s.withTurns r) :=
  k.agent (s := s) (.of_same rfl rfl) rfl rfl hs

/-- A micro-step, the check included, keeps both, or ends the command. -/
theorem micro {i : Instr} {more : Bool} (hs : I s) (ps : phase i s) (m : microOf i s = .run t more) :
    I t ∧ (phase i t ∨ (more = false ∧ t.inFlight = none)) := by
  rw [microOf_eq_checked] at m
  rcases checked_cases m with ⟨r, -, -, rfl, last⟩ | ⟨-, one, rfl, -⟩ | ⟨-, -, body⟩
  · exact ⟨k.aside s _ (.of_same rfl rfl) hs, .inr ⟨last, inFlight_of_fatal rfl⟩⟩
  · exact ⟨k.aside s _ (.of_same rfl rfl) hs, .inl (k.start i _ (by simp [one]))⟩
  · obtain ⟨ht, kept | ⟨last, idle⟩⟩ := k.body i s t more body hs ps
    · exact ⟨ht, .inl kept⟩
    · exact ⟨ht, .inr ⟨last, inFlight_of_idle idle⟩⟩

/-- The command in flight. -/
theorem command {i : Instr} (flight : s.inFlight = some i) (run : exec i s = .next t)
    (hs : Phased I phase s) : Phased I phase t := by
  have ended : I t ∧ (t.inFlight ≠ none → phase i t) := by
    rw [exec_eq_burst] at run
    refine burst_reaches (P := fun a => I a ∧ phase i a)
      (Q := fun a => I a ∧ (a.inFlight ≠ none → phase i a)) (fun a b ha m => ?goes)
      (fun a b ha m => ?ends) (fun a ha => ⟨ha.1, fun _ => ha.2⟩) (fun a r ha => ?turns)
      ⟨hs.1, hs.2 i flight⟩ run
    case goes =>
      obtain ⟨hb, kept | ⟨last, -⟩⟩ := k.micro ha.1 ha.2 m
      · exact ⟨hb, kept⟩
      · cases last
    case ends =>
      obtain ⟨hb, kept | ⟨-, idle⟩⟩ := k.micro ha.1 ha.2 m
      · exact ⟨hb, fun _ => kept⟩
      · exact ⟨hb, absurd idle⟩
    case turns =>
      exact ⟨k.aside a _ (.of_same rfl rfl) ha.1, k.phase_aside i a _ (.of_same rfl rfl) rfl ha.2⟩
  refine ⟨ended.1, fun j after => ?_⟩
  rw [exec_inFlight flight run after]
  exact ended.2 (by simp [after])

theorem runLatched (live : s.blk.fatal = false) (busy : s.seq.busy = true) (hs : Phased I phase s)
    (h : runLatched s = .next t) : Phased I phase t := by
  unfold Machine.runLatched at h
  split at h
  · cases h
  · split at h
    · next i held => exact k.command (inFlight_eq_some.2 ⟨busy, live, held⟩) h hs
    · rw [microIllegal_next h]
      exact .of_idle (k.aside s _ (.of_same rfl rfl) hs.1) (inFlight_of_fatal rfl)
    · cases h

/-- An accepted command is at its start. -/
theorem accept (pk : Packet) (rest : List Packet) (hs : Phased I phase s) :
    Phased I phase (acceptPacket pk rest s) :=
  ⟨k.aside s _ (.of_same rfl rfl) hs.1, fun i _ => k.start i _ (show 1 ≤ 2 by decide)⟩

theorem sequencerTurn (hs : Phased I phase s) (h : sequencerTurn s = .next t) : Phased I phase t := by
  cases live : s.blk.fatal with
  | true => rw [sequencerTurn_of_fatal live] at h; cases h; exact hs
  | false =>
  cases busy : s.seq.busy with
  | true => rw [sequencerTurn_of_busy live busy] at h; exact k.runLatched live busy hs h
  | false =>
  cases cmds : s.world.cmds with
  | nil => simp [Machine.sequencerTurn, live, busy, cmds] at h; rwa [← h]
  | cons pk rest =>
    by_cases fits : decode pk = .error .badLength
    · simp [Machine.sequencerTurn, live, busy, cmds, fits] at h
    rw [sequencerTurn_of_idle live busy cmds fits] at h
    have accepted := k.accept pk rest hs
    rcases beginAccepted_next h with rfl | ⟨r, run⟩
    · exact accepted
    · exact k.runLatched (s := (acceptPacket pk rest s).withTurns r) live rfl (k.turns r accepted) run

/-- Every step keeps it, whoever moves. -/
theorem step (hs : Phased I phase s) (h : step s = .next t) : Phased I phase t := by
  unfold Machine.step move at h
  split at h
  · exact k.sequencerTurn hs h
  · exact k.sequencerTurn (k.turns _ hs) h
  · cases h; exact k.agent (arrive_aside ..) rfl rfl (k.turns _ hs)
  · unfold enterHandler at h
    split at h
    · have m := handler_outsideMove h
      exact k.agent (handler_aside h) m.seq m.blk (k.turns _ hs)
    · cases h; exact k.turns _ hs
  · cases h
    have atReset := resetEvent_atReset (s.withTurns ‹_›)
    exact .of_idle (k.reset _ atReset) (inFlight_of_idle atReset.busy)

end PhasedInv

end Sys2Proof.Machine
end

section
/-!
Micro-steps and baud changes (41_baud.md R171): what each step of a baud change can do, said once (`BaudStep`),
and that every other micro-step of every command issues no prescaler or divisor write and keeps every prescaler
(`Plain`).
-/

namespace Sys2Proof.Machine

/-! ### Micro-steps that write neither prescaler nor divisor -/

/-- No prescaler or divisor write is issued, and every prescaler is kept. -/
structure Plain (s t : State) : Prop where
  issued : ∃ l, t.issued = s.issued ++ l ∧ ∀ x ∈ l, ∀ q, ¬ Prim.isBaudWrite q x
  presc : ∀ q, (t.port q).presc = (s.port q).presc

theorem Plain.trans {s t u : State} (h : Plain s t) (k : Plain t u) : Plain s u := by
  obtain ⟨l, hl, plain⟩ := h.issued
  obtain ⟨m, hm, plain'⟩ := k.issued
  refine ⟨⟨l ++ m, by rw [hm, hl, List.append_assoc], ?_⟩, fun q => (k.presc q).trans (h.presc q)⟩
  exact fun x mem => (List.mem_append.1 mem).elim (plain x) (plain' x)

theorem plain_of_same {s t : State} (ifc : t.ifc = s.ifc) (trc : t.trc = s.trc) : Plain s t :=
  ⟨⟨[], by simp [State.issued, trc], by simp⟩, fun q => by simp only [State.port, ifc]⟩

theorem Plain.refl (s : State) : Plain s s := plain_of_same rfl rfl

theorem modDrv_plain (s : State) (p : Port) (f : Driver → Driver) : Plain s (s.modDrv p f) :=
  plain_of_same rfl rfl

/-- A primitive of a port. -/
theorem Issues.plain {x : Prim} {p : Port} {g : PortEnv → PortEnv} {s t : State}
    (h : Issues .sequencer [x] (·.modPort p g) s t)
    (keeps : ∀ e, (g e).presc = e.presc := by intro e; rfl)
    (other : ∀ q, ¬ Prim.isBaudWrite q x := by exact fun _ => id) : Plain s t :=
  ⟨⟨[x], h.issued, by simpa using other⟩, h.field keeps⟩

/-- A primitive that changes no port. -/
theorem Issues.plain_of_env {x : Prim} {f : Iface → Iface} {s t : State}
    (h : Issues .sequencer [x] f s t) (env : t.ifc.env = s.ifc.env)
    (other : ∀ q, ¬ Prim.isBaudWrite q x := by exact fun _ => id) : Plain s t :=
  ⟨⟨[x], h.issued, by simpa using other⟩, fun q => by simp only [State.port, env]⟩

theorem DrawKeeps.plain {s d : State} (h : DrawKeeps s d) : Plain s d := plain_of_same h.ifc h.trc

theorem log_plain (s : State) (x : Prim) (other : ∀ q, ¬ Prim.isBaudWrite q x := by exact fun _ => id) :
    Plain s (s.log .sequencer x) :=
  ⟨⟨[x], issued_log s x, by simpa using other⟩, fun _ => rfl⟩

theorem periphIsEnabled_plain (s : State) (p : Port) : Plain s (s.periphIsEnabled p).state :=
  (periphIsEnabled_issues s p).plain_of_env (by rw [(periphIsEnabled_issues s p).query])

theorem asyncModeUsart_plain (s : State) : Plain s s.asyncModeUsart :=
  (asyncModeUsart_issues s).plain_of_env (by rcases (asyncModeUsart_issues s).ifc with e | e <;> rw [e])

theorem writeData_plain (s : State) (p : Port) (b : Byte) : Plain s (s.writeData p b) :=
  ⟨⟨[.writeData p b], by simp [State.issued], by simp [Prim.isBaudWrite]⟩, fun _ => rfl⟩

/-- A move of the sequencer, a DriverState write or a draw after it. -/
theorem Plain.then_same {s t u : State} (h : Plain s t) (ifc : u.ifc = t.ifc := by rfl)
    (trc : u.trc = t.trc := by rfl) : Plain s u := h.trans (plain_of_same ifc trc)

theorem Plain.next {s t u : State} {more : Bool} (h : Plain s u) (m : Micro.next u = .run t more) :
    Plain s t := by
  rw [(next_run m).1]; exact h.then_same

theorem Plain.done {s t u : State} {more : Bool} (h : Plain s u) (m : Micro.done u = .run t more) :
    Plain s t := by
  rw [(done_run m).1]; exact h.then_same

theorem pollPrim_plain (f : Config.PollFlag) (p : Port) (r : Bool) (q : Port) :
    ¬ Prim.isBaudWrite q (pollPrim f p r) := by cases f <;> exact id

theorem doneUnless_plain {s t : State} {d : Drawn} {more : Bool} (h : Plain s d.state)
    (m : doneUnless d = .run t more) : Plain s t := by
  rcases doneUnless_run m with ⟨-, rfl⟩ | ⟨-, rfl, -⟩ <;> exact h.then_same

/-- The moves of the sequencer after the last primitive of an inlined step list. -/
def KeepsOutside (f : State → State) : Prop := ∀ a, (f a).ifc = a.ifc ∧ (f a).trc = a.trc

theorem advance_keepsOutside : KeepsOutside State.advance := fun _ => ⟨rfl, rfl⟩
theorem done_keepsOutside : KeepsOutside State.done := fun _ => ⟨rfl, rfl⟩
theorem jump_keepsOutside (k : Nat) : KeepsOutside (·.jump k) := fun _ => ⟨rfl, rfl⟩

theorem KeepsOutside.issued {f : State → State} (h : KeepsOutside f) (a : State) :
    (f a).issued = a.issued := by simp only [State.issued, (h a).2]

theorem Plain.keepsOutside {s t : State} {f : State → State} (h : Plain s t) (k : KeepsOutside f) :
    Plain s (f t) := h.then_same (k t).1 (k t).2

theorem waitFlag_plain {f : Config.PollFlag} {p : Port} {onSet : State → State} {go more : Bool}
    {s t : State} (on : KeepsOutside onSet) (m : waitFlag f p onSet go s = .run t more) : Plain s t := by
  obtain ⟨d, k, rfl | ⟨rfl, -⟩⟩ := waitFlag_run m
  · exact (k.plain.trans (log_plain d _ (pollPrim_plain f p true))).keepsOutside on
  · exact k.plain

/-! ### The micro-programs without a baud change -/

theorem nullRegSteps_plain {p : Port} {fin : State → State} {go more : Bool} {k : Nat} {s t : State}
    (fi : KeepsOutside fin) (h : nullRegSteps p fin go k s = .run t more) : Plain s t := by
  unfold nullRegSteps at h
  split at h
  · exact (rxneIrqDisable_issues s p).plain.next h
  · exact (vecDetach_issues s p).plain.next h
  · exact (modDrv_plain s p _).next h
  · cases h; exact (modDrv_plain s p _).keepsOutside fi
  · cases h

theorem regSteps_plain {p : Port} {callback context : Word} {k : Nat} {s t : State} {more : Bool}
    (h : regSteps p callback context k s = .run t more) : Plain s t := by
  unfold regSteps at h
  split at h
  · split at h <;> exact (modDrv_plain s p _).next h
  · split at h <;> exact (modDrv_plain s p _).next h
  · exact (vecAttach_issues s p).plain.next h
  · exact (rxneIrqEnable_issues s p).plain.done h
  · cases h

theorem microSetRxCallback_plain {callback context : Word} {p : Port} {s t : State} {more : Bool}
    (h : microSetRxCallback callback context p s = .run t more) : Plain s t := by
  unfold microSetRxCallback at h
  split at h
  · exact nullRegSteps_plain done_keepsOutside h
  · exact regSteps_plain h

theorem microIsBaudRateSupported_plain {p : Port} {baud : Word} {s t : State} {more : Bool}
    (h : microIsBaudRateSupported baud p s = .run t more) : Plain s t := by
  unfold microIsBaudRateSupported at h
  split at h <;> cases h
  exact plain_of_same rfl rfl

theorem microDeinit_plain {p : Port} {s t : State} {more : Bool}
    (h : microDeinit p s = .run t more) : Plain s t := by
  unfold microDeinit at h
  split at h
  iterate 4 exact nullRegSteps_plain advance_keepsOutside h
  · cases h; exact (log_plain s (.busIsEnabled p (s.port p).busclk)).then_same
  · split at h
    · exact (busDisable_issues s p).plain.next h
    · exact (Plain.refl s).next h
  · cases h; exact (periphIsEnabled_plain s p).then_same
  · split at h
    · exact (periphDisable_issues s p).plain.next h
    · exact (Plain.refl s).next h
  · exact (pinCfgAnalog_issues s p _).plain.next h
  · exact ((pinCfgAnalog_issues s p _).plain.trans (modDrv_plain _ p _)).done h
  · cases h

theorem microSuspend_plain {p : Port} {s t : State} {more : Bool}
    (h : microSuspend p s = .run t more) : Plain s t := by
  unfold microSuspend at h
  split at h
  · exact doneUnless_plain (periphIsEnabled_plain s p) h
  · exact (periphDisable_issues s p).plain.next h
  · exact (modDrv_plain s p _).done h
  · cases h

theorem microResume_plain {p : Port} {s t : State} {more : Bool}
    (h : microResume p s = .run t more) : Plain s t := by
  unfold microResume at h
  split at h
  · split at h
    · exact (Plain.refl s).next h
    · exact (Plain.refl s).done h
  · exact (periphEnable_issues s p).plain.next h
  · exact (modDrv_plain s p _).done h
  · cases h

theorem microTx_plain {p : Port} {bytes : List Byte} {s t : State} {more : Bool}
    (h : microTx bytes p s = .run t more) : Plain s t := by
  unfold microTx at h
  split at h
  · dsimp only at h
    split at h <;> cases h <;> exact (periphIsEnabled_plain s p).then_same
  · exact waitFlag_plain advance_keepsOutside h
  · obtain ⟨b, -, ⟨-, rfl, -⟩ | ⟨-, rfl, -⟩⟩ := writeStep_run h <;> exact (writeData_plain s p b).then_same
  · cases h

theorem microTxWaitComplete_plain {p : Port} {s t : State} {more : Bool}
    (h : microTxWaitComplete p s = .run t more) : Plain s t := by
  unfold microTxWaitComplete at h
  split at h
  · exact doneUnless_plain (periphIsEnabled_plain s p) h
  · exact waitFlag_plain done_keepsOutside h
  · cases h

theorem microEnableDirection_plain {p : Port} {d : Dir} {s t : State} {more : Bool}
    (h : microEnableDirection p d s = .run t more) : Plain s t := by
  unfold microEnableDirection at h
  split at h
  · exact (dirEnable_issues s p d).plain.next h
  · exact (pinCfgAF_issues s p d).plain.done h
  · cases h

theorem microDisableDirection_plain {p : Port} {d : Dir} {s t : State} {more : Bool}
    (h : microDisableDirection p d s = .run t more) : Plain s t := by
  unfold microDisableDirection at h
  split at h
  · exact (dirDisable_issues s p d).plain.next h
  · exact (pinCfgAnalog_issues s p d).plain.done h
  · cases h

theorem microGetGpioPin_plain {p : Port} {d : Dir} {s t : State} {more : Bool}
    (h : microGetGpioPin p d s = .run t more) : Plain s t := by
  unfold microGetGpioPin at h
  split at h <;> cases h
  exact plain_of_same rfl rfl

/-! ### The steps of a baud change -/

/-- What step `k` of a baud change of port `p` can do (R171). `skip` and `fin` are the moves that end the step
list, at step 2 and after step 9. -/
inductive BaudStep (p : Port) (skip fin : State → State) (s t : State) : Nat → Prop
  | asks (a : State) (plain : Plain s a) (seq : a.seq = s.seq) (moves : t = a.advance ∨ t = skip a) :
      BaudStep p skip fin s t 2
  | waits (plain : Plain s t) (stays : t.seq.upc = s.seq.upc) : BaudStep p skip fin s t 3
  | polls (plain : Plain s t) (issued : t.issued = s.issued ++ [.flagTC p true])
      (on : t.seq.upc.step = s.seq.upc.step + 1) : BaudStep p skip fin s t 3
  | disables (plain : Plain s t) (issued : t.issued = s.issued ++ [.periphDisable p])
      (on : t.seq.upc.step = s.seq.upc.step + 1) : BaudStep p skip fin s t 4
  | reads (plain : Plain s t) (on : t.seq.upc.step = s.seq.upc.step + 1) : BaudStep p skip fin s t 5
  | calculates (plain : Plain s t) (on : t.seq.upc.step = s.seq.upc.step + 1)
      (legal : prescLegal t.seq.loc.presc) : BaudStep p skip fin s t 6
  | passes (plain : Plain s t) (on : t.seq.upc.step = s.seq.upc.step + 1) : BaudStep p skip fin s t 7
  | prescales (lpuart : p = .lpuart)
      (issued : t.issued = s.issued ++ [.setPrescaler .lpuart s.seq.loc.presc])
      (usart : t.port .usart = s.port .usart)
      (presc : (t.port .lpuart).presc = (s.port .lpuart).presc ∨
        (t.port .lpuart).presc = s.seq.loc.presc)
      (on : t.seq.upc.step = s.seq.upc.step + 1) : BaudStep p skip fin s t 7
  | divides (v : Word) (issued : t.issued = s.issued ++ [.setDivisor p v])
      (presc : ∀ q, (t.port q).presc = (s.port q).presc)
      (on : t.seq.upc.step = s.seq.upc.step + 1) : BaudStep p skip fin s t 8
  | ends (a : State) (plain : Plain s a) (seq : a.seq = s.seq) (moves : t = fin a) :
      BaudStep p skip fin s t 9

theorem baudSteps_step {p : Port} {baud : Word} {skip fin : State → State} {go more : Bool} {k : Nat}
    {s t : State} (h : baudSteps p baud skip fin go k s = .run t more) :
    BaudStep p skip fin s t k ∧ (k = 9 → more = go) := by
  unfold baudSteps at h
  split at h
  · refine ⟨.asks _ (periphIsEnabled_plain s p) (periphIsEnabled_issues s p).seq ?_, nofun⟩
    dsimp only at h
    split at h <;> cases h
    · exact .inl rfl
    · exact .inr rfl
  · refine ⟨?_, nofun⟩
    have plain := waitFlag_plain advance_keepsOutside h
    obtain ⟨d, k, rfl | ⟨rfl, -⟩⟩ := waitFlag_run h
    · exact .polls plain (by simp [k.issued, pollPrim]) (by simp [k.seq])
    · exact .waits plain (by rw [k.seq])
  · have q := periphDisable_issues s p
    cases h
    exact ⟨.disables q.plain.then_same q.issued (by simp [q.seq]), nofun⟩
  · have q := clkFreq_issues s p
    cases h
    exact ⟨.reads (q.plain_of_env (by rw [q.query])).then_same (by simp [q.seq]), nofun⟩
  · obtain ⟨v, -, -, rfl⟩ := calcStep_run h
    exact ⟨.calculates (plain_of_same rfl rfl) rfl (prescalerFor_legal ..), nofun⟩
  · refine ⟨?_, nofun⟩
    unfold prescStep at h
    split at h
    · cases h; exact .passes (plain_of_same rfl rfl) rfl
    · have q := setPrescaler_issues s .lpuart s.seq.loc.presc
      cases h
      exact .prescales rfl q.issued q.others.1 (q.own.imp (congrArg _) (congrArg _)) (by simp [q.seq])
  · have q := setDivisor_issues s p s.seq.loc.div
    cases h
    exact ⟨.divides _ q.issued (q.field fun _ => rfl) (by simp [q.seq]), nofun⟩
  · have q := periphEnable_issues s p
    cases h
    exact ⟨.ends _ q.plain q.seq rfl, fun _ => rfl⟩
  · cases h

/-! ### Every micro-step -/

/-- The step of a baud change that a command is at; 0 where it has none (30_encoding.md R125). -/
def baudStepOf (i : Instr) (u : Upc) : Nat :=
  match i with
  | .setBaudRate _ _ => u.step
  | .init _ _ => u.step - 9
  | _ => 0

/-- No step of a baud change has issued anything yet, or all have. -/
def AwayFromChange (k : Nat) : Prop := k ≤ 3 ∨ 10 ≤ k

theorem awayFromChange_zero : AwayFromChange 0 := .inl (by decide)

theorem awayFromChange_of_start {i : Instr} {u : Upc} (early : u.step ≤ 2) :
    AwayFromChange (baudStepOf i u) := by
  cases i
  case setBaudRate => exact .inl (by simp only [baudStepOf]; omega)
  case init => exact .inl (by simp only [baudStepOf]; omega)
  all_goals exact awayFromChange_zero

/-- A micro-step of a command is one of a baud change, or plain. -/
inductive BaudRole (i : Instr) (s t : State) (more : Bool) : Prop
  | plain (plain : Plain s t) (away : AwayFromChange (baudStepOf i t.seq.upc))
  | change {baud : Word} {skip fin : State → State} {go : Bool} (sk : KeepsOutside skip)
      (fi : KeepsOutside fin)
      (run : baudSteps (boundPort i.hdr) baud skip fin go (baudStepOf i s.seq.upc) s = .run t more)
      (counter : baudStepOf i t.seq.upc = baudStepOf i s.seq.upc + 1 ∨
        AwayFromChange (baudStepOf i t.seq.upc) ∨ (more = false ∧ t.seq.busy = false))

/-- Where a step of a baud change leaves the counter: at the next step, or where a failed poll or an end of the
step list leaves it. -/
theorem BaudStep.counter {p : Port} {skip fin : State → State} {s t : State} {k : Nat}
    (h : BaudStep p skip fin s t k) :
    t.seq.upc.step = s.seq.upc.step + 1 ∨ (k = 3 ∧ t.seq.upc = s.seq.upc) ∨
      (k = 2 ∧ ∃ a, a.seq = s.seq ∧ t = skip a) ∨ (k = 9 ∧ ∃ a, a.seq = s.seq ∧ t = fin a) := by
  cases h with
  | asks a plain seq moves =>
    rcases moves with rfl | rfl
    · exact .inl (by simp [seq])
    · exact .inr (.inr (.inl ⟨rfl, a, seq, rfl⟩))
  | waits plain stays => exact .inr (.inl ⟨rfl, stays⟩)
  | ends a plain seq moves => exact .inr (.inr (.inr ⟨rfl, a, seq, moves⟩))
  | polls _ _ on | disables _ _ on | reads _ on | calculates _ on _ | passes _ on
  | prescales _ _ _ _ on | divides _ _ _ on => exact .inl on

theorem microSetBaudRate_role {h : Hdr} {baud : Word} {s t : State} {more : Bool}
    (m : bodyOf (.setBaudRate h baud) s = .run t more) : BaudRole (.setBaudRate h baud) s t more := by
  refine .change done_keepsOutside done_keepsOutside m ?_
  obtain ⟨step, last⟩ := baudSteps_step m
  rcases step.counter with on | ⟨three, stays⟩ | ⟨two, a, seq, rfl⟩ | ⟨nine, a, -, rfl⟩
  · exact .inl on
  · exact .inr (.inl (.inl (by rw [baudStepOf, stays, three])))
  · exact .inr (.inl (.inl (by simp [baudStepOf, seq, two])))
  · exact .inr (.inr ⟨last nine, rfl⟩)

/-- A micro-step of `init` before its baud change. -/
theorem init_early {h : Hdr} {baud : Word} {s t u : State} {more : Bool} (plain : Plain s u)
    (seq : u.seq = s.seq) (early : s.seq.upc.step ≤ 10) (m : Micro.next u = .run t more) :
    BaudRole (.init h baud) s t more := by
  refine .plain (plain.next m) (.inl ?_)
  rw [(next_run m).1]
  simp only [baudStepOf, State.advance_seq, seq]
  omega

theorem Issues.init_early {h : Hdr} {baud : Word} {x : Prim} {p : Port} {g : PortEnv → PortEnv}
    {s t u : State} {more : Bool} (q : Issues .sequencer [x] (·.modPort p g) s u)
    (early : s.seq.upc.step ≤ 10) (m : Micro.next u = .run t more)
    (keeps : ∀ e, (g e).presc = e.presc := by intro e; rfl)
    (other : ∀ q, ¬ Prim.isBaudWrite q x := by exact fun _ => id) :
    BaudRole (.init h baud) s t more := Machine.init_early (q.plain keeps other) q.seq early m

/-- Step `k + 9` of `init` is step `k` of a baud change (30_encoding.md R125); both its ends lead to step 19. -/
theorem init_change {h : Hdr} {baud : Word} {k : Nat} {s t : State} {more : Bool}
    (here : s.seq.upc.step = k + 9)
    (run : baudSteps (boundPort h) baud (·.jump 19) State.advance true k s = .run t more) :
    BaudRole (.init h baud) s t more := by
  have step : baudStepOf (.init h baud) s.seq.upc = k := by simp [baudStepOf, here]
  refine .change (jump_keepsOutside 19) advance_keepsOutside (by rw [step]; exact run) ?_
  rcases (baudSteps_step run).1.counter with on | ⟨three, stays⟩ | ⟨-, a, -, rfl⟩ | ⟨nine, a, seq, rfl⟩
  · exact .inl (by rw [step]; simp only [baudStepOf, on, here]; omega)
  · exact .inr (.inl (.inl (by rw [stays, step, three])))
  · exact .inr (.inl (.inr (Nat.le_refl 10)))
  · exact .inr (.inl (.inr (by simp [baudStepOf, seq, here, nine])))

theorem microInit_role {h : Hdr} {baud : Word} {s t : State} {more : Bool}
    (m : bodyOf (.init h baud) s = .run t more) : BaudRole (.init h baud) s t more := by
  change microInit baud (boundPort h) s = .run t more at m
  unfold microInit at m
  split at m
  · next k => exact (busEnable_issues s _).init_early (by omega) m
  · next k => exact (clkSrcSelect_issues s _).init_early (by omega) m
  · next k => exact (pinCfgAF_issues s _ _).init_early (by omega) m
  · next k => exact (pinCfgAF_issues s _ _).init_early (by omega) m
  · next k => exact (periphConfig_issues s _).init_early (by omega) m
  · next k => exact (fifoEnable_issues s _).init_early (by omega) m
  · next k =>
    unfold asyncStep at m
    split at m
    · exact init_early (asyncModeUsart_plain s) (asyncModeUsart_issues s).seq (by omega) m
    · exact init_early (.refl s) rfl (by omega) m
  · next k => exact (periphEnable_issues s _).init_early (by omega) m
  · next k =>
    obtain ⟨d, q, rfl | ⟨rfl, -⟩⟩ := waitAck_run m
    · exact .plain ((q.plain.trans (log_plain d (.flagTEACK _ true))).trans
        (log_plain _ (.flagREACK _ true))).then_same
        (.inl (by simp [baudStepOf, q.seq, k]))
    · exact .plain q.plain (.inl (by simp [baudStepOf, q.seq, k]))
  iterate 8 next k => exact init_change k m
  · next k =>
    have q := errIrqDisable_issues s (boundPort h)
    cases m
    exact .plain q.plain.then_same (.inr (by simp [baudStepOf, q.seq, k]))
  · cases m

/-- Every micro-step after the check, of every command. -/
theorem bodyOf_role {i : Instr} {s t : State} {more : Bool} (h : bodyOf i s = .run t more) :
    BaudRole i s t more := by
  have none := awayFromChange_zero
  cases i
  case init => exact microInit_role h
  case setBaudRate => exact microSetBaudRate_role h
  case isBaudRateSupported hd baud =>
    exact .plain (microIsBaudRateSupported_plain (p := boundPort hd) h) none
  case deinit => exact .plain (microDeinit_plain h) none
  case suspend => exact .plain (microSuspend_plain h) none
  case resume => exact .plain (microResume_plain h) none
  case tx => exact .plain (microTx_plain h) none
  case txWaitComplete => exact .plain (microTxWaitComplete_plain h) none
  case setRxCallback => exact .plain (microSetRxCallback_plain h) none
  case enableDirection => exact .plain (microEnableDirection_plain h) none
  case disableDirection => exact .plain (microDisableDirection_plain h) none
  case getGpioPin => exact .plain (microGetGpioPin_plain h) none

end Sys2Proof.Machine
end

section
/-!
The prescalers (41_baud.md R172, R179): the Usart's is never written and stays 1, the Lpuart's is 1 or 32.
-/

namespace Sys2Proof.Machine

/-! ### The Usart's prescaler -/

/-- A primitive that is no prescaler or divisor write is none of the Usart's prescaler. -/
theorem isUsartPrescaler_of_not_baudWrite {w : Issuer} {x : Prim} (h : ∀ q, ¬ Prim.isBaudWrite q x) :
    LogEntry.isUsartPrescaler ⟨w, x⟩ = false := by
  unfold LogEntry.isUsartPrescaler
  split
  · next v e => cases e; exact absurd rfl (h .usart)
  · rfl

/-- No `SetPrescaler(Usart, _)` is issued, and the Usart's prescaler is kept. -/
structure KeepsUsartPrescaler (s t : State) : Prop where
  issued : ∃ l, t.issued = s.issued ++ l ∧ ∀ x ∈ l, LogEntry.isUsartPrescaler ⟨.sequencer, x⟩ = false
  presc : (t.port .usart).presc = (s.port .usart).presc

theorem Plain.keepsUsartPrescaler {s t : State} (h : Plain s t) : KeepsUsartPrescaler s t := by
  obtain ⟨l, issued, plain⟩ := h.issued
  exact ⟨⟨l, issued, fun x mem => isUsartPrescaler_of_not_baudWrite (plain x mem)⟩, h.presc _⟩

theorem BaudStep.keepsUsartPrescaler {p : Port} {skip fin : State → State} {s t : State} {k : Nat}
    (sk : KeepsOutside skip) (fi : KeepsOutside fin) (h : BaudStep p skip fin s t k) :
    KeepsUsartPrescaler s t := by
  cases h with
  | asks a plain seq moves =>
    rcases moves with rfl | rfl
    · exact (plain.keepsOutside advance_keepsOutside).keepsUsartPrescaler
    · exact (plain.keepsOutside sk).keepsUsartPrescaler
  | prescales lpuart issued usart presc on =>
    exact ⟨⟨_, issued, by simp [LogEntry.isUsartPrescaler]⟩, by rw [usart]⟩
  | divides v issued presc on => exact ⟨⟨_, issued, by simp [LogEntry.isUsartPrescaler]⟩, presc _⟩
  | ends a plain seq moves => rw [moves]; exact (plain.keepsOutside fi).keepsUsartPrescaler
  | waits plain | polls plain | disables plain | reads plain | calculates plain | passes plain =>
    exact plain.keepsUsartPrescaler

theorem bodyOf_keepsUsartPrescaler {i : Instr} {s t : State} {more : Bool}
    (h : bodyOf i s = .run t more) : KeepsUsartPrescaler s t := by
  cases bodyOf_role h with
  | plain plain _ => exact plain.keepsUsartPrescaler
  | change sk fi run _ => exact (baudSteps_step run).1.keepsUsartPrescaler sk fi

/-- The log holds no `SetPrescaler(Usart, _)` entry. -/
def NoUsartPrescaler (s : State) : Prop := ∀ e ∈ s.trc.primlog, e.isUsartPrescaler = false

theorem NoUsartPrescaler.append {s t : State} {l : List LogEntry} (h : NoUsartPrescaler s)
    (log : t.trc.primlog = s.trc.primlog ++ l) (plain : ∀ e ∈ l, e.isUsartPrescaler = false) :
    NoUsartPrescaler t := by
  intro e mem
  rw [log] at mem
  exact (List.mem_append.1 mem).elim (h e) (plain e)

/-- What is issued when the sequencer extends the log. -/
theorem issued_of_log {s t : State} {l : List Prim}
    (log : t.trc.primlog = s.trc.primlog ++ sequencerEntries l) : t.issued = s.issued ++ l := by
  simp [State.issued, log, sequencerEntries, List.filterMap_append, List.filterMap_map]

/-- The primitives by which a micro-step extends the log are those it issues. -/
theorem bodyOf_log {i : Instr} {s t : State} {more : Bool} {l : List Prim}
    (h : bodyOf i s = .run t more) (issued : t.issued = s.issued ++ l) :
    t.trc.primlog = s.trc.primlog ++ sequencerEntries l := by
  obtain ⟨m, log⟩ := (bodyOf_effect h).log
  have same : s.issued ++ m = s.issued ++ l := by rw [← issued, issued_of_log log]
  rw [log, List.append_cancel_left same]

theorem noUsartPrescaler_kept : PhasedInv NoUsartPrescaler fun _ _ => True where
  aside _ _ m h := by
    obtain ⟨l, log, plain⟩ := m.log
    exact h.append log fun e mem => (plain e mem).2
  phase_aside _ _ _ _ _ := id
  reset _ h e mem := by rw [h.primlog] at mem; cases mem
  start _ _ _ := trivial
  body _ _ _ _ m h _ := by
    obtain ⟨l, issued, plain⟩ := (bodyOf_keepsUsartPrescaler m).issued
    exact ⟨h.append (bodyOf_log m issued) (by simpa [sequencerEntries] using plain), .inl trivial⟩

theorem usartPrescaler_kept : PhasedInv (fun s => (s.port .usart).presc = 1) fun _ _ => True where
  aside _ _ m h := (m.presc _).trans h
  phase_aside _ _ _ _ _ := id
  reset _ h := (h.ports .usart).presc
  start _ _ _ := trivial
  body _ _ _ _ m h _ := ⟨(bodyOf_keepsUsartPrescaler m).presc.trans h, .inl trivial⟩

/-- Settles O31: the one micro-step that writes a prescaler writes the Lpuart's. -/
theorem usartPrescalerIsNeverWritten : Obligations.UsartPrescalerIsNeverWritten := by
  refine ⟨fun s t h => ⟨fun none => ?_, fun one => ?_⟩, rfl, fun _ _ => rfl, fun s ref => ?_,
    fun s baud k => by simp only [microInit, k]⟩
  · exact (noUsartPrescaler_kept.step ⟨none, fun _ _ => trivial⟩ h).1
  · exact (usartPrescaler_kept.step ⟨one, fun _ _ => trivial⟩ h).1
  · refine ⟨Config.frame .usart, ?_, rfl⟩
    rw [periphConfig_reference ref.1 ref.2]
    simp [State.frameOf]

/-! ### Both prescalers -/

/-- The two prescalers have values of the calculator, the Usart's being the constant 1. -/
def PrescalersLegal (s : State) : Prop :=
  (s.port .usart).presc = Config.prescLow ∧ prescLegal (s.port .lpuart).presc

theorem PrescalersLegal.of_same {s t : State} (h : PrescalersLegal s)
    (presc : ∀ q, (t.port q).presc = (s.port q).presc) : PrescalersLegal t := by
  simpa only [PrescalersLegal, presc] using h

theorem Plain.prescalersLegal {s t : State} (h : Plain s t) (legal : PrescalersLegal s) :
    PrescalersLegal t := legal.of_same h.presc

/-- The phase of the prescaler invariant, by the step of the baud change. -/
theorem prescPhase_iff (i : Instr) (s : State) :
    prescPhase i s ↔ (baudStepOf i s.seq.upc = 7 → prescLegal s.seq.loc.presc) := by
  cases i
  case init =>
    have numbers : s.seq.upc.step = 16 ↔ s.seq.upc.step - 9 = 7 := by omega
    simp only [prescPhase, baudStepOf, numbers]
  case setBaudRate => rfl
  all_goals exact iff_of_true trivial nofun

theorem prescPhase_of_away {i : Instr} {s : State} (away : AwayFromChange (baudStepOf i s.seq.upc)) :
    prescPhase i s := (prescPhase_iff i s).2 fun seven => by
  rw [seven] at away; exact absurd away (by simp [AwayFromChange])

/-- A step of a baud change programs a legal prescaler if it holds one at step 7, and it holds one after the
calculation. -/
theorem BaudStep.prescalersLegal {p : Port} {skip fin : State → State} {s t : State} {k : Nat}
    (sk : KeepsOutside skip) (fi : KeepsOutside fin) (h : BaudStep p skip fin s t k)
    (legal : PrescalersLegal s) (held : k = 7 → prescLegal s.seq.loc.presc) :
    PrescalersLegal t ∧ (k = 6 → prescLegal t.seq.loc.presc) := by
  cases h with
  | asks a plain seq moves =>
    refine ⟨?_, nofun⟩
    rcases moves with rfl | rfl
    · exact (plain.keepsOutside advance_keepsOutside).prescalersLegal legal
    · exact (plain.keepsOutside sk).prescalersLegal legal
  | prescales lpuart issued usart presc on =>
    refine ⟨⟨by rw [usart]; exact legal.1, ?_⟩, nofun⟩
    rcases presc with e | e <;> rw [e]
    · exact legal.2
    · exact held rfl
  | divides v issued presc on => exact ⟨legal.of_same presc, nofun⟩
  | ends a plain seq moves =>
    rw [moves]; exact ⟨(plain.keepsOutside fi).prescalersLegal legal, nofun⟩
  | calculates plain on calculated => exact ⟨plain.prescalersLegal legal, fun _ => calculated⟩
  | waits plain | polls plain | disables plain | reads plain | passes plain =>
    exact ⟨plain.prescalersLegal legal, nofun⟩

theorem prescInv_kept : PhasedInv PrescalersLegal prescPhase where
  aside s t m h := h.of_same m.presc
  phase_aside i s t m seq h := by
    rw [prescPhase_iff] at h ⊢
    rwa [seq]
  reset s h := ⟨(h.ports _).presc, .inl (h.ports _).presc⟩
  start i s early := prescPhase_of_away (awayFromChange_of_start early)
  body i s t more m legal phase := by
    cases bodyOf_role m with
    | plain plain away => exact ⟨plain.prescalersLegal legal, .inl (prescPhase_of_away away)⟩
    | change sk fi run counter =>
      obtain ⟨kept, calculated⟩ := (baudSteps_step run).1.prescalersLegal sk fi legal
        ((prescPhase_iff i s).1 phase)
      refine ⟨kept, ?_⟩
      rcases counter with on | away | ended
      · exact .inl ((prescPhase_iff i t).2 fun seven => calculated (by omega))
      · exact .inl (prescPhase_of_away away)
      · exact .inr ended

/-- Settles O56: the Lpuart's prescaler is programmed with what the calculation answered one step before. -/
theorem stepKeepsPrescalerInvariant : Obligations.StepKeepsPrescalerInvariant := by
  intro s t ⟨usart, lpuart, phase⟩ h
  obtain ⟨⟨usart', lpuart'⟩, phase'⟩ := prescInv_kept.step ⟨⟨usart, lpuart⟩, phase⟩ h
  exact ⟨usart', lpuart', phase'⟩

end Sys2Proof.Machine
end

section
/-!
The order of a baud change's writes (41_baud.md R173): each comes after a poll of TC that read 1 and, after
that, the disable. First in all that the sequencer has issued, as an invariant of every step; then in what one
burst of `set_baud_rate` adds to the log.
-/

namespace Sys2Proof.Machine

/-! ### Lists of primitives whose baud writes stand after something -/

/-- What stands before each prescaler or divisor write of a port `p` meets `W p`. -/
def WritesAfter (W : Port → List Prim → Prop) (l : List Prim) : Prop :=
  ∀ p a x b, l = a ++ x :: b → Prim.isBaudWrite p x → W p a

theorem WritesAfter.append {W : Port → List Prim → Prop} {l m : List Prim} (h : WritesAfter W l)
    (k : ∀ p a x b, m = a ++ x :: b → Prim.isBaudWrite p x → W p (l ++ a)) : WritesAfter W (l ++ m) := by
  intro p a x b e write
  rcases List.append_eq_append_iff.1 e with ⟨c, rfl, e'⟩ | ⟨c, rfl, e'⟩
  · exact k p c x b e' write
  · cases c with
    | nil => simpa using k p [] x b e'.symm write
    | cons y c =>
      cases e'
      exact h p a x c rfl write

/-- Primitives that are no baud writes. -/
theorem WritesAfter.append_plain {W : Port → List Prim → Prop} {l m : List Prim} (h : WritesAfter W l)
    (plain : ∀ x ∈ m, ∀ q, ¬ Prim.isBaudWrite q x) : WritesAfter W (l ++ m) :=
  h.append fun p a x b e write => absurd write (plain x (by simp [e]) p)

/-- One more primitive. -/
theorem WritesAfter.snoc {W : Port → List Prim → Prop} {l : List Prim} {y : Prim} (h : WritesAfter W l)
    (k : ∀ p, Prim.isBaudWrite p y → W p l) : WritesAfter W (l ++ [y]) := by
  refine h.append fun p a x b e write => ?_
  cases a with
  | nil => cases e; simpa using k p write
  | cons z a => simp at e

theorem writesAfter_nil (W : Port → List Prim → Prop) : WritesAfter W [] := by
  intro p a x b e
  simp at e

/-! ### The invariant of all that has been issued -/

theorem baudPhase_of_away {p : Port} {k : Nat} (s : State) (away : AwayFromChange k) :
    BaudPhase p k s := by
  unfold AwayFromChange at away
  constructor <;> intro here <;> omega

/-- The phase of the ordering invariant, by the step of the baud change. -/
theorem baudPhase_iff (i : Instr) (s : State) :
    baudPhase i s ↔ BaudPhase (boundPort i.hdr) (baudStepOf i s.seq.upc) s := by
  cases i
  case init | setBaudRate => rfl
  all_goals exact iff_of_true trivial (baudPhase_of_away s awayFromChange_zero)

/-- What has been issued, and the values held, are all that a phase speaks of. -/
theorem BaudPhase.of_same {p : Port} {k : Nat} {s t : State} (h : BaudPhase p k s)
    (issued : t.issued = s.issued) (loc : t.seq.loc = s.seq.loc) : BaudPhase p k t := by
  obtain ⟨polled, disabled, measured, writing, written⟩ := h
  constructor <;> simpa only [issued, loc]

theorem baudOrder_kept : PhasedInv (fun s => baudWritesOrdered s.issued) baudPhase where
  aside s t m h := by rw [m.issued]; exact h
  phase_aside i s t m seq h := by
    rw [baudPhase_iff] at h ⊢
    rw [seq]
    exact h.of_same m.issued (by rw [seq])
  reset s h := by
    have none : s.issued = [] := by simp [State.issued, h.primlog]
    rw [none]
    exact writesAfter_nil waited
  start i s early := (baudPhase_iff i s).2 (baudPhase_of_away s (awayFromChange_of_start early))
  body i s t more m ordered phase := by
    have at_away : AwayFromChange (baudStepOf i t.seq.upc) → baudPhase i t := fun away =>
      (baudPhase_iff i t).2 (baudPhase_of_away t away)
    cases bodyOf_role m with
    | plain plain away =>
      obtain ⟨l, issued, others⟩ := plain.issued
      refine ⟨?_, .inl (at_away away)⟩
      rw [issued]
      exact WritesAfter.append_plain (W := waited) ordered others
    | change sk fi run counter =>
      obtain ⟨kept, moved⟩ := baudSteps_order ordered ((baudPhase_iff i s).1 phase) (KeepsOutside.issued sk)
        (KeepsOutside.issued fi) run
      refine ⟨kept, ?_⟩
      rcases counter with on | away | ended
      · refine .inl ?_
        rcases moved with two | nine | next | ⟨three, stays⟩
        · exact at_away (.inl (by omega))
        · exact at_away (.inr (by omega))
        · exact (baudPhase_iff i t).2 (on ▸ next)
        · exact at_away (.inl (by rw [stays]; omega))
      · exact .inl (at_away away)
      · exact .inr ended

/-! ### What one burst of `set_baud_rate` adds -/

/-- A poll of TC that read 1 and, after it, a disable. -/
def waitThenDisable (p : Port) : List Prim := [.flagTC p true, .periphDisable p]

/-- What a run of `set_baud_rate` that began at its wait or before has issued when step `k` is next. -/
def issuedBefore (p : Port) : Nat → List Prim
  | 4 => [.flagTC p true]
  | 5 | 6 | 7 | 8 | 9 => waitThenDisable p
  | _ => []

/-- Of what has been issued after `base`: every baud write comes after the wait and the disable, and what the
steps so far issue is there. -/
def WaitsSince (p : Port) (base : List Prim) (s : State) : Prop :=
  ∃ l, s.issued = base ++ l ∧ WritesAfter (fun q a => (waitThenDisable q).Sublist a) l ∧
    (issuedBefore p s.seq.upc.step).Sublist l

/-- A micro-step that is plain and leads to a step before which no more need have been issued. -/
theorem WaitsSince.plain {p : Port} {base : List Prim} {s t : State} (h : WaitsSince p base s)
    (plain : Plain s t) (next : (issuedBefore p t.seq.upc.step).Sublist (issuedBefore p s.seq.upc.step)) :
    WaitsSince p base t := by
  obtain ⟨l, since, ordered, before⟩ := h
  obtain ⟨m, issued, others⟩ := plain.issued
  exact ⟨l ++ m, by rw [issued, since, List.append_assoc], ordered.append_plain others,
    (next.trans before).trans (List.sublist_append_left l m)⟩

/-- A micro-step that issues `x`. -/
theorem WaitsSince.issues {p : Port} {base : List Prim} {s t : State} {x : Prim} (h : WaitsSince p base s)
    (issued : t.issued = s.issued ++ [x])
    (write : ∀ q, Prim.isBaudWrite q x → waitThenDisable q = issuedBefore p s.seq.upc.step)
    (next : (issuedBefore p t.seq.upc.step).Sublist (issuedBefore p s.seq.upc.step ++ [x])) :
    WaitsSince p base t := by
  obtain ⟨l, since, ordered, before⟩ := h
  exact ⟨l ++ [x], by rw [issued, since, List.append_assoc],
    ordered.snoc fun q w => by rw [write q w]; exact before,
    next.trans (before.append (List.Sublist.refl [x]))⟩

theorem setBaudRate_waitsSince {h : Hdr} {baud : Word} {base : List Prim} {s t : State} {more : Bool}
    (m : bodyOf (.setBaudRate h baud) s = .run t more) (inv : WaitsSince (boundPort h) base s) :
    WaitsSince (boundPort h) base t := by
  have step := (baudSteps_step m).1
  generalize here : s.seq.upc.step = k at step
  cases step with
  | asks a plain seq moves =>
    rcases moves with rfl | rfl <;> refine inv.plain plain.then_same ?_ <;> simp [seq, here, issuedBefore]
  | waits plain stays => exact inv.plain plain (by rw [stays])
  | polls plain issued on =>
    exact inv.issues issued nofun (by rw [on, here]; exact List.Sublist.refl _)
  | disables plain issued on =>
    exact inv.issues issued nofun (by rw [on, here]; exact List.Sublist.refl _)
  | reads plain on | calculates plain on _ | passes plain on =>
    exact inv.plain plain (by rw [on, here]; exact List.Sublist.refl _)
  | prescales lpuart issued usart presc on =>
    refine inv.issues issued (fun q w => ?_) (by rw [on, here]; exact List.sublist_append_left _ _)
    cases w
    rw [here, lpuart]; rfl
  | divides v issued presc on =>
    refine inv.issues issued (fun q w => ?_) (by rw [on, here]; exact List.sublist_append_left _ _)
    cases w
    rw [here]; rfl
  | ends a plain seq moves =>
    subst moves
    refine inv.plain plain.then_same ?_
    simp [seq]

/-- The same by positions in the list. -/
theorem WritesAfter.positions {p : Port} {l : List Prim}
    (h : WritesAfter (fun q a => (waitThenDisable q).Sublist a) l) {k : Nat} {x : Prim} (at_ : l[k]? = some x)
    (write : Prim.isBaudWrite p x) :
    ∃ a b, a < b ∧ b < k ∧ l[a]? = some (.flagTC p true) ∧ l[b]? = some (.periphDisable p) := by
  obtain ⟨lt, rfl⟩ := List.getElem?_eq_some_iff.1 at_
  have before := h p (l.take k) l[k] (l.drop (k + 1)) (by simp) write
  obtain ⟨f, same⟩ := List.sublist_iff_exists_orderEmbedding_getElem?_eq.1 before
  have poll := (same 0).symm
  have disable := (same 1).symm
  simp only [waitThenDisable, List.getElem?_take] at poll disable
  have fits : f 1 < k := by
    by_contra beyond
    simp [beyond] at disable
  have order : f 0 < f 1 := f.lt_iff_lt.2 (by decide)
  exact ⟨f 0, f 1, order, fits, by simpa [order.trans fits] using poll, by simpa [fits] using disable⟩

theorem setBaudRate_writesFollowTheWait {s t : State} {h : Hdr} {baud : Word}
    (run : exec (.setBaudRate h baud) s = .next t) (early : s.seq.upc.step ≤ 3) :
    ∃ l, t.trc.primlog = s.trc.primlog ++ sequencerEntries l ∧
      WritesAfter (fun q a => (waitThenDisable q).Sublist a) l := by
  rcases exec_cases run with ⟨r, -, -, rfl⟩ | ⟨passes, effect⟩
  · exact ⟨[], by simp [sequencerEntries], writesAfter_nil _⟩
  · obtain ⟨l, log⟩ := effect.log
    refine ⟨l, log, ?_⟩
    have nothing : issuedBefore (boundPort h) s.seq.upc.step = [] := by
      interval_cases s.seq.upc.step <;> rfl
    obtain ⟨m, since, ordered, -⟩ : WaitsSince (boundPort h) s.issued t := by
      refine exec_keeps passes (fun a one inv => ?_) (fun a b more => setBaudRate_waitsSince)
        (fun a r inv => inv.plain (plain_of_same rfl rfl) (List.Sublist.refl _)) run
        ⟨[], by simp, writesAfter_nil _, by rw [nothing]⟩
      exact inv.plain (plain_of_same rfl rfl) (by simp [one, issuedBefore])
    have same : s.issued ++ l = s.issued ++ m := by rw [← since, issued_of_log log]
    rw [List.append_cancel_left same]
    exact ordered

/-- Settles O30: the first part is the order in what one run has issued since it began; the second is the
invariant, by the phase of the change in flight. -/
theorem divisorWritesFollowTheWait : Obligations.DivisorWritesFollowTheWait := by
  refine ⟨fun s t h baud run early => ?_, fun s t inv step => baudOrder_kept.step inv step, ?_⟩
  · obtain ⟨l, log, ordered⟩ := setBaudRate_writesFollowTheWait run early
    refine ⟨l, log, fun k x at_ write => ordered.positions at_ ?_⟩
    rcases write with ⟨v, rfl⟩ | ⟨v, rfl⟩ <;> rfl
  · exact Phased.of_idle (I := fun s => baudWritesOrdered s.issued) (baudOrder_kept.reset _ reset_atReset)
      (inFlight_of_idle reset_atReset.busy)

end Sys2Proof.Machine
end

section
/-!
The transmit family (42_transmit.md): `tx_wait_complete` (R201), the two ways `tx` ends at its query, and the
byte loop of `tx` (R200), by induction on the bytes that remain.
-/

namespace Sys2Proof.Machine

/-- A change of no interface field keeps the interface state. -/
theorem Makes.ifc_of_id {p : Port} {c : Change} {s t : State} (m : Makes p c s t) (port : c.port = id)
    (async : c.async = id) : t.ifc = s.ifc := by
  simp [m.ifc, port, async, State.port]

/-- The check step of a command whose check passes. -/
theorem microOf_check {i : Instr} {s : State} (passes : instrFault i = none) (one : s.seq.upc.step = 1) :
    microOf i s = .run (s.jump 2) true := by
  rw [microOf_eq_checked, passes, checked_passes one, advance_eq_jump one]

/-! ### `tx_wait_complete` -/

section
variable {s : State} {h : Hdr}

/-- With the query answered 0 it ends at step 2, whatever answers are listed. -/
theorem exec_txWaitComplete_disabled (start : s.atStart (.txWaitComplete h))
    (valid : handleFault h = none) (ungated : s.build.gatedSafe = false)
    (off : (s.port (boundPort h)).pe = false) :
    let p := boundPort h
    ∃ t, exec (.txWaitComplete h) s = .next t ∧ t.seq.busy = false ∧
      Makes p { prims := [.periphIsEnabled p false] } s t := by
  intro p
  refine exec_of_does start valid ⟨.refl 2 s, .refl p s⟩ ?_ (log_makes p s _)
  simp [bodyOf, microTxWaitComplete, doneUnless, periphIsEnabled_reference, ungated, off]; rfl

/-- With the query and the poll of TC answered 1 it ends at step 3. -/
theorem exec_txWaitComplete_enabled (start : s.atStart (.txWaitComplete h))
    (valid : handleFault h = none) (ungated : s.build.gatedSafe = false)
    (on : (s.port (boundPort h)).pe = true) {rest : List Bool} (polls : s.world.polls = true :: rest) :
    let p := boundPort h
    ∃ t, exec (.txWaitComplete h) s = .next t ∧ t.seq.busy = false ∧
      Makes p { prims := [.periphIsEnabled p true, .flagTC p true], polls := 1 } s t := by
  intro p
  let a := s.log .sequencer (.periphIsEnabled p true)
  have query : bodyOf (.txWaitComplete h) (s.jump 2) = .run (a.jump 3) true := by
    simp [bodyOf, microTxWaitComplete, doneUnless, periphIsEnabled_reference, ungated, on]; rfl
  have polled : bodyOf (.txWaitComplete h) (a.jump 3) =
      .done (((a.withPolls rest).log .sequencer (.flagTC p true)).jump 3) :=
    waitFlag_set (s := a.jump 3) polls .tc p State.done false
  have spent : Makes p { polls := 1 } a (a.withPolls rest) :=
    withPolls_makes p (congrArg (List.drop 1) polls)
  exact exec_of_does start valid (.one query (log_makes p s _)) polled (spent.trans (log_makes p _ _))

end

/-- Settles O34: by what the query answers. -/
theorem txWaitCompleteWritesNothing : Obligations.TxWaitCompleteWritesNothing := by
  intro s h rest start valid ⟨ungated, _⟩ polls p
  cases on : (s.port p).pe
  · obtain ⟨t, run, idle, made⟩ := exec_txWaitComplete_disabled start valid ungated on
    exact ⟨t, run, idle, made.blk_of_drv_id rfl, made.ifc_of_id rfl rfl, made.polls, made.txlog,
      made.cblog, made.primlog⟩
  · have answered := polls on
    obtain ⟨t, run, idle, made⟩ := exec_txWaitComplete_enabled start valid ungated on answered
    exact ⟨t, run, idle, made.blk_of_drv_id rfl, made.ifc_of_id rfl rfl, by simp [made.polls, answered],
      made.txlog, made.cblog, made.primlog⟩

/-! ### The query of `tx` -/

/-- Step 2 of `tx` goes on to the loop exactly if the port is enabled and there is a byte to send. -/
theorem microTx_query {s : State} {p : Port} (bytes : List Byte) (ungated : s.build.gatedSafe = false) :
    let goes := (s.port p).pe && decide (bytes.length ≠ 0)
    let a := s.log .sequencer (.periphIsEnabled p (s.port p).pe)
    microTx bytes p (s.jump 2) = .run (if goes then a.jump 3 else (a.jump 2).done) goes := by
  simp only [microTx, State.jump_seq, periphIsEnabled_reference (s := s.jump 2) ungated]; rfl

/-- Settles O33: the query ends the command on either ground. -/
theorem txDropsSilently : Obligations.TxDropsSilently := by
  intro s h bytes start valid ⟨ungated, _⟩ ground
  have stays : ((s.port (boundPort h)).pe && decide (bytes.length ≠ 0)) = false := by
    obtain off | rfl := ground
    · rw [off, Bool.false_and]
    · exact Bool.and_false _
  have query := microTx_query (p := boundPort h) bytes ungated
  simp only [stays] at query
  obtain ⟨t, run, idle, made⟩ := exec_of_does start valid ⟨.refl 2 s, .refl (boundPort h) s⟩ query
    (log_makes (boundPort h) s _)
  exact ⟨t, run, idle, made.blk_of_drv_id rfl, made.ifc_of_id rfl rfl, made.polls, made.cblog, made.txlog,
    made.primlog⟩

/-! ### The byte loop of `tx` -/

/-- What the loop issues: before each write a poll of TXE that read 1 (R200, corner case 4). -/
def sendPrims (p : Port) (bytes : List Byte) : List Prim :=
  bytes.flatMap fun b => [.flagTXE p true, .writeData p b]

/-- From `s` to `t` the bytes are sent from port `p`, at one listed answer each, and block and interface state
are kept. -/
structure Sends (p : Port) (bytes : List Byte) (s t : State) : Prop where
  blk : t.blk = s.blk
  ifc : t.ifc = s.ifc
  txlog : t.trc.txlog = s.trc.txlog.set p (s.trc.txlog.get p ++ bytes)
  cblog : t.trc.cblog = s.trc.cblog
  primlog : t.trc.primlog = s.trc.primlog ++ sequencerEntries (sendPrims p bytes)
  polls : t.world.polls = s.world.polls.drop bytes.length

theorem Sends.trans {p : Port} {sent todo : List Byte} {s t u : State} (a : Sends p sent s t)
    (b : Sends p todo t u) : Sends p (sent ++ todo) s u where
  blk := b.blk.trans a.blk
  ifc := b.ifc.trans a.ifc
  txlog := by simp [b.txlog, a.txlog]
  cblog := b.cblog.trans a.cblog
  primlog := by simp [b.primlog, a.primlog, sendPrims, sequencerEntries]
  polls := by rw [b.polls, a.polls, List.drop_drop, List.length_append]

/-- A move of the sequencer sends nothing. -/
theorem Sends.modSeq {p : Port} {bytes : List Byte} {s t : State} (a : Sends p bytes s t)
    (f : Seq → Seq) : Sends p bytes s (t.modSeq f) := { a with }

/-- The state after a poll of TXE that read 1, with `rest` the answers still listed. -/
def State.polledTxe (s : State) (p : Port) (rest : List Bool) : State :=
  (s.withPolls rest).log .sequencer (.flagTXE p true)

/-- The state after that poll and the write of a byte, with the index advanced. -/
def State.sentByte (s : State) (p : Port) (rest : List Bool) (b : Byte) : State :=
  ((s.polledTxe p rest).writeData p b).nextIdx

theorem sentByte_sends {s : State} {rest : List Bool} (polls : s.world.polls = true :: rest) (p : Port)
    (b : Byte) : Sends p [b] s (s.sentByte p rest b) where
  blk := rfl
  ifc := rfl
  txlog := rfl
  cblog := rfl
  primlog := List.append_assoc ..
  polls := by rw [polls]; rfl

/-- Step 3 of `tx`, when TXE reads 1. -/
theorem microTx_poll {s : State} {rest : List Bool} (bytes : List Byte) (p : Port)
    (polls : s.world.polls = true :: rest) :
    microTx bytes p (s.jump 3) = .run ((s.polledTxe p rest).jump 4) true :=
  waitFlag_set (s := s.jump 3) polls .txe p State.advance true

/-- Step 4 of `tx`, with the bytes `sent` behind it and `todo` still to come after `b`. -/
theorem microTx_write {s : State} {sent : List Byte} (p : Port) (b : Byte) (todo : List Byte)
    (idx : s.seq.upc.idx = sent.length) :
    let t := (s.writeData p b).nextIdx
    microTx (sent ++ b :: todo) p (s.jump 4) =
      if todo = [] then .done (t.jump 4) else .run (t.jump 3) true := by
  change writeStep p (sent ++ b :: todo) (s.jump 4) = _
  cases todo <;> simp [writeStep, idx] <;> rfl

/-- A later micro-step of a `tx` whose check passes. -/
theorem microOf_tx {h : Hdr} {s : State} {k : Nat} (valid : handleFault h = none) (bytes : List Byte)
    (later : 1 < k) : microOf (.tx h bytes) (s.jump k) = microTx bytes (boundPort h) (s.jump k) := by
  rw [microOf, withPort, valid]
  exact checked_body (s := s.jump k) (Nat.ne_of_gt later)

section
variable {h : Hdr} {s : State} {sent todo : List Byte} {rest : List Bool} (valid : handleFault h = none)
  (b : Byte) (idx : s.seq.upc.idx = sent.length) (turns : s.world.turns = [])
include valid idx turns

/-- The loop's last two micro-steps: the byte `b` is the only one left. -/
theorem tx_sendsLast (polls : s.world.polls = true :: rest) (k : Nat) :
    burst (microOf (.tx h (sent ++ [b]))) (k + 2) (s.jump 3) =
      .next ((s.sentByte (boundPort h) rest b).jump 4).done := by
  have poll := (microOf_tx valid (sent ++ [b]) (by decide)).trans (microTx_poll _ _ polls)
  exact burst_step poll turns
    (burst_last ((microOf_tx valid _ (by decide)).trans (microTx_write _ b [] idx)))

/-- Two micro-steps of the loop that go on with the next byte. -/
theorem tx_sendsNext (polls : s.world.polls = true :: rest) (more : todo ≠ []) {k : Nat} {t : State}
    (run : burst (microOf (.tx h (sent ++ b :: todo))) k
      ((s.sentByte (boundPort h) rest b).jump 3) = .next t) :
    burst (microOf (.tx h (sent ++ b :: todo))) (k + 2) (s.jump 3) = .next t := by
  have poll := (microOf_tx valid (sent ++ b :: todo) (by decide)).trans (microTx_poll _ _ polls)
  have write := (microTx_write (s := s.polledTxe (boundPort h) rest) (boundPort h) b todo idx).trans
    (if_neg more)
  exact burst_step poll turns (burst_step ((microOf_tx valid _ (by decide)).trans write) turns run)

/-- The loop, entered with the bytes `sent` behind it: two micro-steps for every byte that remains. -/
theorem tx_loop (polls : s.world.polls = true :: (List.replicate todo.length true ++ rest)) (k : Nat) :
    ∃ t, burst (microOf (.tx h (sent ++ b :: todo))) (k + 2 * todo.length + 2) (s.jump 3) = .next t ∧
      t.seq.busy = false ∧ Sends (boundPort h) (b :: todo) s t := by
  induction todo generalizing s sent b with
  | nil =>
    exact ⟨_, tx_sendsLast valid b idx turns polls _, rfl,
      ((sentByte_sends polls (boundPort h) b).modSeq _).modSeq _⟩
  | cons c todo ih =>
    let a := s.sentByte (boundPort h) (List.replicate (c :: todo).length true ++ rest) b
    have idx' : a.seq.upc.idx = (sent ++ [b]).length := by rw [List.length_append, ← idx]; rfl
    obtain ⟨t, run, idle, sends⟩ := ih c idx' turns rfl
    rw [← List.append_cons] at run
    exact ⟨t, tx_sendsNext valid b idx turns polls (List.cons_ne_nil c todo) run, idle,
      (sentByte_sends polls (boundPort h) b).trans sends⟩

end

/-- Settles O32: the query goes on to the loop, which sends the whole sequence. -/
theorem txSendsEveryByteInOrder : Obligations.TxSendsEveryByteInOrder := by
  intro s h bytes rest start valid ⟨ungated, _⟩ nonempty on polls p
  obtain ⟨b, todo, rfl⟩ := List.exists_cons_of_ne_nil nonempty
  obtain ⟨-, -, upc, turns⟩ := start
  have check : microOf (.tx h (b :: todo)) s = .run (s.jump 2) true :=
    microOf_check valid (by rw [upc])
  let a := s.log .sequencer (.periphIsEnabled p true)
  have query : microOf (.tx h (b :: todo)) (s.jump 2) = .run (a.jump 3) true := by
    rw [microOf_tx valid _ (by decide), microTx_query _ ungated, on]; rfl
  obtain ⟨t, run, idle, sends⟩ :=
    tx_loop (s := a) (sent := []) valid b (congrArg Upc.idx upc) turns polls 18
  have fuel : fuelOf (.tx h (b :: todo)) = 18 + 2 * todo.length + 2 + 2 := by
    simp only [fuelOf, loopFuel, List.length_cons]; omega
  refine ⟨t, ?run, idle, sends.blk, sends.ifc, ?polls, sends.cblog, ?own, ?other, ?log⟩
  case run =>
    rw [exec_eq_burst, fuel]
    exact burst_step check turns (burst_step query turns run)
  case polls =>
    rw [sends.polls]
    exact (congrArg _ polls).trans (List.drop_left' List.length_replicate)
  case own => rw [sends.txlog, PerPort.get_set_same]; rfl
  case other => rw [sends.txlog, PerPort.get_set_other]; rfl
  case log =>
    rw [sends.primlog]
    exact List.append_assoc ..

end Sys2Proof.Machine
end

section
/-!
Receive (43_receive.md): the two paths of `set_rx_callback` (R215 to R217), one run of the handler (R218,
R221), and what they make of an arrival (R220, R222), in the reference settings of U6 and U9.
-/

namespace Sys2Proof.Machine

theorem rxneIrqEnable_reference {s : State} (ungated : s.build.gatedSafe = false) (p : Port) :
    s.rxneIrqEnable p =
      (s.modPort p fun e => { e with rxneIe := true }).log .sequencer (.rxneIrqEnable p) := by
  rw [State.rxneIrqEnable, regWrite_reference ungated]; rfl

theorem readData_reference {s : State} (ungated : s.build.gatedSafe = false) (p : Port) :
    s.readData p = (s.modPort p fun e => { e with rxne := false }).tick.log (.handler p)
      (.readData p (s.port p).rdr) := by
  rw [State.readData, regWrite_reference ungated, dataByte_reference ungated]; rfl

theorem clearOre_reference {s : State} (ungated : s.build.gatedSafe = false) (p : Port) :
    s.clearOre p = (s.modPort p fun e => { e with ore := false }).log (.handler p) (.clearORE p) := by
  rw [State.clearOre, regWrite_reference ungated]; rfl

/-! ### The non-null registration -/

/-- What the first store of a registration makes of DriverState (43_receive.md R215). -/
def StoreOrder.first (o : StoreOrder) (callback context : Word) (d : Driver) : Driver :=
  match o with
  | .cbThenCtx => { d with cb := callback }
  | .ctxThenCb => { d with ctx := context }

/-- What the second one makes of it. -/
def StoreOrder.second (o : StoreOrder) (callback context : Word) (d : Driver) : Driver :=
  match o with
  | .cbThenCtx => { d with ctx := context }
  | .ctxThenCb => { d with cb := callback }

/-- In either order the two stores leave the pair. -/
theorem StoreOrder.second_comp_first (o : StoreOrder) (callback context : Word) :
    o.second callback context ∘ o.first callback context =
      fun d => { d with cb := callback, ctx := context } := by
  cases o <;> rfl

theorem regSteps_first (p : Port) (callback context : Word) (s : State) :
    regSteps p callback context 2 s = .next (s.modDrv p (s.build.cbStoreOrder.first callback context)) := by
  unfold regSteps
  cases s.build.cbStoreOrder <;> rfl

theorem regSteps_second (p : Port) (callback context : Word) (s : State) :
    regSteps p callback context 3 s = .next (s.modDrv p (s.build.cbStoreOrder.second callback context)) := by
  unfold regSteps
  cases s.build.cbStoreOrder <;> rfl

section
variable {s : State} {h : Hdr} {callback context : Word}

theorem bodyOf_setRxCallback (nonnull : callback ≠ 0) (s : State) :
    bodyOf (.setRxCallback h callback context) s =
      regSteps (boundPort h) callback context s.seq.upc.step s := by
  simp only [bodyOf, microSetRxCallback, nonnull, if_false]

/-- A non-null registration stores the pair, attaches and then enables (43_receive.md R215). -/
theorem exec_setRxCallback (start : s.atStart (.setRxCallback h callback context))
    (valid : handleFault h = none) (ungated : s.build.gatedSafe = false) (nonnull : callback ≠ 0) :
    let p := boundPort h
    ∃ t, exec (.setRxCallback h callback context) s = .next t ∧ t.seq.busy = false ∧
      Makes p
        { prims := [.vecAttach p, .rxneIrqEnable p]
          port := fun e => { e with vec := .attached, rxneIe := true }
          drv := fun d => { d with cb := callback, ctx := context } } s t := by
  intro p
  have body := bodyOf_setRxCallback (h := h) (context := context) nonnull
  have first : Does (.setRxCallback h callback context) p 2 s 3 _ _ :=
    .next (modDrv_makes p s (s.build.cbStoreOrder.first callback context))
      ((body _).trans (regSteps_first ..))
  have second := first.trans
    (.next (modDrv_makes p _ (s.build.cbStoreOrder.second callback context))
      ((body _).trans (regSteps_second ..)))
  have attach := second.trans
    (.write (fun e => { e with vec := .attached }) (.vecAttach p) (body _))
  rw [← s.build.cbStoreOrder.second_comp_first callback context]
  exact exec_of_does start valid attach
    ((body _).trans (congrArg Micro.done (rxneIrqEnable_reference (by exact ungated) p)))
    (write_makes p _ (fun e => { e with rxneIe := true }) (.rxneIrqEnable p))

/-- A null registration masks, detaches and then clears the pair (43_receive.md R216). -/
theorem exec_setRxCallback_null (start : s.atStart (.setRxCallback h 0 context))
    (valid : handleFault h = none) (ungated : s.build.gatedSafe = false) :
    let p := boundPort h
    ∃ t, exec (.setRxCallback h 0 context) s = .next t ∧ t.seq.busy = false ∧
      Makes p
        { prims := [.rxneIrqDisable p, .vecDetach p]
          port := fun e => { e with vec := .detached, rxneIe := false }
          drv := fun d => { d with cb := 0, ctx := 0 } } s t := by
  intro p
  have mask : Does (.setRxCallback h 0 context) p 2 s 3 _ _ :=
    .regWrite (fun e => { e with rxneIe := false }) (.rxneIrqDisable p) ungated rfl
  have detach := mask.trans (.write (fun e => { e with vec := .detached }) (.vecDetach p) rfl)
  have clearCb := detach.trans (.next (modDrv_makes p _ fun d => { d with cb := 0 }) rfl)
  exact exec_of_does start valid clearCb rfl (modDrv_makes p _ fun d => { d with ctx := 0 })

end

/-- Settles O36: the stores, in either order, then the two primitives. -/
theorem registrationArms : Obligations.RegistrationArms := by
  intro s h callback context start valid ⟨ungated, _⟩ nonnull p
  obtain ⟨t, run, idle, made⟩ := exec_setRxCallback start valid ungated nonnull
  have ⟨_, live, _⟩ := start
  exact ⟨t, run, idle, made.fatal.trans live, made.drv, made.port, made.drv_other, made.port_other,
    made.asyncMode, made.txlog, made.cblog, made.primlog⟩

/-- Settles O37: the two primitives, then the stores. -/
theorem unregistrationDisarms : Obligations.UnregistrationDisarms := by
  intro s h context start valid ⟨ungated, _⟩ p
  obtain ⟨t, run, idle, made⟩ := exec_setRxCallback_null start valid ungated
  have ⟨_, live, _⟩ := start
  exact ⟨t, run, idle, made.fatal.trans live, made.drv, made.port, made.drv_other, made.port_other,
    made.asyncMode, made.txlog, made.cblog, made.primlog⟩

/-! ### One run of the handler -/

/-- What a run of the handler of `p` leaves when it finds a byte: the byte is read, which clears RXNE, and
handed to the registered callback (43_receive.md R218). -/
def State.delivered (s : State) (p : Port) : State :=
  (((s.log (.handler p) (.flagRXNE p true)).modPort p fun e => { e with rxne := false }).tick.log
    (.handler p) (.readData p (s.port p).rdr)).cbInvoke p (s.drv p).cb (s.port p).rdr (s.drv p).ctx

section
variable {s : State} {p : Port}

theorem handler_of_byte (ungated : s.build.gatedSafe = false) (byte : (s.port p).rxne = true)
    (registered : (s.drv p).cb ≠ 0) : handler p s = .next (s.delivered p) := by
  let a := s.log (.handler p) (.flagRXNE p true)
  have read := readData_reference (s := a) ungated p
  have given := dataByte_reference (s := a) ungated p
  simp only [handler, flagRxne_reference ungated, byte, if_true, handlerDeliver, State.log_drv, registered,
    if_false]
  rw [read, given]; rfl

/-- Without a byte the handler asks for an overrun, and clears it if there is one. -/
theorem handler_of_empty (ungated : s.build.gatedSafe = false) (empty : (s.port p).rxne = false) :
    handler p s = .next (handlerOverrun p (s.log (.handler p) (.flagRXNE p false))) := by
  simp [handler, flagRxne_reference ungated, empty]

theorem handlerOverrun_set (ungated : s.build.gatedSafe = false) (overrun : (s.port p).ore = true) :
    handlerOverrun p s =
      ((s.log (.handler p) (.flagORE p true)).modPort p fun e => { e with ore := false }).log (.handler p)
        (.clearORE p) := by
  simp [handlerOverrun, flagOre_reference ungated, overrun, clearOre_reference, ungated]

theorem handlerOverrun_clear (ungated : s.build.gatedSafe = false) (noOverrun : (s.port p).ore = false) :
    handlerOverrun p s = s.log (.handler p) (.flagORE p false) := by
  simp [handlerOverrun, flagOre_reference ungated, noOverrun]

/-- An admitted entry is one run of the handler. -/
theorem step_enter {r : List Turn} (turns : s.world.turns = .enter p :: r) (may : s.mayEnter p = true) :
    step s = handler p (s.withTurns r) := by
  simp only [step, move, turns, enterHandler]
  exact if_pos may

end

/-- Settles O39: the admitted entry is one run of the handler, and it finds a byte. -/
theorem handlerDeliversOneByte : Obligations.HandlerDeliversOneByte := by
  intro s p r ⟨ungated, _⟩ turns may byte registered
  let a := s.withTurns r
  refine ⟨a.delivered p, ?_, ?_⟩
  · rw [step_enter turns may]
    exact handler_of_byte (s := a) ungated byte registered
  · simp [State.delivered, handlerEntries, a]

/-- Settles O40: the admitted entry is one run of the handler, which finds no byte; then by ORE. -/
theorem handlerWithoutByteInvokesNothing : Obligations.HandlerWithoutByteInvokesNothing := by
  intro s p r ⟨ungated, _⟩ turns may empty
  let a := (s.withTurns r).log (.handler p) (.flagRXNE p false)
  have run : step s = .next (handlerOverrun p a) := by
    rw [step_enter turns may]
    exact handler_of_empty (s := s.withTurns r) ungated empty
  refine ⟨_, run, ?_⟩
  cases overrun : (s.port p).ore
  · have kept : { s.port p with ore := false } = s.port p := by rw [← overrun]
    simp [handlerOverrun_clear (s := a) ungated overrun, handlerEntries, kept, a]
  · simp [handlerOverrun_set (s := a) ungated overrun, handlerEntries, a]

/-! ### Arrivals -/

/-- Where the interrupt is enabled and the handler attached, a waiting byte admits an entry
(60_exceptions.md R269). -/
theorem mayEnter_of_byte {s : State} {p : Port} (live : s.blk.fatal = false)
    (attached : (s.port p).vec = .attached) (enabled : (s.port p).rxneIe = true)
    (byte : (s.port p).rxne = true) : s.mayEnter p = true := by
  simp [State.mayEnter, State.irqReq, live, attached, enabled, byte]

/-- With the handler detached no entry is possible, whatever is requested. -/
theorem mayEnter_of_detached {s : State} {p : Port} (detached : (s.port p).vec = .detached) :
    s.mayEnter p = false := by
  simp [State.mayEnter, detached]

/-- A byte that arrives at a free receive register of an armed port is delivered by the entry after it. -/
theorem arrival_delivered {s : State} {p : Port} {b : Byte} (ref : s.reference)
    (live : s.blk.fatal = false) (attached : (s.port p).vec = .attached)
    (enabled : (s.port p).rxneIe = true) (free : (s.port p).rxne = false)
    (registered : (s.drv p).cb ≠ 0) :
    ∃ u v, step (s.withTurns [.arrive p b, .enter p]) = .next u ∧ step u = .next v ∧
      v.trc.cblog = s.trc.cblog ++ [⟨p, (s.drv p).cb, b, (s.drv p).ctx⟩] := by
  let u := (s.withTurns [.enter p]).arrive p b
  have full : u.port p = { s.port p with rdr := b, rxne := true } :=
    arrive_port_of_free (s := s.withTurns [.enter p]) b free
  have may : u.mayEnter p = true :=
    mayEnter_of_byte live (by rw [full]; exact attached) (by rw [full]; exact enabled) (by rw [full])
  obtain ⟨v, run, calls, -⟩ :=
    handlerDeliversOneByte u p [] ref rfl may (by rw [full]) registered
  refine ⟨u, v, step_arrive rfl, run, ?_⟩
  rw [calls, full]; rfl

/-- Settles O43: a registration leaves the port armed with its pair, an unregistration leaves the handler
detached, and an arrival writes no vector. -/
theorem deliveryProperties : Obligations.DeliveryProperties := by
  refine ⟨fun s h callback context b start valid ref nonnull free => ?_,
    fun s h context b start valid ⟨ungated, _⟩ => ?_⟩
  · obtain ⟨t, run, idle, made⟩ := exec_setRxCallback start valid ref.1 nonnull
    have ⟨_, live, _⟩ := start
    have port := made.port
    have settings : t.reference := by rw [State.reference, made.build]; exact ref
    obtain ⟨u, v, arrives, delivers, calls⟩ := arrival_delivered (b := b) settings
      (made.fatal.trans live) (by rw [port]) (by rw [port]) (by rw [port]; exact free)
      (by rw [made.drv]; exact nonnull)
    exact ⟨t, u, v, run, idle, arrives, delivers, by rw [calls, made.cblog, made.drv]⟩
  · obtain ⟨t, run, idle, made⟩ := exec_setRxCallback_null start valid ungated
    have detached : (t.port (boundPort h)).vec = .detached := by rw [made.port]
    exact ⟨t, _, run, idle, detached, by rw [made.port], step_arrive rfl, made.cblog,
      mayEnter_of_detached (((arrive_outsideMove ..).vec _).trans detached)⟩

/-! ### The torn pair -/

/-- A command past its check step answers its next micro-step's state where a handler is to be entered right
after it (60_exceptions.md R270). -/
theorem exec_of_body_before_enter {i : Instr} {s t : State} {p : Port} {r : List Turn}
    (passes : instrFault i = none) (later : s.seq.upc.step ≠ 1) (h : bodyOf i s = .run t true)
    (turns : t.world.turns = .enter p :: r) : exec i s = .next t := by
  obtain ⟨k, fuel⟩ := fuelOf_eq i
  rw [exec_eq_burst, microOf_eq_checked, passes, fuel]
  simp [burst, checked_body later, h, turns]

/-- Step 2 of a registration, with an entry after it: the first store alone. -/
theorem exec_setRxCallback_first {s : State} {h : Hdr} {callback context : Word} {p : Port}
    {r : List Turn} (valid : handleFault h = none) (nonnull : callback ≠ 0) (two : s.seq.upc.step = 2)
    (turns : s.world.turns = .enter p :: r) :
    exec (.setRxCallback h callback context) s =
      .next (s.modDrv (boundPort h) (s.build.cbStoreOrder.first callback context)).advance := by
  refine exec_of_body_before_enter valid (by simp [two]) ?_ turns
  rw [bodyOf_setRxCallback nonnull, two, regSteps_first]; rfl

/-- Between the stores the registered callback is non-null if the old one and the new one are. -/
theorem StoreOrder.first_cb_ne_zero (o : StoreOrder) {callback : Word} (context : Word) {d : Driver}
    (nonnull : callback ≠ 0) (old : d.cb ≠ 0) : (o.first callback context d).cb ≠ 0 := by
  cases o
  · exact nonnull
  · exact old

/-- Settles O44: the handler delivers the byte to what the first store left of the pair. -/
theorem handlerBetweenStoresSeesATornPair : Obligations.HandlerBetweenStoresSeesATornPair := by
  intro s h callback context r valid ref nonnull _ two turns may byte old
  let t := (s.modDrv (boundPort h) (s.build.cbStoreOrder.first callback context)).advance
  have pair : t.drv (boundPort h) = s.build.cbStoreOrder.first callback context (s.drv (boundPort h)) :=
    State.modDrv_drv ..
  obtain ⟨u, run, calls, -⟩ := handlerDeliversOneByte t (boundPort h) r ref turns may byte
    (by rw [pair]; exact StoreOrder.first_cb_ne_zero _ _ nonnull old)
  refine ⟨t, u, exec_setRxCallback_first valid nonnull two turns, run, ?_⟩
  rw [calls, pair]
  cases s.build.cbStoreOrder <;> rfl

end Sys2Proof.Machine
end

section
/-!
The direction family (44_direction.md): the register write and the pin configuration of `enable_direction`
(R240) and `disable_direction` (R241), which keep everything but their own direction (R243), and the answer of
`get_gpio_pin` (R242).
-/

namespace Sys2Proof.Machine

/-- What a direction command makes of its port: the enable bit and the pin of the direction `d`. -/
def directionChange (d : Dir) (enabled : Bool) (pin : PinCfg) (prims : List Prim) : Change where
  prims := prims
  port e := { e with dirEn := e.dirEn.set d enabled, pins := e.pins.set d pin }

section
variable {p : Port} {d : Dir} {enabled : Bool} {pin : PinCfg} {prims : List Prim} {s t : State}
  (made : Makes p (directionChange d enabled pin prims) s t)
include made

theorem Makes.pin_other_direction : (t.port p).pins.get d.other = (s.port p).pins.get d.other := by
  rw [made.port]; exact PerDir.get_set_other ..

theorem Makes.dirEn_other_direction : (t.port p).dirEn.get d.other = (s.port p).dirEn.get d.other := by
  rw [made.port]; exact PerDir.get_set_other ..

end

section
variable {s : State} {h : Hdr} (valid : handleDirFault h = none) (ungated : s.build.gatedSafe = false)
include valid ungated

/-- `enable_direction` sets the direction's enable bit, then routes its pin (44_direction.md R240). -/
theorem exec_enableDirection (start : s.atStart (.enableDirection h)) :
    let p := boundPort h
    let d := boundDir h
    let desc := Config.descOf p
    ∃ t, exec (.enableDirection h) s = .next t ∧ t.seq.busy = false ∧
      Makes p (directionChange d true (.altFn desc.af)
        [.dirEnable p d, .pinCfgAF (desc.pin.get d) desc.af]) s t := by
  intro p d desc
  have enable : Does (.enableDirection h) p 2 s 3 _ _ :=
    .regWrite (fun e => { e with dirEn := e.dirEn.set d true }) (.dirEnable p d) ungated rfl
  exact exec_of_does start valid enable rfl
    (write_makes p _ (fun e => { e with pins := e.pins.set d (.altFn desc.af) }) _)

/-- `disable_direction` clears the direction's enable bit, then parks its pin (44_direction.md R241). -/
theorem exec_disableDirection (start : s.atStart (.disableDirection h)) :
    let p := boundPort h
    let d := boundDir h
    ∃ t, exec (.disableDirection h) s = .next t ∧ t.seq.busy = false ∧
      Makes p (directionChange d false .analog
        [.dirDisable p d, .pinCfgAnalog ((Config.descOf p).pin.get d)]) s t := by
  intro p d
  have disable : Does (.disableDirection h) p 2 s 3 _ _ :=
    .regWrite (fun e => { e with dirEn := e.dirEn.set d false }) (.dirDisable p d) ungated rfl
  exact exec_of_does start valid disable rfl
    (write_makes p _ (fun e => { e with pins := e.pins.set d .analog }) _)

end

/-- Settles O45: the two micro-steps change one direction of the port, and a change of one port's fields
leaves the rest. -/
theorem enableDirectionTouchesOneDirection : Obligations.EnableDirectionTouchesOneDirection := by
  intro s h start valid ⟨ungated, _⟩ p d af
  obtain ⟨t, run, idle, made⟩ := exec_enableDirection valid ungated start
  exact ⟨t, run, idle, made.blk_of_drv_id rfl, made.port, made.pin_other_direction,
    made.dirEn_other_direction, made.port_other, made.asyncMode, made.txlog, made.cblog, made.primlog⟩

/-- Settles O46: likewise, by the change `disable_direction` makes. -/
theorem disableDirectionTouchesOneDirection : Obligations.DisableDirectionTouchesOneDirection := by
  intro s h start valid ⟨ungated, _⟩ p d
  obtain ⟨t, run, idle, made⟩ := exec_disableDirection valid ungated start
  exact ⟨t, run, idle, made.blk_of_drv_id rfl, made.port, made.pin_other_direction,
    made.dirEn_other_direction, made.port_other, made.asyncMode, made.txlog, made.cblog, made.primlog⟩

/-- `get_gpio_pin` ends at its step 2, in every build, with the pin identifier as its response
(44_direction.md R242). -/
theorem exec_getGpioPin {s : State} {h : Hdr} (start : s.atStart (.getGpioPin h))
    (valid : handleDirFault h = none) :
    exec (.getGpioPin h) s = .next
      ((s.jump 2).doneWith ((Config.descOf (boundPort h)).pin.get (boundDir h))) :=
  exec_of_leads start valid (.refl 2 s) rfl (by decide)

/-- Settles O47: the response is all that the one micro-step after the check writes. -/
theorem getGpioPinAnswersTheTable : Obligations.GetGpioPinAnswersTheTable := by
  intro s h start valid
  exact ⟨_, exec_getGpioPin start valid, rfl, rfl, rfl, rfl, rfl, rfl⟩

end Sys2Proof.Machine
end

section
/-!
The fault of the block (60_exceptions.md): where it is raised (R261, R263), that a faulted block takes no step
(R264), when a handler is entered and what it writes (R269 to R276), and the one undefined case a run can stop
on (R266).
-/

namespace Sys2Proof.Machine

/-! ### The check step -/

/-- A command at its check step raises the fault of its check and does nothing else (R261). -/
theorem exec_raises {i : Instr} {s : State} {r : FatalReason} (one : s.seq.upc.step = 1)
    (fails : instrFault i = some r) : exec i s = .next (s.raiseFatal r) := by
  obtain ⟨k, fuel⟩ := fuelOf_eq i
  rw [exec_eq_burst, microOf_eq_checked, fails, fuel]
  exact burst_last (checked_raises one)

/-- A check that passes only moves the counter on, seen where a handler is to be entered right after it. -/
theorem exec_passes_before_enter {i : Instr} {s : State} {p : Port} {r : List Turn}
    (one : s.seq.upc.step = 1) (passes : instrFault i = none) (turns : s.world.turns = .enter p :: r) :
    exec i s = .next s.advance := by
  obtain ⟨k, fuel⟩ := fuelOf_eq i
  rw [exec_eq_burst, microOf_eq_checked, passes, fuel]
  simp [burst, checked_passes one, turns]

/-- Only format D checks its direction (R263). -/
theorem instrFault_eq (i : Instr) :
    instrFault i = if i.op.format = .D then handleDirFault i.hdr else handleFault i.hdr := by
  unfold instrFault
  cases i.op.format <;> rfl

/-- The handle is tested before the direction. -/
theorem instrFault_of_handleFault {i : Instr} {r : FatalReason} (fails : handleFault i.hdr = some r) :
    instrFault i = some r := by
  rw [instrFault_eq, handleDirFault, fails, ite_self]

theorem handleFault_null {h : Hdr} (null : h.hv = false) : handleFault h = some .nullHandle :=
  if_pos null

theorem handleFault_port {h : Hdr} (valid : h.hv = true) (port : 2 ≤ h.port.toNat) :
    handleFault h = some .portRange := by
  rw [handleFault, if_neg (by simp [valid]), if_pos (by exact port)]

theorem handleFault_none {h : Hdr} (valid : h.hv = true) (port : h.port.toNat < 2) :
    handleFault h = none := by
  rw [handleFault, if_neg (by simp [valid]), if_neg (by exact Nat.not_le.2 port)]

/-- With a valid handle the direction decides, and only in format D. -/
theorem instrFault_of_handle {i : Instr} (handle : handleFault i.hdr = none) :
    instrFault i = if i.op.format = .D ∧ 2 ≤ i.hdr.dir.toNat then some .dirRange else none := by
  rw [instrFault_eq, handleDirFault, handle, ite_and]; rfl

/-- Settles O10: by the first test that fails; the last clause is the packet no row of the opcode map
selects. -/
theorem checkStepRaisesAtTheFirstFailedTest : Obligations.CheckStepRaisesAtTheFirstFailedTest := by
  intro s one
  refine ⟨fun i => ⟨fun null => ?_, fun valid port => ?_, fun valid port format dir => ?_,
    fun valid port dir p r turns => ?_⟩, fun live busy turns op reserved => ?_⟩
  · exact exec_raises one (instrFault_of_handleFault (handleFault_null null))
  · exact exec_raises one (instrFault_of_handleFault (handleFault_port valid port))
  · refine exec_raises one (r := .dirRange) ?_
    rw [instrFault_of_handle (handleFault_none valid port), if_pos ⟨format, dir⟩]
  · refine exec_passes_before_enter one ?_ turns
    rw [instrFault_of_handle (handleFault_none valid port),
      if_neg fun ⟨format, bad⟩ => absurd (dir format) (Nat.not_lt.2 bad)]
  · have unselected : selectRow s.seq.x0 = none := (reservedHeadersSelectNothing _).2 reserved
    have illegal : decode (latched s.seq) = .error .illegalCommand := by
      rw [latched_of_none unselected, decode, unselected]
    rw [step_of_no_turns turns, sequencerTurn_of_busy live busy, runLatched_raises op one illegal]
    rfl

/-- Settles O11: a command raises at its check step or keeps the latch. -/
theorem onlyTheCheckStepRaises : Obligations.OnlyTheCheckStepRaises := by
  intro i s t live h fatal
  rcases exec_cases h with ⟨r, fails, one, raised⟩ | ⟨-, e⟩
  · exact ⟨one, r, fails, raised⟩
  · rw [e.fatal, live] at fatal
    cases fatal

/-! ### The faulted block, and the entry of a handler -/

theorem step_enter_eq {s : State} {p : Port} {r : List Turn} (turns : s.world.turns = .enter p :: r) :
    step s = enterHandler p (s.withTurns r) := by
  simp [step, move, turns]

theorem step_reset {s : State} {r : List Turn} (turns : s.world.turns = .reset :: r) :
    step s = .next (s.withTurns r).resetEvent := by
  simp [step, move, turns]

/-- Settles O13: by the agent whose turn it is. -/
theorem faultedBlockTakesNoStep : Obligations.FaultedBlockTakesNoStep := by
  intro s fatal
  refine ⟨fun turns => ?_, fun r turns => ?_, fun p r turns => ?_, fun p b r turns => step_arrive turns,
    fun r turns => ⟨_, step_reset turns, (resetEvent_atReset _).fatal⟩⟩
  · rw [step_of_no_turns turns, sequencerTurn_of_fatal fatal]
  · rw [step_quiet turns, sequencerTurn_of_fatal (s := s.withTurns r) fatal]
  · rw [step_enter_eq turns, enterHandler_of_fatal (s := s.withTurns r) fatal]

/-- The entry condition (R269), as the rule states it. -/
theorem mayEnter_iff {s : State} {p : Port} :
    s.mayEnter p = true ↔ s.blk.fatal = false ∧ (s.port p).vec = .attached ∧
      (((s.port p).rxneIe = true ∧ ((s.port p).rxne = true ∨ (s.port p).ore = true)) ∨
        s.build.spuriousIrq = true) := by
  simp [State.mayEnter, State.irqReq, and_assoc]

/-- Settles O38: the listed entry is a run of the handler where the condition holds, and no event
elsewhere. -/
theorem handlerEntryCondition : Obligations.HandlerEntryCondition := by
  refine fun s p => ⟨mayEnter_iff, fun r turns => ⟨step_enter turns, fun may => ?_⟩⟩
  have barred : ¬ (s.withTurns r).mayEnter p = true := Bool.eq_false_iff.1 may
  rw [step_enter_eq turns, enterHandler, if_neg barred]

/-! ### What a handler does -/

/-- What a handler run that answers a next state can be (43_receive.md R218): a delivery, or the query of the
overrun flag with or without its clearing. -/
theorem handler_cases {p : Port} {s t : State} (h : handler p s = .next t) :
    (∃ c b x, t = ((s.flagRxne p).state.readData p).cbInvoke p c b x) ∨
      t = ((s.flagRxne p).state.flagOre p).state.clearOre p ∨
      t = ((s.flagRxne p).state.flagOre p).state := by
  simp only [handler, handlerDeliver, handlerOverrun] at h
  split at h
  · split at h
    · cases h
    · cases h; exact .inl ⟨_, _, _, rfl⟩
  · split at h
    · cases h; exact .inr (.inl rfl)
    · cases h; exact .inr (.inr rfl)

/-- A handler stops only where no callback is registered (43_receive.md R218 step 3). -/
theorem handler_fault {p : Port} {s : State} {f : Fault} (h : handler p s = .fault f) :
    (s.drv p).cb = 0 := by
  simp only [handler, handlerDeliver] at h
  split at h
  · split at h
    · next unregistered => rwa [(flagRxne_issues s p).drv] at unregistered
    · cases h
  · cases h

/-- A change of a port's fields that touches the two receive flags only. -/
def FlagsOnly (e f : PortEnv) : Prop := f = { e with rxne := f.rxne, ore := f.ore }

theorem FlagsOnly.trans {e f g : PortEnv} (h : FlagsOnly e f) (k : FlagsOnly f g) : FlagsOnly e g := by
  rw [FlagsOnly] at h k ⊢
  rw [k, h]

/-- What the primitives of `Handler(p)` leave alone (R271, R276). -/
structure HandlerKeeps (p : Port) (s t : State) : Prop where
  blk : t.blk = s.blk
  seq : t.seq = s.seq
  build : t.build = s.build
  cmds : t.world.cmds = s.world.cmds
  txlog : t.trc.txlog = s.trc.txlog
  asyncMode : t.ifc.asyncMode = s.ifc.asyncMode
  other : t.port p.other = s.port p.other
  own : FlagsOnly (s.port p) (t.port p)

theorem HandlerKeeps.trans {p : Port} {s t u : State} (h : HandlerKeeps p s t)
    (k : HandlerKeeps p t u) : HandlerKeeps p s u where
  blk := k.blk.trans h.blk
  seq := k.seq.trans h.seq
  build := k.build.trans h.build
  cmds := k.cmds.trans h.cmds
  txlog := k.txlog.trans h.txlog
  asyncMode := k.asyncMode.trans h.asyncMode
  other := k.other.trans h.other
  own := h.own.trans k.own

/-- A query writes no interface state. -/
theorem Issues.query_handlerKeeps {w : Issuer} {x : List Prim} {s t : State} (h : Issues w x id s t)
    (p : Port) : HandlerKeeps p s t := by
  have port : ∀ q, t.port q = s.port q := fun q => by rw [State.port, h.query, State.port]
  exact ⟨h.blk, h.seq, h.build, h.cmds, h.txlog, by rw [h.query], port _, by rw [port]; rfl⟩

/-- A primitive that may write its port's receive flags. -/
theorem Issues.handlerKeeps {w : Issuer} {x : List Prim} {p : Port} {g : PortEnv → PortEnv} {s t : State}
    (h : Issues w x (·.modPort p g) s t) (flags : ∀ e, FlagsOnly e (g e)) : HandlerKeeps p s t := by
  refine ⟨h.blk, h.seq, h.build, h.cmds, h.txlog, h.others.2, h.others.1, ?_⟩
  rcases h.own with same | written
  · rw [same]; rfl
  · rw [written]; exact flags _

theorem cbInvoke_handlerKeeps (s : State) (p : Port) (c : Word) (b : Byte) (x : Word) :
    HandlerKeeps p s (s.cbInvoke p c b x) := by
  constructor <;> rfl

/-- One run of a handler. -/
theorem handler_keeps {p : Port} {s t : State} (h : handler p s = .next t) : HandlerKeeps p s t := by
  have polled := (flagRxne_issues s p).query_handlerKeeps p
  have asked := polled.trans ((flagOre_issues _ p).query_handlerKeeps p)
  rcases handler_cases h with ⟨c, b, x, rfl⟩ | rfl | rfl
  · exact (polled.trans ((readData_issues _ p).handlerKeeps fun _ => rfl)).trans (cbInvoke_handlerKeeps ..)
  · exact asked.trans ((clearOre_issues _ p).handlerKeeps fun _ => rfl)
  · exact asked

/-- Settles O41: an entry that is no event writes nothing, and a handler run is its primitives. -/
theorem handlersWriteNothingOfTheBlock : Obligations.HandlersWriteNothingOfTheBlock := by
  intro s t p r turns h
  have keeps : HandlerKeeps p s t := by
    rw [step_enter_eq turns, enterHandler] at h
    split at h
    · exact { handler_keeps h with }
    · cases h; constructor <;> rfl
  exact ⟨keeps.blk, keeps.seq, keeps.build, keeps.cmds, keeps.txlog, keeps.asyncMode, keeps.other,
    keeps.own⟩

/-! ### Where the model stops

Each micro-program has a micro-step for every number from 2 to its operation's last (10_state.md R24), and
none of them stops but the calculation. -/

theorem baudSteps_stop {p : Port} {baud : Word} {skip fin : State → State} {go : Bool} {k : Nat}
    {s : State} {f : Fault} (first : 2 ≤ k) (last : k ≤ 9)
    (h : baudSteps p baud skip fin go k s = .stop f) : f = .baudZero := by
  unfold baudSteps at h
  split at h
  case h_5 => exact (calcStep_stop h).2
  case h_6 => cases p <;> cases h
  case h_9 => grind
  all_goals cases h

theorem nullRegSteps_no_stop {p : Port} {fin : State → State} {go : Bool} {k : Nat} {s : State} {f : Fault}
    (first : 2 ≤ k) (last : k ≤ 5) : nullRegSteps p fin go k s ≠ .stop f := by
  unfold nullRegSteps
  split
  case h_5 => grind
  all_goals nofun

theorem regSteps_no_stop {p : Port} {callback context : Word} {k : Nat} {s : State} {f : Fault}
    (first : 2 ≤ k) (last : k ≤ 5) : regSteps p callback context k s ≠ .stop f := by
  unfold regSteps
  split
  case h_1 | h_2 => cases s.build.cbStoreOrder <;> nofun
  case h_5 => grind
  all_goals nofun

theorem microInit_stop {p : Port} {baud : Word} {s : State} {f : Fault} (first : 2 ≤ s.seq.upc.step)
    (last : s.seq.upc.step ≤ 19) (h : microInit baud p s = .stop f) : f = .baudZero := by
  unfold microInit at h
  split at h
  case h_7 => cases p <;> cases h
  case h_10 | h_11 | h_12 | h_13 | h_14 | h_15 | h_16 | h_17 =>
    exact baudSteps_stop (by decide) (by decide) h
  case h_19 => grind
  all_goals cases h

theorem microDeinit_no_stop {p : Port} {s : State} {f : Fault} (first : 2 ≤ s.seq.upc.step)
    (last : s.seq.upc.step ≤ 11) : microDeinit p s ≠ .stop f := by
  unfold microDeinit
  split
  case h_1 | h_2 | h_3 | h_4 => exact nullRegSteps_no_stop (by decide) (by decide)
  case h_11 => grind
  all_goals nofun

theorem microIsBaudRateSupported_no_stop {p : Port} {baud : Word} {s : State} {f : Fault} (first : 2 ≤ s.seq.upc.step)
    (last : s.seq.upc.step ≤ 2) : microIsBaudRateSupported baud p s ≠ .stop f := by
  unfold microIsBaudRateSupported
  split
  case h_2 => grind
  all_goals nofun

theorem microSuspend_no_stop {p : Port} {s : State} {f : Fault} (first : 2 ≤ s.seq.upc.step)
    (last : s.seq.upc.step ≤ 4) : microSuspend p s ≠ .stop f := by
  unfold microSuspend
  split
  case h_4 => grind
  all_goals nofun

theorem microResume_no_stop {p : Port} {s : State} {f : Fault} (first : 2 ≤ s.seq.upc.step)
    (last : s.seq.upc.step ≤ 4) : microResume p s ≠ .stop f := by
  unfold microResume
  split
  case h_1 => split <;> nofun
  case h_4 => grind
  all_goals nofun

theorem microTxWaitComplete_no_stop {p : Port} {s : State} {f : Fault} (first : 2 ≤ s.seq.upc.step)
    (last : s.seq.upc.step ≤ 3) : microTxWaitComplete p s ≠ .stop f := by
  unfold microTxWaitComplete
  split
  case h_3 => grind
  all_goals nofun

theorem microEnableDirection_no_stop {p : Port} {d : Dir} {s : State} {f : Fault} (first : 2 ≤ s.seq.upc.step)
    (last : s.seq.upc.step ≤ 3) : microEnableDirection p d s ≠ .stop f := by
  unfold microEnableDirection
  split
  case h_3 => grind
  all_goals nofun

theorem microDisableDirection_no_stop {p : Port} {d : Dir} {s : State} {f : Fault} (first : 2 ≤ s.seq.upc.step)
    (last : s.seq.upc.step ≤ 3) : microDisableDirection p d s ≠ .stop f := by
  unfold microDisableDirection
  split
  case h_3 => grind
  all_goals nofun

theorem microGetGpioPin_no_stop {p : Port} {d : Dir} {s : State} {f : Fault} (first : 2 ≤ s.seq.upc.step)
    (last : s.seq.upc.step ≤ 2) : microGetGpioPin p d s ≠ .stop f := by
  unfold microGetGpioPin
  split
  case h_2 => grind
  all_goals nofun

/-- The byte step of `tx` has a byte to write while the index is below the length. -/
theorem microTx_no_stop {h : Hdr} {bytes : List Byte} {p : Port} {s : State} {f : Fault}
    (first : 2 ≤ s.seq.upc.step) (last : s.seq.upc.step ≤ 4) (idx : idxOk (.tx h bytes) s.seq.upc) :
    microTx bytes p s ≠ .stop f := by
  unfold microTx
  split
  case h_3 four =>
    have below : s.seq.upc.idx < bytes.length := idx.2 (by omega)
    rw [writeStep, List.getElem?_eq_getElem below]
    dsimp only
    split <;> nofun
  case h_4 => grind
  all_goals nofun

/-- A micro-step after the check, of any command, stops only for baud 0. -/
theorem bodyOf_stop {i : Instr} {s : State} {f : Fault} (first : 2 ≤ s.seq.upc.step)
    (last : s.seq.upc.step ≤ lastStep i.op) (idx : idxOk i s.seq.upc) (h : bodyOf i s = .stop f) :
    f = .baudZero := by
  cases i
  case init => exact microInit_stop first last h
  case setBaudRate => exact baudSteps_stop first last h
  case deinit => exact absurd h (microDeinit_no_stop first last)
  case tx => exact absurd h (microTx_no_stop first last idx)
  case setRxCallback hd callback context =>
    refine absurd h ?_
    rw [bodyOf, microSetRxCallback]
    split
    · exact nullRegSteps_no_stop first last
    · exact regSteps_no_stop first last
  case isBaudRateSupported hd baud =>
    exact absurd h (microIsBaudRateSupported_no_stop (p := boundPort hd) first last)
  case suspend => exact absurd h (microSuspend_no_stop first last)
  case resume => exact absurd h (microResume_no_stop first last)
  case txWaitComplete => exact absurd h (microTxWaitComplete_no_stop first last)
  case enableDirection => exact absurd h (microEnableDirection_no_stop first last)
  case disableDirection => exact absurd h (microDisableDirection_no_stop first last)
  case getGpioPin => exact absurd h (microGetGpioPin_no_stop first last)

/-- A command on one of its micro-steps, past the check only if the check passed, stops only for baud 0. -/
theorem exec_stop {i : Instr} {s : State} {f : Fault} (at_ : AtMicroStep i.op s.seq.upc)
    (passes : 1 < s.seq.upc.step → instrFault i = none) (idx : idxOk i s.seq.upc)
    (h : exec i s = .fault f) : f = .baudZero := by
  have stop : checked (instrFault i) (bodyOf i) s = .stop f := by
    rw [← microOf_eq_checked]; exact exec_fault h
  obtain ⟨one, last⟩ := at_
  rcases one.eq_or_lt with one | later
  · cases fails : instrFault i with
    | none => rw [fails, checked_passes one.symm] at stop; cases stop
    | some r => rw [fails, checked_raises one.symm] at stop; cases stop
  · rw [passes later, checked_body (Nat.ne_of_gt later)] at stop
    exact bodyOf_stop later last idx stop

/-- The latches and the counter of a command in flight agree, and a packet that is no command is at its check
step, which raises. -/
theorem runLatched_stop {s : State} {f : Fault} (live : s.blk.fatal = false) (busy : s.seq.busy = true)
    (inv : s.upcInv) (h : runLatched s = .fault f) : f = .baudZero := by
  obtain ⟨op, at_⟩ := inv.2 busy live
  rw [runLatched, if_neg (not_not.2 op)] at h
  split at h
  · next i d =>
    rw [d] at at_
    obtain ⟨one, last, passes, idx⟩ := at_
    exact exec_stop ⟨one, last⟩ passes idx h
  · next d =>
    rw [d] at at_
    have stop : microIllegal s = .stop f := burst_fault h
    rw [microIllegal, checked_raises at_] at stop
    cases stop
  · cases h

theorem beginAccepted_stop {s : State} {f : Fault} (live : s.blk.fatal = false) (busy : s.seq.busy = true)
    (inv : s.upcInv) (h : beginAccepted s = .fault f) : f = .baudZero := by
  unfold beginAccepted at h
  split at h
  · exact runLatched_stop live busy inv h
  · next r _ => exact runLatched_stop (s := s.withTurns r) live busy inv h
  all_goals cases h

theorem sequencerTurn_stop {s : State} {f : Fault} (inv : s.upcInv) (h : sequencerTurn s = .fault f) :
    f = .baudZero := by
  cases live : s.blk.fatal with
  | true => rw [sequencerTurn_of_fatal live] at h; cases h
  | false =>
  cases busy : s.seq.busy with
  | true => rw [sequencerTurn_of_busy live busy] at h; exact runLatched_stop live busy inv h
  | false =>
  cases cmds : s.world.cmds with
  | nil => simp [sequencerTurn, live, busy, cmds] at h
  | cons pk rest =>
    by_cases d : decode pk = .error .badLength
    · simp [sequencerTurn, live, busy, cmds, d] at h
    · rw [sequencerTurn_of_idle live busy cmds d] at h
      exact beginAccepted_stop (s := acceptPacket pk rest s) live rfl (accept_upcInv pk rest live d) h

/-- An attached handler has a callback (10_state.md R32), so an entered one does not stop. -/
theorem enterHandler_no_stop {s : State} {p : Port} {f : Fault} (inv : s.registrationInv) :
    enterHandler p s ≠ .fault f := by
  intro h
  rw [enterHandler] at h
  split at h
  · next may =>
    obtain ⟨-, attached, -⟩ := mayEnter_iff.1 may
    exact inv.1 p attached (handler_fault h)
  · cases h

/-- Settles O59: by the agent whose turn it is; a handler has its callback, and the sequencer is on a
micro-step of the command in its latches. -/
theorem onlyBaudZeroStopsARun : Obligations.OnlyBaudZeroStopsARun := by
  intro s f registered upc h
  unfold step move at h
  split at h
  · exact sequencerTurn_stop upc h
  · next r _ => exact sequencerTurn_stop (s := s.withTurns r) upc h
  · cases h
  · next p r _ => exact absurd h (enterHandler_no_stop (s := s.withTurns r) registered)
  · cases h

end Sys2Proof.Machine
end
